-- ==== Sys2Proof/Word.lean ====
section
/-!
DEFINITION. The word types of LZWCORE (00_scope R6, 30_encoding R60, R71).
-/

namespace Sys2Proof

/-- A byte: an element of SRC and of SNK, an `imm8` operand (00_scope R6). -/
abbrev Byte := BitVec 8

/-- A 32-bit operand `opd`, and what the read port answers (30_encoding R60, 10_state R30). -/
abbrev Word := BitVec 32

/-- A 40-bit command word `cmd[39:0]` (30_encoding R60). -/
abbrev Cmd := BitVec 40

/-- A 9-bit token of the OUT space (30_encoding R71). -/
abbrev Token := BitVec 9

/-- A byte string (00_scope R6): the head is the first byte, `[]` is the empty string. -/
abbrev Str := List Byte

/-- A bit string in stream order, first bit first (00_scope R6). -/
abbrev Bits := List Bool

end Sys2Proof
end

