-- ==== Sys2Proof/Syntax.lean ====
section
/-!
DEFINITION. The twelve commands of LZWCORE (30_encoding R62), one constructor per row of the opcode table.
-/

namespace Sys2Proof

/-- A command (30_encoding R61, R62). An operand is held as the form of R61 gives it: nothing for `none`, the byte for
`imm8`, all 32 bits for `imm32` and for `cfg` (whose reserved bits `Instr.wf` checks). -/
inductive Instr where
  /-- NOP: nothing (40_control R91). -/
  | nop
  /-- SETCFG: write CFG (40_control R92). -/
  | setcfg (opd : Word)
  /-- SETKEY: write KEY (40_control R93). -/
  | setkey (imm32 : Word)
  /-- SETSRCLEN: write SRC_LEN (40_control R94). -/
  | setsrclen (imm32 : Word)
  /-- BEGIN: begin an operation (40_control R95). -/
  | beginOp
  /-- SRST: soft reset (40_control R96). -/
  | srst
  /-- HDRB: write one header byte (45_compress R160). -/
  | hdrb (imm8 : Byte)
  /-- SYM: feed one input byte to the compressor (45_compress R161). -/
  | sym (imm8 : Byte)
  /-- EOFILE: end the current input file (45_compress R162). -/
  | eofile
  /-- FINISH: end the compress pass (45_compress R163). -/
  | finish
  /-- HDRRD: read one header byte into RESULT (46_decompress R175). -/
  | hdrrd
  /-- DSTEP: one decoder step (46_decompress R176, R177). -/
  | dstep
  deriving DecidableEq, Repr

end Sys2Proof
end

