-- ==== Sys2Proof/WellFormed.lean ====
section
/-!
DEFINITION. Which terms of `Instr` are commands: the reserved operand bits that the constructors can hold are 0
(30_encoding R61).
-/

namespace Sys2Proof

/-- The operand bits 31:13 that the form `cfg` reserves are 0 (30_encoding R61, R64). -/
def cfgHighReservedClear (opd : Word) : Bool := opd.extractLsb' 13 19 == 0

/-- The operand bits 7:5 that the form `cfg` reserves are 0 (30_encoding R61, R64). -/
def cfgLowReservedClear (opd : Word) : Bool := opd.extractLsb' 5 3 == 0

/-- A command whose reserved operand bits are all 0 (30_encoding R61). -/
def Instr.wf : Instr → Bool
  | .nop => true
  | .setcfg opd => cfgHighReservedClear opd && cfgLowReservedClear opd
  | .setkey _ => true
  | .setsrclen _ => true
  | .beginOp => true
  | .srst => true
  | .hdrb _ => true
  | .sym _ => true
  | .eofile => true
  | .finish => true
  | .hdrrd => true
  | .dstep => true

end Sys2Proof
end

