-- ==== Sys2Proof/Decode.lean ====
section
/-!
DEFINITION. The decoder, a total function of the 40 bits of a command word (30_encoding R60 to R63), and the encoder
written from the same table.
-/

namespace Sys2Proof

/-- Why a word matches no row of 30_encoding R62 (R63); `opc` is what ERRINFO records. -/
inductive Reject where
  /-- `opc` is none of the twelve opcodes. -/
  | unknownOpcode (opc : Byte)
  /-- `opc` is listed, but a reserved operand bit is set. -/
  | reservedBits (opc : Byte)
  deriving DecidableEq, Repr

/-- `cmd[39:32]` (30_encoding R60). -/
def opcOf (w : Cmd) : Byte := w.extractLsb' 32 8

/-- `cmd[31:0]` (30_encoding R60). -/
def opdOf (w : Cmd) : Word := w.extractLsb' 0 32

/-- Operand form `none`: `opd[31:0]` must be 0 (30_encoding R61). -/
def formNone (opc : Byte) (opd : Word) (i : Instr) : Except Reject Instr :=
  if opd = 0 then .ok i else .error (.reservedBits opc)

/-- Operand form `imm8`: `opd[7:0]` is the byte and `opd[31:8]` must be 0 (30_encoding R61). -/
def formImm8 (opc : Byte) (opd : Word) (f : Byte → Instr) : Except Reject Instr :=
  if opd.extractLsb' 8 24 = 0 then .ok (f (opd.extractLsb' 0 8)) else .error (.reservedBits opc)

/-- Operand form `imm32`: no reserved bits (30_encoding R61). -/
def formImm32 (opd : Word) (f : Word → Instr) : Except Reject Instr := .ok (f opd)

/-- Operand form `cfg`: `opd[31:13]` and `opd[7:5]` must be 0 (30_encoding R61, R64). -/
def formCfg (opc : Byte) (opd : Word) (f : Word → Instr) : Except Reject Instr :=
  if cfgHighReservedClear opd && cfgLowReservedClear opd then .ok (f opd) else .error (.reservedBits opc)

/-- The opcode map of 30_encoding R62 over the two fields of a command word. -/
def decodeFields (opc : Byte) (opd : Word) : Except Reject Instr :=
  match opc.toNat with
  | 0x00 => formNone opc opd .nop
  | 0x01 => formCfg opc opd .setcfg
  | 0x02 => formImm32 opd .setkey
  | 0x03 => formImm32 opd .setsrclen
  | 0x04 => formNone opc opd .beginOp
  | 0x05 => formNone opc opd .srst
  | 0x10 => formImm8 opc opd .hdrb
  | 0x11 => formImm8 opc opd .sym
  | 0x12 => formNone opc opd .eofile
  | 0x13 => formNone opc opd .finish
  | 0x20 => formNone opc opd .hdrrd
  | 0x21 => formNone opc opd .dstep
  | _ => .error (.unknownOpcode opc)

/-- Decoding a command word: a function of its 40 bits alone (30_encoding R60). -/
def decode (w : Cmd) : Except Reject Instr := decodeFields (opcOf w) (opdOf w)

/-- The opcode of a command (30_encoding R62). -/
def Instr.opc : Instr → Byte
  | .nop => 0x00
  | .setcfg _ => 0x01
  | .setkey _ => 0x02
  | .setsrclen _ => 0x03
  | .beginOp => 0x04
  | .srst => 0x05
  | .hdrb _ => 0x10
  | .sym _ => 0x11
  | .eofile => 0x12
  | .finish => 0x13
  | .hdrrd => 0x20
  | .dstep => 0x21

/-- The operand field of a command (30_encoding R61). -/
def Instr.opd : Instr → Word
  | .setcfg opd => opd
  | .setkey imm32 => imm32
  | .setsrclen imm32 => imm32
  | .hdrb imm8 => imm8.zeroExtend 32
  | .sym imm8 => imm8.zeroExtend 32
  | .nop => 0
  | .beginOp => 0
  | .srst => 0
  | .eofile => 0
  | .finish => 0
  | .hdrrd => 0
  | .dstep => 0

/-- The word of a well-formed command, `opc << 32 | opd` (30_encoding R60, R72). -/
def encode (i : Instr) : Cmd := i.opc ++ i.opd

/-- The columns `mask` and `match` of a command's row of 30_encoding R62. -/
def Instr.row : Instr → Cmd × Cmd
  | .nop => (0xFFFFFFFFFF, 0x0000000000)
  | .setcfg _ => (0xFFFFFFE0E0, 0x0100000000)
  | .setkey _ => (0xFF00000000, 0x0200000000)
  | .setsrclen _ => (0xFF00000000, 0x0300000000)
  | .beginOp => (0xFFFFFFFFFF, 0x0400000000)
  | .srst => (0xFFFFFFFFFF, 0x0500000000)
  | .hdrb _ => (0xFFFFFFFF00, 0x1000000000)
  | .sym _ => (0xFFFFFFFF00, 0x1100000000)
  | .eofile => (0xFFFFFFFFFF, 0x1200000000)
  | .finish => (0xFFFFFFFFFF, 0x1300000000)
  | .hdrrd => (0xFFFFFFFFFF, 0x2000000000)
  | .dstep => (0xFFFFFFFFFF, 0x2100000000)

/-- The word `w` selects the row `r` of 30_encoding R62: `w & mask = match`. -/
def selects (w : Cmd) (r : Cmd × Cmd) : Prop := w &&& r.1 = r.2

/-- The twelve rows (`mask`, `match`) of 30_encoding R62, in the order of the table. -/
def opcodeRows : List (Cmd × Cmd) :=
  [Instr.row .nop, Instr.row (.setcfg 0), Instr.row (.setkey 0), Instr.row (.setsrclen 0), Instr.row .beginOp,
   Instr.row .srst, Instr.row (.hdrb 0), Instr.row (.sym 0), Instr.row .eofile, Instr.row .finish, Instr.row .hdrrd,
   Instr.row .dstep]

/-- The 40-bit command word whose bits are those of `w` below `nbits`, all others 0. The command word is one value and
no byte sequence (20_memory R41), so the numbering of the opcode table's bits is the word's own. -/
def tableWord (nbits w : Nat) : Cmd := BitVec.ofNat 40 (w % 2 ^ nbits)

/-- What the decoder reads from the bits that the opcode table numbers. -/
def decodeTableWord (nbits w : Nat) : Option Instr :=
  match decode (tableWord nbits w) with
  | .ok i => some i
  | .error _ => none

end Sys2Proof
end

