-- ==== Sys2Proof/Config.lean ====
section
/-!
DEFINITION. What an implementation fixes (00_scope R5) and the model's free values.

The parameters of R5 that the spec leaves open are DATA (`Params`): they stand in `State.params`, which no step
changes, so that every statement about every state is a statement about every choice of the parameters
(notes/assumptions/2.md, 3.md, 4.md).
-/

namespace Sys2Proof

/-- `BASE`, the number of entries after any dictionary reset (00_scope R5). -/
def Config.base : Nat := 256

/-- `WMIN_VAR`, the minimum and initial code width in variable mode (00_scope R5). -/
def Config.wminVar : Nat := 9

/-- `WMAX_VAR`, the ceiling of the code width in variable mode (00_scope R5). -/
def Config.wmaxVar : Nat := 16

/-- The default of `FIXW`, the code width in fixed mode after reset (00_scope R5). -/
def Config.fixwDefault : BitVec 5 := 12

/-- Which generator the PRNG parameter is (43_streamcipher R130). -/
inductive PrngInstance where
  /-- The reference instance LCG32 (43_streamcipher R131), the default. -/
  | lcg32
  /-- Any other generator, known by a number only: its two functions are the free values
  `Config.prngSeed` and `Config.prngNext`. -/
  | other (id : Nat)
  deriving DecidableEq, Repr

/-- `prng_seed` of the generator number `id` (43_streamcipher R130): a function of the key and nothing more.
FREE VALUE (notes/assumptions/3.md). -/
opaque Config.prngSeed (id : Nat) (key : Word) : Nat

/-- `prng_next` of the generator number `id` (43_streamcipher R130): the 16-bit raw value and the next state.
FREE VALUE (notes/assumptions/3.md). -/
opaque Config.prngNext (id : Nat) (st : Nat) : BitVec 16 × Nat

/-- What byte `index` of SRC holds when the host has not written it since the hardware reset number `epoch`
(93_implementation_defined U6: any value). FREE VALUE (notes/assumptions/4.md). -/
opaque Config.srcUnwritten (epoch : Nat) (index : Nat) : Byte

/-- The byte range `HDR_LO`, `HDR_HI` that the header cipher permutes (00_scope R5, 43_streamcipher R135). The
constraint is part of the type, so that a configuration outside it does not exist (93_implementation_defined U4). -/
structure HdrRange where
  lo : Nat
  hi : Nat
  ok : 0x0B ≤ lo ∧ lo ≤ hi ∧ hi ≤ 0x7F
  deriving DecidableEq, Repr

/-- The open parameters of 00_scope R5. A capacity is at most `2^32 − 1`, what a 32-bit length register can count
(92_eei_decisions D4). -/
structure Params where
  prng : PrngInstance
  hdr : HdrRange
  srcCap : Word
  snkCap : Word
  outCap : Word
  deriving DecidableEq, Repr

/-- The defaults of 00_scope R5. -/
def Config.defaultParams : Params where
  prng := .lcg32
  hdr := ⟨0x20, 0x7E, by decide⟩
  srcCap := 0xFFFFFFFF
  snkCap := 0xFFFFFFFF
  outCap := 0xFFFFFFFF

end Sys2Proof
end

