-- ==== Sys2Proof/Machine/State.lean ====
section
/-!
DEFINITION. The architectural state of LZWCORE as plain data (10_state R10), the state after reset (10_state R38,
70_reset R215), and the reasons a step can stop.
-/

namespace Sys2Proof.Machine

/-- PHASE (10_state R18). -/
inductive Phase where
  | idle
  | cHdr
  | cBody
  | dHdr
  | dBody
  | done
  | err
  deriving DecidableEq, Repr

/-- DSTATE: whether the decoder holds a CURRENT code (10_state R14). -/
inductive DState where
  | prime
  | run
  deriving DecidableEq, Repr

/-- CFG.DIR: which pass BEGIN starts (10_state R20). -/
inductive Dir where
  | compress
  | decompress
  deriving DecidableEq, Repr

/-- CFG.TEXT, its three legal values (10_state R20). -/
inductive TextMode where
  | none
  | hex
  | base64
  deriving DecidableEq, Repr

/-- CFG, by the fields of its 13-bit image (10_state R20, 30_encoding R64). The illegal value 3 of TEXT is never held
and has no name here; the reserved bits read as 0. The image is `Cfg.image`. -/
structure Cfg where
  dir : Dir
  var : Bool
  text : TextMode
  ciph : Bool
  fixw : BitVec 5
  deriving DecidableEq, Repr

/-- A map from naturals to `α` as data: pairs of key and value, the keys strictly rising (`Store.wf`). A key that is
not listed holds no value. SRC and SNK are such lists of `Host.Cell`. -/
abbrev Store (α : Type) := List (Nat × α)

/-- What the host can do to the machine (20_memory R52), reads apart, which have no effect (20_memory R44). -/
inductive HostMove where
  /-- Present a command word on the command port. -/
  | command (cmd : Cmd)
  /-- Store a byte at an index of SRC. -/
  | writeSrc (index : Nat) (byte : Byte)
  /-- Apply the hardware reset. -/
  | hardReset
  deriving DecidableEq, Repr

/-- The complete architectural state: exactly the 23 elements of the tuple of 10_state R10, in its order, and nothing
else. -/
structure Elements where
  /-- PHASE, where in an operation the engine is (R18). -/
  phase : Phase
  /-- CFG, the configuration (R20). -/
  cfg : Cfg
  /-- KEY, the cipher key (R21). -/
  key : Word
  /-- SRC_LEN, the number of valid bytes in SRC (R22). -/
  srcLen : Nat
  /-- W, the active code width (R11). -/
  w : Nat
  /-- DSIZE, the number of dictionary entries (R12). -/
  dsize : Nat
  /-- DICT, the entries from code 256 on; the entries 0 to 255 are always the single bytes (R32, 44_dictionary R152). -/
  dict : Store Str
  /-- S, the compressor's candidate string (R13). -/
  cand : Str
  /-- DSTATE, whether the decoder holds a CURRENT code (R14). -/
  dstate : DState
  /-- CUR, the decoder's CURRENT code (R14). -/
  cur : Nat
  /-- WBUF, the packer's unflushed output bits (R15). -/
  wbuf : Bits
  /-- RBUF, the unpacker's fetched but unconsumed bits (R16). -/
  rbuf : Bits
  /-- PRNG, the generator state (R17); the 32-bit value for LCG32. -/
  prng : Nat
  /-- EOS, source exhausted (R19). -/
  eos : Bool
  /-- SRC_POS, the index of the next unread SRC byte (R27). -/
  srcPos : Nat
  /-- SNK_LEN, the number of bytes appended to SNK (R28). -/
  snkLen : Nat
  /-- OUT_LEN, the number of tokens appended to OUT (R28). -/
  outLen : Nat
  /-- RESULT: VALID in bit 8, BYTE in bits 7:0 (R29). -/
  result : BitVec 9
  /-- ERR, the cause code of the first fault (R24). -/
  err : BitVec 4
  /-- ERRINFO, the detail of that fault (R25). -/
  errinfo : Word
  /-- SRC, the bytes the host has written (R33). -/
  src : List Host.Cell
  /-- SNK, the bytes below SNK_LEN (R34). -/
  snk : List Host.Cell
  /-- OUT, the tokens below OUT_LEN (R35). -/
  out : Store Token
  deriving DecidableEq, Repr

/-- What a step of the host's interface works on: the architectural state, and beside it the arguments of the step that
are no state in the spec. The interface fixes the type of `step` to a function of one value, so the parameters
(10_state R10: "arguments of the step function"), the argument of the free value of an unwritten SRC byte, and the
host's moves stand here. `stepAt` is the step with these as arguments (notes/assumptions/2.md). -/
structure State extends Elements where
  /-- The model's own: the open parameters of 00_scope R5, changed by no step (notes/assumptions/2.md). -/
  params : Params
  /-- The model's own: how many hardware resets there have been; the argument of the free value of an unwritten SRC
  byte (notes/assumptions/4.md). -/
  srcEpoch : Nat
  /-- The model's own: the host moves still to come, the next one first (notes/assumptions/1.md). -/
  port : List HostMove
  deriving DecidableEq, Repr

/-- Why a step stops. None of these is a fault of the spec: those are traps, which are taken (60_exceptions R192). -/
inductive Fault where
  /-- Raised by the host move `writeSrc` when PHASE is neither IDLE nor DONE: the host has no such move (20_memory R52,
  93_implementation_defined U17). Safe: the model stops. -/
  | srcWriteInPass
  /-- Raised by the host move `writeSrc` at an index that SRC does not have, `SRC_CAP` or above (10_state R10). Safe. -/
  | srcIndexAbsent
  /-- Raised by a read of `DICT[c]` or of `DICT[c][0]` where no entry is defined (10_state R32: "never happens in any
  rule"); no state reachable from reset raises it. Safe. -/
  | dictUndefined
  /-- Raised by SYM and EOFILE when S is not a key of the dictionary (10_state R13); no state reachable from reset
  raises it. Safe. -/
  | candidateNotKey
  deriving DecidableEq, Repr

/-- Why a command has no meaning. -/
inductive Refusal where
  /-- Answered by `exec` for an instruction that is not modelled yet; there is none. Safe: the model stops. -/
  | notModelled (mnemonic : String)
  deriving DecidableEq, Repr

/-- The state right after hardware reset (10_state R38, 70_reset R215), with the default parameters of 00_scope R5. -/
def State.reset : State where
  phase := .idle
  cfg := { dir := .compress, var := false, text := .none, ciph := false, fixw := Config.fixwDefault }
  key := 0
  srcLen := 0
  w := 12
  dsize := Config.base
  dict := []
  cand := []
  dstate := .prime
  cur := 0
  wbuf := []
  rbuf := []
  prng := 0
  eos := false
  srcPos := 0
  snkLen := 0
  outLen := 0
  result := 0
  err := 0
  errinfo := 0
  src := []
  snk := []
  out := []
  params := Config.defaultParams
  srcEpoch := 0
  port := []

end Sys2Proof.Machine
end

