-- ==== Sys2Proof/Machine/Operands.lean ====
section
/-!
DEFINITION. The operand forms and the CFG image (30_encoding R61, R64; 10_state R20), and the quantities derived from
CFG (00_scope R5). The forms `none`, `imm8` and `imm32` need nothing more than the constructors of `Instr` hold.
-/

namespace Sys2Proof.Machine

/-- CFG image bit 0, DIR (10_state R20). -/
def imageDir (opd : Word) : Dir := if opd.getLsbD 0 then .decompress else .compress

/-- CFG image bit 1, VAR (10_state R20). -/
def imageVar (opd : Word) : Bool := opd.getLsbD 1

/-- CFG image bits 3:2, TEXT (10_state R20); the value 3 is illegal. -/
def imageText (opd : Word) : Option TextMode :=
  match (opd.extractLsb' 2 2).toNat with
  | 0 => some .none
  | 1 => some .hex
  | 2 => some .base64
  | _ => none

/-- CFG image bit 4, CIPH (10_state R20). -/
def imageCiph (opd : Word) : Bool := opd.getLsbD 4

/-- CFG image bits 12:8, FIXW (10_state R20). -/
def imageFixw (opd : Word) : BitVec 5 := opd.extractLsb' 8 5

/-- FIXW is legal in 9..16 (10_state R20, 40_control R92). -/
def fixwLegal (f : BitVec 5) : Bool := decide (9 ≤ f.toNat) && decide (f.toNat ≤ 16)

/-- The configuration an image stands for; `none` when TEXT is 3 or FIXW is outside 9..16 (40_control R92). -/
def cfgOfImage (opd : Word) : Option Cfg :=
  match imageText opd with
  | none => none
  | some text =>
    if fixwLegal (imageFixw opd) then
      some { dir := imageDir opd, var := imageVar opd, text := text, ciph := imageCiph opd, fixw := imageFixw opd }
    else none

/-- The bit of DIR (10_state R20). -/
def dirBit : Dir → Bool
  | .compress => false
  | .decompress => true

/-- The two bits of TEXT (10_state R20). -/
def textBits : TextMode → BitVec 2
  | .none => 0
  | .hex => 1
  | .base64 => 2

/-- The 13-bit image of CFG (10_state R20, 30_encoding R64), as the read port shows it. -/
def cfgImage (c : Cfg) : BitVec 13 :=
  c.fixw ++ 0#3 ++ BitVec.ofBool c.ciph ++ textBits c.text ++ BitVec.ofBool c.var ++ BitVec.ofBool (dirBit c.dir)

/-- `Wmin` (00_scope R5). -/
def wmin (c : Cfg) : Nat := if c.var then Config.wminVar else c.fixw.toNat

/-- `Wmax` (00_scope R5). -/
def wmax (c : Cfg) : Nat := if c.var then Config.wmaxVar else c.fixw.toNat

/-- `G`, the group size in bits (00_scope R5). -/
def groupSize (c : Cfg) : Nat :=
  match c.text with
  | .none => 8
  | .hex => 8
  | .base64 => 6

/-- `limit(W) = 2^W − 1` (44_dictionary R145). -/
def limit (w : Nat) : Nat := 2 ^ w - 1

/-- `sentinel(W) = 2^W − 1` (00_scope R5, 30_encoding R74). -/
def sentinel (w : Nat) : Nat := 2 ^ w - 1

/-- HDR_LO ≤ b ≤ HDR_HI (43_streamcipher R135). -/
def inHdrRange (r : HdrRange) (b : Nat) : Bool := decide (r.lo ≤ b) && decide (b ≤ r.hi)

/-- `M = HDR_HI − HDR_LO + 1` (43_streamcipher R135). -/
def hdrModulus (r : HdrRange) : Nat := r.hi - r.lo + 1

end Sys2Proof.Machine
end

