-- ==== Sys2Proof/Machine/Ops.lean ====
section
/-!
DEFINITION. The named operations: bit strings, stores, the ends of a piece of pseudocode, taking a fault, accepting a
command, and the accesses to the four spaces (00_scope R6, R7; 20_memory R43; 40_control R90; 60_exceptions R192).
-/

namespace Sys2Proof.Machine

/-! ### Bit strings (00_scope R6) -/

/-- `bitsMSB(v, n)`: the low `n` bits of `v`, the most significant first (00_scope R6). -/
def bitsMSB (v : Nat) : Nat → Bits
  | 0 => []
  | n + 1 => v.testBit n :: bitsMSB v n

/-- `valMSB(bs)`: the first bit is the most significant (00_scope R6). -/
def valMSB (bs : Bits) : Nat := bs.foldl (fun acc b => 2 * acc + b.toNat) 0

/-! ### Stores -/

/-- What a store holds at a key; `none` where nothing is listed. -/
def Store.read {α : Type} : Store α → Nat → Option α
  | [], _ => none
  | (k, v) :: rest, a => if k = a then some v else Store.read rest a

/-- A store with the value `x` at key `a`, the keys still rising. -/
def Store.write {α : Type} (m : Store α) (a : Nat) (x : α) : Store α :=
  match m with
  | [] => [(a, x)]
  | (k, v) :: rest =>
    if a < k then (a, x) :: (k, v) :: rest
    else if a = k then (a, x) :: rest
    else (k, v) :: Store.write rest a x

/-- The canonical form: the keys strictly rise. No entry can equal what an unlisted key reads as, since that is no
value at all. -/
def Store.wf {α : Type} : Store α → Bool
  | [] => true
  | [_] => true
  | (a, _) :: (b, y) :: rest => decide (a < b) && Store.wf ((b, y) :: rest)

/-- The canonical form of the four spaces of a state. -/
def Memory.wf (s : State) : Bool :=
  Store.wf (α := Byte) s.src && Store.wf (α := Byte) s.snk && Store.wf s.out && Store.wf s.dict

/-! ### How a piece of pseudocode ends -/

/-- A primitive either runs to its end with a result, or raises a fault, which ends the command (60_exceptions R192),
or meets a read that the spec says never happens. -/
inductive Res (α : Type) where
  /-- The next line of the pseudocode follows. -/
  | done (a : α) (s : State)
  /-- A fault was raised: the command has ended in this state. -/
  | raised (s : State)
  /-- The model stops. -/
  | stop (r : Fault)
  deriving DecidableEq, Repr

/-- The next line of the pseudocode, reached only when the one before did not end the command. -/
def Res.bind {α β : Type} (x : Res α) (f : α → State → Res β) : Res β :=
  match x with
  | .done a s => f a s
  | .raised s => .raised s
  | .stop r => .stop r

/-- The end of a command: a raised fault is a next state. -/
def Res.outcome {α : Type} (x : Res α) : Host.Outcome State Fault Refusal :=
  match x with
  | .done _ s => .next s
  | .raised s => .next s
  | .stop r => .fault r

/-! ### Taking a fault (60_exceptions R190, R192) -/

/-- The fault causes (60_exceptions R190). -/
inductive Cause where
  | cfg
  | seq
  | illcmd
  | unkcode
  | badsym
  | ovf
  deriving DecidableEq, Repr

/-- The code of a cause in ERR[3:0] (60_exceptions R190). -/
def causeCode : Cause → BitVec 4
  | .cfg => 1
  | .seq => 2
  | .illcmd => 3
  | .unkcode => 4
  | .badsym => 5
  | .ovf => 6

/-- `raise E_X(info)`: ERR, ERRINFO and PHASE are written and nothing else changes (60_exceptions R192). There is no
return from it: only SRST and the hardware reset leave ERR (60_exceptions R194). -/
def raise (c : Cause) (info : Word) (s : State) : State :=
  { s with err := causeCode c, errinfo := info, phase := .err }

/-- ERRINFO of E_UNKCODE, `(W << 16) + code` (60_exceptions R190). -/
def unkInfo (code w : Nat) : Word := BitVec.ofNat 32 (w * 2 ^ 16 + code)

/-! ### Accepting a command (40_control R90) -/

/-- Steps 1, 3 and 4 of the acceptance sequence for a word that matches the row with opcode `opc`, legal in the phases
`legal`: discarded in ERR, E_SEQ in another phase that is not legal, else the row's pseudocode (40_control R90). -/
def accept (opc : Byte) (legal : List Phase) (body : State → Res Unit) (s : State) :
    Host.Outcome State Fault Refusal :=
  if s.phase = .err then .next s
  else if s.phase ∈ legal then (body s).outcome
  else .next (raise .seq (opc.zeroExtend 32) s)

/-- Steps 1 and 2 of the acceptance sequence for a word that matches no row: discarded in ERR, else E_ILLCMD
(40_control R90, 30_encoding R63). -/
def acceptIllegal (opc : Byte) (s : State) : State :=
  if s.phase = .err then s else raise .illcmd (opc.zeroExtend 32) s

/-! ### The four spaces (20_memory R43) -/

/-- `SnkAppend(b)` (20_memory R43). -/
def snkAppend (b : Byte) (s : State) : Res Unit :=
  if s.snkLen = s.params.snkCap.toNat then .raised (raise .ovf 0 s)
  else .done () { s with snk := Store.write (α := Byte) s.snk s.snkLen b, snkLen := s.snkLen + 1 }

/-- `OutAppend(t)` (20_memory R43). -/
def outAppend (t : Token) (s : State) : Res Unit :=
  if s.outLen = s.params.outCap.toNat then .raised (raise .ovf 1 s)
  else .done () { s with out := Store.write s.out s.outLen t, outLen := s.outLen + 1 }

/-- The file-boundary token (30_encoding R71). -/
def boundaryToken : Token := 0x100

/-- The token of a decompressed byte (30_encoding R71). -/
def byteToken (b : Byte) : Token := b.zeroExtend 9

/-- `emit_string(s)`: one token for each byte, in order (46_decompress R177). -/
def emitString : Str → State → Res Unit
  | [], s => .done () s
  | b :: rest, s => (outAppend (byteToken b) s).bind fun _ s => emitString rest s

/-- `SRC[i]`: the byte the host wrote, or the free value where it wrote none (93_implementation_defined U6). -/
def srcByte (i : Nat) (s : State) : Byte :=
  match Store.read (α := Byte) s.src i with
  | some b => b
  | none => Config.srcUnwritten s.srcEpoch i

/-- `DICT[c]`, defined for `c < DSIZE`; the first 256 entries are the single bytes (10_state R32, 44_dictionary R152). -/
def dictRead (c : Nat) (s : State) : Option Str :=
  if c < s.dsize then
    if c < Config.base then some [BitVec.ofNat 8 c] else Store.read s.dict c
  else none

/-- `DICT[c]` as a value in pseudocode. -/
def dictGet (c : Nat) (s : State) : Res Str :=
  match dictRead c s with
  | some e => .done e s
  | none => .stop .dictUndefined

/-- `e[0]`, the first byte of an entry, which is non-empty (10_state R32). -/
def firstByte (e : Str) (s : State) : Res Byte :=
  match e with
  | b :: _ => .done b s
  | [] => .stop .dictUndefined

/-- `code_of(s)`: the code below DSIZE whose entry is the string, or none (44_dictionary R151). -/
def codeOf (str : Str) (s : State) : Option Nat :=
  match str with
  | [b] => some b.toNat
  | _ => (s.dict.find? fun e => decide (Config.base ≤ e.1) && decide (e.1 < s.dsize) && decide (e.2 = str)).map Prod.fst

/-- `code_of(S)` as a value in pseudocode: S is a key (10_state R13). -/
def candCode (s : State) : Res Nat :=
  match codeOf s.cand s with
  | some c => .done c s
  | none => .stop .candidateNotKey

end Sys2Proof.Machine
end

