-- ==== Sys2Proof/Machine/Flags.lean ====
section
/-!
DEFINITION. The status flags (10_state R19), the views STATUS, ERR and RESULT, and the host's read side: the read port
and the reads of SNK and OUT (10_state R23 to R30, R34, R35). Reads are functions of the state: they have no effect
(10_state R30, 20_memory R44).
-/

namespace Sys2Proof.Machine

/-- The encoding of PHASE (10_state R18). -/
def phaseCode : Phase → BitVec 3
  | .idle => 0
  | .cHdr => 1
  | .cBody => 2
  | .dHdr => 3
  | .dBody => 4
  | .done => 5
  | .err => 6

/-- The bit of DSTATE (10_state R14). -/
def dstateBit : DState → Bool
  | .prime => false
  | .run => true

/-- SNE: `S ≠ ""` (10_state R19). -/
def sne (s : State) : Bool := !s.cand.isEmpty

/-- RESULT with VALID = 1 and the byte delivered: `0x100 + b` (46_decompress R175). -/
def resultValid (b : Byte) : BitVec 9 := 0x100 + b.zeroExtend 9

/-- STATUS, register 3 (10_state R23). -/
def statusWord (s : State) : Word :=
  (BitVec.ofNat 5 s.w ++ 0#2 ++ BitVec.ofBool (sne s) ++ BitVec.ofBool s.eos ++ BitVec.ofBool (dstateBit s.dstate)
    ++ phaseCode s.phase).zeroExtend 32

/-- The read port: the register with index `i`; an index above 10 reads 0 (10_state R30). -/
def readReg (i : Nat) (s : State) : Word :=
  match i with
  | 0 => (cfgImage s.cfg).zeroExtend 32
  | 1 => s.key
  | 2 => BitVec.ofNat 32 s.srcLen
  | 3 => statusWord s
  | 4 => s.err.zeroExtend 32
  | 5 => s.errinfo
  | 6 => BitVec.ofNat 32 s.dsize
  | 7 => BitVec.ofNat 32 s.srcPos
  | 8 => BitVec.ofNat 32 s.snkLen
  | 9 => BitVec.ofNat 32 s.outLen
  | 10 => s.result.zeroExtend 32
  | _ => 0

/-- The host's read of `SNK[i]`; `none` at or above SNK_LEN, where the element is unspecified (10_state R34). -/
def readSnk (i : Nat) (s : State) : Option Byte := if i < s.snkLen then Store.read (α := Byte) s.snk i else none

/-- The host's read of `OUT[i]`; `none` at or above OUT_LEN, where the element is unspecified (10_state R35). -/
def readOut (i : Nat) (s : State) : Option Token := if i < s.outLen then Store.read s.out i else none

/-- `SRC_POS`, the index that E_BADSYM reports (60_exceptions R190). -/
def srcPosWord (s : State) : Word := BitVec.ofNat 32 s.srcPos

end Sys2Proof.Machine
end

