-- ==== Sys2Proof/Machine/TextTranscoder.lean ====
section
/-!
DEFINITION. TextTranscoder (42_texttranscoder): groups to SNK bytes, SRC bytes to groups.
-/

namespace Sys2Proof.Machine

/-- `hexchar(x)` for `x` in 0..15 (42_texttranscoder R122, 30_encoding R68). -/
def hexChar (x : Nat) : Byte := if x ≤ 9 then BitVec.ofNat 8 (0x30 + x) else BitVec.ofNat 8 (0x61 + x - 10)

/-- `hexval(b)`, `none` when `b` is no hex digit (42_texttranscoder R122). -/
def hexVal (b : Byte) : Option Nat :=
  let v := b.toNat
  if 0x30 ≤ v ∧ v ≤ 0x39 then some (v - 0x30)
  else if 0x61 ≤ v ∧ v ≤ 0x66 then some (v - 0x61 + 10)
  else if 0x41 ≤ v ∧ v ≤ 0x46 then some (v - 0x41 + 10)
  else none

/-- `b64char(x)` for `x` in 0..63 (30_encoding R69). -/
def b64Char (x : Nat) : Byte :=
  if x ≤ 25 then BitVec.ofNat 8 (0x41 + x)
  else if x ≤ 51 then BitVec.ofNat 8 (0x61 + x - 26)
  else if x ≤ 61 then BitVec.ofNat 8 (0x30 + x - 52)
  else if x = 62 then 0x2B
  else 0x2F

/-- `b64val(b)`, the inverse of `b64char`; `none` when `b` is not in the alphabet (30_encoding R69). -/
def b64Val (b : Byte) : Option Nat :=
  let v := b.toNat
  if 0x41 ≤ v ∧ v ≤ 0x5A then some (v - 0x41)
  else if 0x61 ≤ v ∧ v ≤ 0x7A then some (v - 0x61 + 26)
  else if 0x30 ≤ v ∧ v ≤ 0x39 then some (v - 0x30 + 52)
  else if v = 0x2B then some 62
  else if v = 0x2F then some 63
  else none

/-- `emit_group(g)` (42_texttranscoder R120). -/
def emitGroup (g : Nat) (s : State) : Res Unit :=
  match s.cfg.text with
  | .none => snkAppend (BitVec.ofNat 8 g) s
  | .hex => (snkAppend (hexChar (g / 16 % 16)) s).bind fun _ s => snkAppend (hexChar (g % 16)) s
  | .base64 => snkAppend (b64Char g) s

/-- Read one character of a text mode at SRC_POS through its inverse table `val`: E_BADSYM(SRC_POS) when it is no
symbol, else SRC_POS advances (42_texttranscoder R121). -/
def fetchSymbol (val : Byte → Option Nat) (s : State) : Res Nat :=
  match val (srcByte s.srcPos s) with
  | none => .raised (raise .badsym (srcPosWord s) s)
  | some v => .done v { s with srcPos := s.srcPos + 1 }

/-- `fetch_group()`; `none` is END (42_texttranscoder R121). -/
def fetchGroup (s : State) : Res (Option Nat) :=
  match s.cfg.text with
  | .none =>
    if s.srcLen ≤ s.srcPos then .done none s
    else .done (some (srcByte s.srcPos s).toNat) { s with srcPos := s.srcPos + 1 }
  | .hex =>
    if s.srcLen ≤ s.srcPos + 1 then .done none s
    else
      (fetchSymbol hexVal s).bind fun hi s =>
      (fetchSymbol hexVal s).bind fun lo s =>
      .done (some (16 * hi + lo)) s
  | .base64 =>
    if s.srcLen ≤ s.srcPos then .done none s
    else (fetchSymbol b64Val s).bind fun v s => .done (some v) s

end Sys2Proof.Machine
end

