-- ==== Sys2Proof/Machine/BitCodeStream.lean ====
section
/-!
DEFINITION. BitCodeStream (41_bitcodestream): the packer and the unpacker. A `while` loop of the pseudocode is a
recursion on a number of rounds that is never the reason it ends: each round takes or adds at least 6 bits.
-/

namespace Sys2Proof.Machine

/-- The loop of `write_bits`: while WBUF holds a whole group, take the first G bits out and emit them
(41_bitcodestream R110). -/
def emitFull : Nat → State → Res Unit
  | 0, s => .done () s
  | rounds + 1, s =>
    if groupSize s.cfg ≤ s.wbuf.length then
      (emitGroup (valMSB (s.wbuf.take (groupSize s.cfg))) { s with wbuf := s.wbuf.drop (groupSize s.cfg) }).bind
        fun _ s => emitFull rounds s
    else .done () s

/-- `write_bits(v, n)` (41_bitcodestream R110). -/
def writeBits (v n : Nat) (s : State) : Res Unit :=
  emitFull (s.wbuf.length + n) { s with wbuf := s.wbuf ++ bitsMSB (v % 2 ^ n) n }

/-- `finalize()` (41_bitcodestream R111). -/
def finalize (s : State) : Res Unit :=
  if 0 < s.wbuf.length then
    (emitGroup (valMSB (s.wbuf ++ List.replicate (groupSize s.cfg - s.wbuf.length) false))
        { s with wbuf := s.wbuf ++ List.replicate (groupSize s.cfg - s.wbuf.length) false }).bind
      fun _ s => .done () { s with wbuf := [] }
  else .done () s

/-- The loop of `read_bits`: while RBUF is shorter than `n`, fetch a group; `false` is END (41_bitcodestream R112). -/
def fillTo (n : Nat) : Nat → State → Res Bool
  | 0, s => .done (decide (n ≤ s.rbuf.length)) s
  | rounds + 1, s =>
    if s.rbuf.length < n then
      (fetchGroup s).bind fun g s =>
        match g with
        | none => .done false { s with eos := true }
        | some g => fillTo n rounds { s with rbuf := s.rbuf ++ bitsMSB g (groupSize s.cfg) }
    else .done true s

/-- `read_bits(n)`; `none` is END (41_bitcodestream R112). -/
def readBits (n : Nat) (s : State) : Res (Option Nat) :=
  (fillTo n n s).bind fun filled s =>
    if filled then .done (some (valMSB (s.rbuf.take n))) { s with rbuf := s.rbuf.drop n }
    else .done none s

end Sys2Proof.Machine
end

