-- ==== Sys2Proof/Machine/StreamCipher.lean ====
section
/-!
DEFINITION. StreamCipher (43_streamcipher): the generator and the four cipher primitives, the only way the commands
reach the packer.
-/

namespace Sys2Proof.Machine

/-- The next state of LCG32 (43_streamcipher R131). -/
def lcgNext (st : Nat) : Nat := (st * 1664525 + 1013904223) % 2 ^ 32

/-- `prng_seed(key)` of the parameter (43_streamcipher R130, R131). -/
def prngSeed (p : Params) (key : Word) : Nat :=
  match p.prng with
  | .lcg32 => key.toNat
  | .other id => Config.prngSeed id key

/-- `prng_next(st)` of the parameter: the raw 16-bit value and the next state (43_streamcipher R130, R131). -/
def prngNext (p : Params) (st : Nat) : BitVec 16 × Nat :=
  match p.prng with
  | .lcg32 => (BitVec.ofNat 16 (lcgNext st / 2 ^ 16), lcgNext st)
  | .other id => Config.prngNext id st

/-- `draw()` (43_streamcipher R130). -/
def draw (s : State) : Nat × State :=
  ((prngNext s.params s.prng).1.toNat, { s with prng := (prngNext s.params s.prng).2 })

/-- `(x + (r mod m)) mod m` (00_scope R8). -/
def addMod (x r m : Nat) : Nat := (x + r % m) % m

/-- `(x − (r mod m)) mod m`, the least non-negative residue (00_scope R6, R8). -/
def subMod (x r m : Nat) : Nat := (x + (m - r % m)) % m

/-- `HDR_LO + ((b − HDR_LO + (r mod M)) mod M)` (43_streamcipher R135). -/
def hdrEncipher (h : HdrRange) (b r : Nat) : Nat := h.lo + addMod (b - h.lo) r (hdrModulus h)

/-- `HDR_LO + ((b − HDR_LO − (r mod M)) mod M)` (43_streamcipher R136). -/
def hdrDecipher (h : HdrRange) (b r : Nat) : Nat := h.lo + subMod (b - h.lo) r (hdrModulus h)

/-- `wr_code(c, w)` (43_streamcipher R133). -/
def wrCode (c w : Nat) (s : State) : Res Unit :=
  if s.cfg.ciph then writeBits (addMod c (draw s).1 (2 ^ w)) w (draw s).2
  else writeBits c w s

/-- `rd_code(w)`; `none` is END, which consumes no draw (43_streamcipher R134). -/
def rdCode (w : Nat) (s : State) : Res (Option Nat) :=
  (readBits w s).bind fun c s =>
    match c with
    | none => .done none s
    | some c =>
      if s.cfg.ciph then .done (some (subMod c (draw s).1 (2 ^ w))) (draw s).2
      else .done (some c) s

/-- `wr_hdr(b)` (43_streamcipher R135). -/
def wrHdr (b : Byte) (s : State) : Res Unit :=
  if s.cfg.ciph && inHdrRange s.params.hdr b.toNat then
    writeBits (hdrEncipher s.params.hdr b.toNat (draw s).1) 8 (draw s).2
  else writeBits b.toNat 8 s

/-- `rd_hdr()`; `none` is END (43_streamcipher R136). -/
def rdHdr (s : State) : Res (Option Byte) :=
  (readBits 8 s).bind fun b s =>
    match b with
    | none => .done none s
    | some b =>
      if s.cfg.ciph && inHdrRange s.params.hdr b then
        .done (some (BitVec.ofNat 8 (hdrDecipher s.params.hdr b (draw s).1))) (draw s).2
      else .done (some (BitVec.ofNat 8 b)) s

end Sys2Proof.Machine
end

