-- ==== Sys2Proof/Machine/DictionaryManager.lean ====
section
/-!
DEFINITION. DictionaryManager (44_dictionary): reset, insertion, fullness, and the reset and growth policy of each
side. Its lookups `dictRead` and `codeOf` are in Ops.lean.
-/

namespace Sys2Proof.Machine

/-- `dict_reset()` (44_dictionary R146). -/
def dictReset (s : State) : State := { s with dict := [], dsize := Config.base }

/-- `dict_reset() ; W <- Wmin`, "reset clears and reseeds both atomically" (44_dictionary R146, R149). -/
def dictRestart (s : State) : State := { dictReset s with w := wmin s.cfg }

/-- `dict_insert(e)` (44_dictionary R148). -/
def dictInsert (e : Str) (s : State) : State :=
  { s with dict := Store.write s.dict s.dsize e, dsize := s.dsize + 1 }

/-- `W <- W + 1`, the growth arm (44_dictionary R149, R150). -/
def growWidth (s : State) : State := { s with w := s.w + 1 }

/-- `is_full_enc()` (44_dictionary R147). -/
def isFullEnc (s : State) : Bool := decide (limit s.w ≤ s.dsize)

/-- `is_full_dec()`, one entry earlier (44_dictionary R147). -/
def isFullDec (s : State) : Bool := decide (limit s.w - 1 ≤ s.dsize)

/-- `if e != none: dict_insert(e)` (44_dictionary R149). -/
def insertOpt (e : Option Str) (s : State) : State :=
  match e with
  | some e => dictInsert e s
  | none => s

/-- `enc_policy(e)` (44_dictionary R149). -/
def encPolicy (e : Option Str) (s : State) : State :=
  if isFullEnc s then
    if s.w < wmax s.cfg then insertOpt e (growWidth s)
    else dictRestart s
  else insertOpt e s

/-- Which arm `dec_policy` took (44_dictionary R150). -/
inductive PolicyArm where
  | inserted
  | grown
  | reset
  deriving DecidableEq, Repr

/-- `dec_policy(e)`: the arm, and the state it leaves; in the reset arm the caller does the rest (44_dictionary R150). -/
def decPolicy (e : Str) (s : State) : PolicyArm × State :=
  if isFullDec s then
    if s.w < wmax s.cfg then (.grown, dictInsert e (growWidth s))
    else (.reset, s)
  else (.inserted, dictInsert e s)

end Sys2Proof.Machine
end

