-- ==== Sys2Proof/Machine/Compress.lean ====
section
/-!
DEFINITION. The compress commands HDRB, SYM, EOFILE, FINISH (45_compress).
-/

namespace Sys2Proof.Machine

/-- HDRB (45_compress R160). -/
def execHdrb (imm8 : Byte) (s : State) : Host.Outcome State Fault Refusal :=
  accept 0x10 [.cHdr] (wrHdr imm8) s

/-- The last arm of SYM, a miss: write the code of S at the width in force, run the policy, start again from `C`
(45_compress R161). -/
def symMiss (c : Byte) (s : State) : Res Unit :=
  (candCode s).bind fun code s =>
  (wrCode code s.w s).bind fun _ s =>
  .done () { encPolicy (some (s.cand ++ [c])) s with cand := [c] }

/-- The pseudocode of SYM (45_compress R161). -/
def symBody (c : Byte) (s : State) : Res Unit :=
  if s.cand = [] then .done () { s with phase := .cBody, cand := [c] }
  else if (codeOf (s.cand ++ [c]) s).isSome then .done () { s with phase := .cBody, cand := s.cand ++ [c] }
  else symMiss c { s with phase := .cBody }

/-- SYM (45_compress R161). -/
def execSym (imm8 : Byte) (s : State) : Host.Outcome State Fault Refusal :=
  accept 0x11 [.cHdr, .cBody] (symBody imm8) s

/-- The part of EOFILE before the sentinel: the last code of the file, and the policy with nothing to insert
(45_compress R162). -/
def closeCandidate (s : State) : Res Unit :=
  if s.cand = [] then .done () s
  else
    (candCode s).bind fun code s =>
    (wrCode code s.w s).bind fun _ s =>
    .done () { encPolicy none s with cand := [] }

/-- The pseudocode of EOFILE (45_compress R162): the sentinel is that of the width in force when it is written. -/
def eofileBody (s : State) : Res Unit :=
  (closeCandidate { s with phase := .cBody }).bind fun _ s => wrCode (sentinel s.w) s.w s

/-- EOFILE (45_compress R162). -/
def execEofile (s : State) : Host.Outcome State Fault Refusal :=
  accept 0x12 [.cHdr, .cBody] eofileBody s

/-- The pseudocode of FINISH (45_compress R163). -/
def finishBody (s : State) : Res Unit :=
  if s.cand ≠ [] then .raised (raise .seq 0x13 s)
  else
    (wrCode 0 s.w s).bind fun _ s =>
    (finalize s).bind fun _ s =>
    .done () { s with phase := .done }

/-- FINISH (45_compress R163). -/
def execFinish (s : State) : Host.Outcome State Fault Refusal :=
  accept 0x13 [.cHdr, .cBody] finishBody s

end Sys2Proof.Machine
end

