-- ==== Sys2Proof/Machine/Control.lean ====
section
/-!
DEFINITION. The control commands NOP, SETCFG, SETKEY, SETSRCLEN, BEGIN, SRST (40_control).
-/

namespace Sys2Proof.Machine

/-- NOP (40_control R91). -/
def execNop (s : State) : Host.Outcome State Fault Refusal :=
  accept 0x00 [.idle, .cHdr, .cBody, .dHdr, .dBody, .done] (fun s => .done () s) s

/-- The pseudocode of SETCFG (40_control R92). -/
def setcfgBody (opd : Word) (s : State) : Res Unit :=
  match cfgOfImage opd with
  | none => .raised (raise .cfg opd s)
  | some c => .done () { s with cfg := c }

/-- SETCFG (40_control R92). -/
def execSetcfg (opd : Word) (s : State) : Host.Outcome State Fault Refusal :=
  accept 0x01 [.idle, .done] (setcfgBody opd) s

/-- SETKEY (40_control R93). -/
def execSetkey (imm32 : Word) (s : State) : Host.Outcome State Fault Refusal :=
  accept 0x02 [.idle, .done] (fun s => .done () { s with key := imm32 }) s

/-- The pseudocode of SETSRCLEN (40_control R94). -/
def setsrclenBody (imm32 : Word) (s : State) : Res Unit :=
  if s.params.srcCap.toNat < imm32.toNat then .raised (raise .cfg imm32 s)
  else .done () { s with srcLen := imm32.toNat }

/-- SETSRCLEN (40_control R94). -/
def execSetsrclen (imm32 : Word) (s : State) : Host.Outcome State Fault Refusal :=
  accept 0x03 [.idle, .done] (setsrclenBody imm32) s

/-- The phase BEGIN enters (40_control R95). -/
def beginPhase : Dir → Phase
  | .compress => .cHdr
  | .decompress => .dHdr

/-- The state BEGIN leaves (40_control R95). SNK and OUT are emptied with their lengths, since elements at or above the
length are unspecified (10_state R34, R35; notes/assumptions/5.md). -/
def beginState (s : State) : State :=
  { dictRestart s with
    prng := prngSeed s.params s.key
    cand := []
    dstate := .prime
    cur := 0
    wbuf := []
    rbuf := []
    eos := false
    srcPos := 0
    snkLen := 0
    outLen := 0
    snk := []
    out := []
    result := 0
    phase := beginPhase s.cfg.dir }

/-- BEGIN (40_control R95). -/
def execBegin (s : State) : Host.Outcome State Fault Refusal :=
  accept 0x04 [.idle, .done] (fun s => .done () (beginState s)) s

/-- The state SRST leaves: every element at the value of the table of 10_state R38, SRC unchanged (40_control R96). The
parameters, the SRC epoch and the host's further moves are no state of the engine and stay. -/
def softReset (s : State) : State :=
  { State.reset with
    prng := prngSeed s.params 0
    src := s.src
    params := s.params
    srcEpoch := s.srcEpoch
    port := s.port }

/-- SRST, legal in every phase, ERR included (40_control R96). -/
def execSrst (s : State) : Host.Outcome State Fault Refusal := .next (softReset s)

end Sys2Proof.Machine
end

