-- ==== Sys2Proof/Machine/Decompress.lean ====
section
/-!
DEFINITION. The decompress commands HDRRD and DSTEP (46_decompress).
-/

namespace Sys2Proof.Machine

/-- The pseudocode of HDRRD (46_decompress R175). -/
def hdrrdBody (s : State) : Res Unit :=
  (rdHdr s).bind fun b s =>
    match b with
    | none => .done () { s with result := 0 }
    | some b => .done () { s with result := resultValid b }

/-- HDRRD (46_decompress R175). -/
def execHdrrd (s : State) : Host.Outcome State Fault Refusal :=
  accept 0x20 [.dHdr] hdrrdBody s

/-- DSTEP in state PRIME (46_decompress R176). -/
def dstepPrime (s : State) : Res Unit :=
  (rdCode s.w s).bind fun c s =>
    match c with
    | none => .done () { s with phase := .done }
    | some c =>
      if c = sentinel s.w then outAppend boundaryToken s
      else if s.dsize ≤ c then .raised (raise .unkcode (unkInfo c s.w) s)
      else .done () { s with cur := c, dstate := .run }

/-- `t`, the byte that completes the entry: the first byte of `DICT[NEXT]` when NEXT is known, of `DICT[CUR]` when NEXT
is the code not yet registered, else E_UNKCODE (46_decompress R177). -/
def completingByte (n : Nat) (current : Str) (s : State) : Res Byte :=
  if n < s.dsize then (dictGet n s).bind fun e s => firstByte e s
  else if n = s.dsize then firstByte current s
  else .raised (raise .unkcode (unkInfo n s.w) s)

/-- `nxt`, the string NEXT stands for in the table as it is now: `DICT[n]`, or the new entry `e` (46_decompress R177). -/
def nextString (n : Nat) (e : Str) (s : State) : Res Str :=
  if n < s.dsize then dictGet n s else .done e s

/-- The three arms after `dec_policy` (46_decompress R177). -/
def dstepArm (n : Nat) (nxt : Str) (arm : PolicyArm) (s : State) : Res Unit :=
  match arm with
  | .inserted => .done () { s with cur := n }
  | .grown => .done () { s with cur := n }
  | .reset => (emitString nxt s).bind fun _ s => .done () { dictRestart s with cur := 0, dstate := .prime }

/-- DSTEP in state RUN when NEXT is neither END nor the sentinel (46_decompress R177). -/
def dstepData (n : Nat) (s : State) : Res Unit :=
  (dictGet s.cur s).bind fun current s =>
  (emitString current s).bind fun _ s =>
  (completingByte n current s).bind fun t s =>
  (nextString n (current ++ [t]) s).bind fun nxt s =>
  dstepArm n nxt (decPolicy (current ++ [t]) s).1 (decPolicy (current ++ [t]) s).2

/-- DSTEP in state RUN when NEXT is the sentinel: the end of a file (46_decompress R177). -/
def dstepSentinel (s : State) : Res Unit :=
  (dictGet s.cur s).bind fun current s =>
  (emitString current s).bind fun _ s =>
  (outAppend boundaryToken s).bind fun _ s =>
  .done () { s with cur := 0, dstate := .prime }

/-- DSTEP in state RUN (46_decompress R177). -/
def dstepRun (s : State) : Res Unit :=
  (rdCode s.w s).bind fun n s =>
    match n with
    | none => .done () { s with phase := .done }
    | some n => if n = sentinel s.w then dstepSentinel s else dstepData n s

/-- The pseudocode of DSTEP (46_decompress R176, R177). -/
def dstepBody (s : State) : Res Unit :=
  match s.dstate with
  | .prime => dstepPrime { s with phase := .dBody }
  | .run => dstepRun { s with phase := .dBody }

/-- DSTEP (46_decompress R176, R177). -/
def execDstep (s : State) : Host.Outcome State Fault Refusal :=
  accept 0x21 [.dHdr, .dBody] dstepBody s

end Sys2Proof.Machine
end

