-- ==== Sys2Proof/Machine/Dispatch.lean ====
section
/-!
DEFINITION. The dispatch: one arm per command, each one call of its meaning (40_control R90 step 4).
-/

namespace Sys2Proof.Machine

def exec (i : Instr) (s : State) : Host.Outcome State Fault Refusal :=
  match i with
  | .nop => Sys2Proof.Machine.execNop s
  | .setcfg opd => Sys2Proof.Machine.execSetcfg opd s
  | .setkey imm32 => Sys2Proof.Machine.execSetkey imm32 s
  | .setsrclen imm32 => Sys2Proof.Machine.execSetsrclen imm32 s
  | .beginOp => Sys2Proof.Machine.execBegin s
  | .srst => Sys2Proof.Machine.execSrst s
  | .hdrb imm8 => Sys2Proof.Machine.execHdrb imm8 s
  | .sym imm8 => Sys2Proof.Machine.execSym imm8 s
  | .eofile => Sys2Proof.Machine.execEofile s
  | .finish => Sys2Proof.Machine.execFinish s
  | .hdrrd => Sys2Proof.Machine.execHdrrd s
  | .dstep => Sys2Proof.Machine.execDstep s

end Sys2Proof.Machine
end

