-- ==== Sys2Proof/Machine/Port.lean ====
section
/-!
DEFINITION. The host's side of the machine (20_memory R52): presenting a command word, writing SRC, the hardware
reset; and serving the next host move, which is what a step does.
-/

namespace Sys2Proof.Machine

/-- The opcode byte that E_ILLCMD records for a word that matches no row (30_encoding R63). -/
def rejectOpc : Reject → Byte
  | .unknownOpcode opc => opc
  | .reservedBits opc => opc

/-- The acceptance of a command word (40_control R90): a word that matches a row runs its command, any other is
E_ILLCMD. -/
def acceptWord (cmd : Cmd) (s : State) : Host.Outcome State Fault Refusal :=
  match decode cmd with
  | .ok i => exec i s
  | .error r => .next (acceptIllegal (rejectOpc r) s)

/-- The host writes `SRC[index]`: only in IDLE and DONE, and only where SRC has an element (10_state R10, R33;
20_memory R52). -/
def hostWriteSrc (index : Nat) (byte : Byte) (s : State) : Host.Outcome State Fault Refusal :=
  if s.phase = .idle ∨ s.phase = .done then
    if index < s.params.srcCap.toNat then .next { s with src := Store.write (α := Byte) s.src index byte }
    else .fault .srcIndexAbsent
  else .fault .srcWriteInPass

/-- The hardware reset: what SRST does, and the contents of SRC are unspecified again (10_state R38, 70_reset R215). -/
def hardReset (s : State) : State := { softReset s with src := [], srcEpoch := s.srcEpoch + 1 }

/-- What one host move does. -/
def applyMove (m : HostMove) (s : State) : Host.Outcome State Fault Refusal :=
  match m with
  | .command cmd => acceptWord cmd s
  | .writeSrc index byte => hostWriteSrc index byte s
  | .hardReset => .next (hardReset s)

/-- One host move on the architectural state alone, with the parameters as an argument: the step of 10_state R10. The
other two arguments are the number of hardware resets so far, which the free value of an unwritten SRC byte depends on
(notes/assumptions/4.md), and the move. The obligation StepOfElements says that `step` is this on the elements
(notes/assumptions/2.md). -/
def stepAt (p : Params) (epoch : Nat) (m : HostMove) (e : Elements) : Host.Outcome Elements Fault Refusal :=
  match applyMove m { toElements := e, params := p, srcEpoch := epoch, port := [] } with
  | .next t => .next t.toElements
  | .fault r => .fault r
  | .refused r => .refused r

/-- The number of hardware resets after a host move. -/
def epochAfter (m : HostMove) (epoch : Nat) : Nat :=
  match m with
  | .command _ => epoch
  | .writeSrc _ _ => epoch
  | .hardReset => epoch + 1

/-- Serve the next host move; an engine that receives no command holds its state (60_exceptions R205). -/
def serve (s : State) : Host.Outcome State Fault Refusal :=
  match s.port with
  | [] => .next s
  | m :: rest => applyMove m { s with port := rest }

/-- The state with a command word presented next on the command port. -/
def presentNext (cmd : Cmd) (s : State) : State := { s with port := .command cmd :: s.port }

end Sys2Proof.Machine
end

