-- ==== Sys2Proof/Machine/Step.lean ====
section
/-!
DEFINITION. One step of the machine: it serves the next move of the host, each an atomic transaction (20_memory R47).
The engine fetches nothing (20_memory R50): a command comes from the command port (notes/assumptions/1.md).
-/

namespace Sys2Proof.Machine

/-- One step: the next host move, or nothing when there is none. -/
def step (s : State) : Host.Outcome State Fault Refusal := serve s

/-- `s` with the command word whose bits are those of `w` below `nbits` presented next on the command port. -/
def State.withFetchWord (s : State) (nbits w : Nat) : State := presentNext (tableWord nbits w) s

end Sys2Proof.Machine
end

