-- ==== Sys2Proof/Machine/Assembler.lean ====
section
/-!
DEFINITION. The notation of commands (30_encoding R72) and the pseudo-instructions (30_encoding R73): what a host
writes and does with the machine. The engine knows nothing of them, and `step` uses none of this file
(notes/assumptions/12.md).
-/

namespace Sys2Proof.Machine

/-! ### Lines (30_encoding R72) -/

/-- A line of text as a list of characters. -/
abbrev Line := List Char

/-- The apostrophe that opens and closes a character literal. -/
def quoteChar : Char := Char.ofNat 39

/-- A blank or a tab. -/
def isBlank (c : Char) : Bool := c.toNat == 32 || c.toNat == 9

/-- The line up to its comment, `;` to the end; a character literal is kept whole. -/
def stripComment : Line → Line
  | [] => []
  | c :: rest =>
    if c = ';' then []
    else if c = quoteChar then
      match rest with
      | d :: e :: rest' => if e = quoteChar then c :: d :: e :: stripComment rest' else c :: stripComment (d :: e :: rest')
      | short => c :: stripComment short
    else c :: stripComment rest

/-- The words of a line, separated by blanks and tabs. DESIGN CHOICE (notes/assumptions/12.md): how a word ends after a
character literal, which R72 does not say. A literal is the three characters apostrophe, character, apostrophe, part of
the word it stands in, a blank between the apostrophes too; the word then ends where any other word does, at the next
blank or tab or at the end of the line. An apostrophe that opens no such three characters is a character like any
other. -/
def splitWords : Line → Line → List Line
  | [], word => if word = [] then [] else [word]
  | c :: rest, word =>
    if isBlank c then
      if word = [] then splitWords rest [] else word :: splitWords rest []
    else if c = quoteChar then
      match rest with
      | d :: e :: rest' =>
        if e = quoteChar then splitWords rest' (word ++ [c, d, e]) else splitWords (d :: e :: rest') (word ++ [c])
      | short => splitWords short (word ++ [c])
    else splitWords rest (word ++ [c])

/-- The value of a decimal digit. -/
def decDigit (c : Char) : Option Nat :=
  if 48 ≤ c.toNat ∧ c.toNat ≤ 57 then some (c.toNat - 48) else none

/-- The value of a hexadecimal digit of either case. -/
def hexDigit (c : Char) : Option Nat := if c.toNat < 256 then hexVal (BitVec.ofNat 8 c.toNat) else none

/-- A non-empty run of digits in a base. -/
def digits (base : Nat) (digit : Char → Option Nat) : Line → Nat → Option Nat
  | [], _ => none
  | [c], acc => (digit c).map fun d => base * acc + d
  | c :: rest, acc =>
    match digit c with
    | some d => digits base digit rest (base * acc + d)
    | none => none

/-- `<imm>`: decimal or `0x` hexadecimal. -/
def immediate (word : Line) : Option Nat :=
  match word with
  | '0' :: 'x' :: rest => digits 16 hexDigit rest 0
  | _ => digits 10 decDigit word 0

/-- A character literal's code. -/
def charLiteral (word : Line) : Option Nat :=
  match word with
  | [a, c, b] => if a = quoteChar ∧ b = quoteChar then some c.toNat else none
  | _ => none

/-- The operand of HDRB and SYM. -/
def byteOperand (word : Line) : Option Byte :=
  match (charLiteral word).or (immediate word) with
  | some v => if v < 2 ^ 8 then some (BitVec.ofNat 8 v) else none
  | none => none

/-- A 32-bit operand. -/
def wordOperand (word : Line) : Option Word :=
  match immediate word with
  | some v => if v < 2 ^ 32 then some (BitVec.ofNat 32 v) else none
  | none => none

/-- One `field=value` of the keyword form of SETCFG. -/
def cfgKeyword (word : Line) (c : Cfg) : Option Cfg :=
  match word with
  | 'd' :: 'i' :: 'r' :: '=' :: v =>
    if v = ['c'] then some { c with dir := .compress }
    else if v = ['d'] then some { c with dir := .decompress }
    else none
  | 'v' :: 'a' :: 'r' :: '=' :: v =>
    if v = ['0'] then some { c with var := false } else if v = ['1'] then some { c with var := true } else none
  | 't' :: 'e' :: 'x' :: 't' :: '=' :: v =>
    if v = ['n', 'o', 'n', 'e'] then some { c with text := .none }
    else if v = ['h', 'e', 'x'] then some { c with text := .hex }
    else if v = ['b', '6', '4'] then some { c with text := .base64 }
    else none
  | 'c' :: 'i' :: 'p' :: 'h' :: '=' :: v =>
    if v = ['0'] then some { c with ciph := false } else if v = ['1'] then some { c with ciph := true } else none
  | 'f' :: 'i' :: 'x' :: 'w' :: '=' :: v =>
    match immediate v with
    | some n => if 9 ≤ n ∧ n ≤ 16 then some { c with fixw := BitVec.ofNat 5 n } else none
    | none => none
  | _ => none

/-- The keyword form of SETCFG; an omitted field has its reset value. -/
def cfgKeywords : List Line → Cfg → Option Cfg
  | [], c => some c
  | word :: rest, c => (cfgKeyword word c).bind (cfgKeywords rest)

/-- The operand of SETCFG in either form. DESIGN CHOICE (notes/assumptions/12.md): the keyword form has at least one field.
R72 gives an omitted field its reset default and does not say whether all may be omitted; a bare `SETCFG` is no command
here. -/
def cfgOperand (words : List Line) : Option Word :=
  match words with
  | [] => none
  | [word] =>
    (wordOperand word).or ((cfgKeywords [word] State.reset.cfg).map fun c => (cfgImage c).zeroExtend 32)
  | _ => (cfgKeywords words State.reset.cfg).map fun c => (cfgImage c).zeroExtend 32

/-- A mnemonic without an operand. -/
def plainMnemonic (word : Line) : Option Instr :=
  if word = ['N', 'O', 'P'] then some .nop
  else if word = ['B', 'E', 'G', 'I', 'N'] then some .beginOp
  else if word = ['S', 'R', 'S', 'T'] then some .srst
  else if word = ['E', 'O', 'F', 'I', 'L', 'E'] then some .eofile
  else if word = ['F', 'I', 'N', 'I', 'S', 'H'] then some .finish
  else if word = ['H', 'D', 'R', 'R', 'D'] then some .hdrrd
  else if word = ['D', 'S', 'T', 'E', 'P'] then some .dstep
  else none

/-- The command a line of words stands for. A word alone is a mnemonic without an operand, so a bare `SETCFG` is none
(DESIGN CHOICE, see `cfgOperand` and notes/assumptions/12.md). -/
def assembleWords (words : List Line) : Option Instr :=
  match words with
  | [] => none
  | [word] => plainMnemonic word
  | word :: operands =>
    if word = ['S', 'E', 'T', 'C', 'F', 'G'] then (cfgOperand operands).map .setcfg
    else
      match operands with
      | [operand] =>
        if word = ['S', 'E', 'T', 'K', 'E', 'Y'] then (wordOperand operand).map .setkey
        else if word = ['S', 'E', 'T', 'S', 'R', 'C', 'L', 'E', 'N'] then (wordOperand operand).map .setsrclen
        else if word = ['H', 'D', 'R', 'B'] then (byteOperand operand).map .hdrb
        else if word = ['S', 'Y', 'M'] then (byteOperand operand).map .sym
        else none
      | _ => none

/-- The command word of a line, `opc << 32 | opd` (30_encoding R72); `none` for a line that is no command. -/
def assemble (line : Line) : Option Cmd := (assembleWords (splitWords (stripComment line) [])).map encode

/-! ### Pseudo-instructions (30_encoding R73) -/

/-- The line feed that ends a header line (30_encoding R70). -/
def lineFeed : Byte := 0x0A

/-- `HDRLINE "text"`, on the UTF-8 bytes of the text. -/
def hdrLine (text : Str) : List Instr := text.map .hdrb ++ [.hdrb lineFeed]

/-- `HDREND`. -/
def hdrEnd : List Instr := [.hdrb lineFeed]

/-- `FILE "bytes"`. -/
def fileCommands (bytes : Str) : List Instr := bytes.map .sym ++ [.eofile]

/-- A command as a host move. -/
def commandMove (i : Instr) : HostMove := .command (encode i)

/-- The host's writes of `bytes` to SRC from `index` on. -/
def srcWrites : Nat → Str → List HostMove
  | _, [] => []
  | index, b :: rest => .writeSrc index b :: srcWrites (index + 1) rest

/-- `LOADSRC <b0 b1 …>`: the writes, then SETSRCLEN. -/
def loadSrc (bytes : Str) : List HostMove :=
  srcWrites 0 bytes ++ [commandMove (.setsrclen (BitVec.ofNat 32 bytes.length))]

/-- `DRUN`: DSTEP until PHASE is DONE or ERR, at most `rounds` times. -/
def drun : Nat → State → Host.Outcome State Fault Refusal
  | 0, s => .next s
  | rounds + 1, s =>
    if s.phase = .done ∨ s.phase = .err then .next s
    else
      match exec .dstep s with
      | .next t => drun rounds t
      | .fault r => .fault r
      | .refused r => .refused r

/-- The number of bits SRC yields (46_decompress R179). -/
def srcBits (s : State) : Nat :=
  match s.cfg.text with
  | .none => 8 * s.srcLen
  | .hex => 4 * (s.srcLen - s.srcLen % 2)
  | .base64 => 6 * s.srcLen

/-- The number of DSTEPs after which a decompress pass has ended (46_decompress R179). -/
def drunBound (s : State) : Nat := srcBits s / 9 + 1

/-- `HDRRDALL`: HDRRD until RESULT.VALID = 0 or the line feed that begins a line, at most `rounds` times; the bytes
collected, and the outcome. `lineStart` says that the next byte is the first of its line. -/
def hdrrdAll : Nat → Bool → State → Str × Host.Outcome State Fault Refusal
  | 0, _, s => ([], .next s)
  | rounds + 1, lineStart, s =>
    match exec .hdrrd s with
    | .next t =>
      if t.result.getLsbD 8 then
        if lineStart && t.result.setWidth 8 == lineFeed then ([lineFeed], .next t)
        else
          (t.result.setWidth 8 :: (hdrrdAll rounds (t.result.setWidth 8 == lineFeed) t).1,
            (hdrrdAll rounds (t.result.setWidth 8 == lineFeed) t).2)
      else ([], .next t)
    | .fault r => ([], .fault r)
    | .refused r => ([], .refused r)

end Sys2Proof.Machine
end

