-- ==== Sys2Proof/Safety.lean ====
section
/-!
DEFINITION. The terms in which claims speak of the machine: the phases a command is legal in (40_control R97), the
packed stream as written and as still to be read (20_memory R40), the next unit of the stream, room in the output
spaces, and the invariant of every reachable state (10_state R37). None of this is used by `step`.
-/

namespace Sys2Proof.Machine

/-! ### Phases (40_control R97) -/

/-- The column "legal in" of 40_control R97, ERR apart, where only SRST executes (40_control R90). -/
def legalPhases : Instr → List Phase
  | .nop => [.idle, .cHdr, .cBody, .dHdr, .dBody, .done]
  | .setcfg _ => [.idle, .done]
  | .setkey _ => [.idle, .done]
  | .setsrclen _ => [.idle, .done]
  | .beginOp => [.idle, .done]
  | .srst => [.idle, .cHdr, .cBody, .dHdr, .dBody, .done]
  | .hdrb _ => [.cHdr]
  | .sym _ => [.cHdr, .cBody]
  | .eofile => [.cHdr, .cBody]
  | .finish => [.cHdr, .cBody]
  | .hdrrd => [.dHdr]
  | .dstep => [.dHdr, .dBody]

/-- A compress pass is under way. -/
abbrev compressing (p : Phase) : Prop := p = .cHdr ∨ p = .cBody

/-- A decompress pass is under way. -/
abbrev decompressing (p : Phase) : Prop := p = .dHdr ∨ p = .dBody

/-! ### The packed stream on the write side (20_memory R40, 41_bitcodestream R110) -/

/-- How many bytes of SNK or SRC one group takes (20_memory R43). -/
def groupCost (c : Cfg) : Nat :=
  match c.text with
  | .none => 1
  | .hex => 2
  | .base64 => 1

/-- The bytes that stand for the group value `g` (30_encoding R67 to R69). -/
def groupText (text : TextMode) (g : Nat) : List Byte :=
  match text with
  | .none => [BitVec.ofNat 8 g]
  | .hex => [hexChar (g / 16 % 16), hexChar (g % 16)]
  | .base64 => [b64Char g]

/-- The values of the whole groups of `size` bits that a bit string holds, the first group first (20_memory R40). -/
def groupsIn (size : Nat) (bits : Bits) : List Nat :=
  (List.range (bits.length / size)).map fun k => valMSB ((bits.drop (size * k)).take size)

/-- The bytes that stand for the whole groups of a bit string. -/
def packText (c : Cfg) (bits : Bits) : List Byte := (groupsIn (groupSize c) bits).flatMap (groupText c.text)

/-- The bits after the whole groups. -/
def packRest (c : Cfg) (bits : Bits) : Bits := bits.drop (groupSize c * (bits.length / groupSize c))

/-- A store with values written at an index and the ones after it, in order. -/
def Store.writeAll {α : Type} : Store α → Nat → List α → Store α
  | m, _, [] => m
  | m, a, x :: rest => Store.writeAll (Store.write m a x) (a + 1) rest

/-- `s` with bytes appended to SNK. -/
def snkExtend (bytes : List Byte) (s : State) : State :=
  { s with snk := Store.writeAll (α := Byte) s.snk s.snkLen bytes, snkLen := s.snkLen + bytes.length }

/-- `s` with tokens appended to OUT. -/
def outExtend (tokens : List Token) (s : State) : State :=
  { s with out := Store.writeAll s.out s.outLen tokens, outLen := s.outLen + tokens.length }

/-- `s` after the bits of a unit went through WBUF: the whole groups are in SNK, the rest is in WBUF. -/
def pushBits (bits : Bits) (s : State) : State :=
  { snkExtend (packText s.cfg (s.wbuf ++ bits)) s with wbuf := packRest s.cfg (s.wbuf ++ bits) }

/-- `s` after SNK filled while the bits of a unit went through WBUF: E_OVF(0); SNK is full, and WBUF has lost the group
that did not fit and keeps what came after it (60_exceptions R192). -/
def pushOverflow (bits : Bits) (s : State) : State :=
  raise .ovf 0
    { snkExtend ((packText s.cfg (s.wbuf ++ bits)).take (s.params.snkCap.toNat - s.snkLen)) s with
      wbuf := (s.wbuf ++ bits).drop (groupSize s.cfg * ((s.params.snkCap.toNat - s.snkLen) / groupCost s.cfg + 1)) }

/-- The SNK bytes that a unit of `n` bits appends. -/
def unitCost (n : Nat) (s : State) : Nat := groupCost s.cfg * ((s.wbuf.length + n) / groupSize s.cfg)

/-- The zero bits that complete WBUF to a whole group (41_bitcodestream R111). -/
def padding (c : Cfg) (bits : Bits) : Bits :=
  List.replicate ((groupSize c - bits.length % groupSize c) % groupSize c) false

/-- The bytes of SNK below SNK_LEN, in order. -/
def snkBytes (s : State) : List Byte := (List.range s.snkLen).map fun i => (Store.read (α := Byte) s.snk i).getD 0

/-! ### The packed stream as bits (20_memory R40) -/

/-- The stream bits that one SNK or SRC byte stands for: 8 in mode none, 4 in mode hex, 6 in mode base64. -/
def symbolBits (text : TextMode) (b : Byte) : Bits :=
  match text with
  | .none => bitsMSB b.toNat 8
  | .hex => bitsMSB ((hexVal b).getD 0) 4
  | .base64 => bitsMSB ((b64Val b).getD 0) 6

/-- The byte is a symbol of the text mode's alphabet; every byte is one in mode none. -/
def symbolLegal (text : TextMode) (b : Byte) : Bool :=
  match text with
  | .none => true
  | .hex => (hexVal b).isSome
  | .base64 => (b64Val b).isSome

/-- The stream bits that have reached SNK. -/
def snkBits (s : State) : Bits := (snkBytes s).flatMap (symbolBits s.cfg.text)

/-- The packed stream written so far: the bits in SNK and those still in WBUF. -/
def written (s : State) : Bits := snkBits s ++ s.wbuf

/-! ### The packed stream on the read side (41_bitcodestream R112, 42_texttranscoder R121) -/

/-- How many SRC bytes from SRC_POS on make up whole groups; a single last hex character makes none. -/
def srcAvail (s : State) : Nat :=
  match s.cfg.text with
  | .none => s.srcLen - s.srcPos
  | .hex => (s.srcLen - s.srcPos) / 2 * 2
  | .base64 => s.srcLen - s.srcPos

/-- The stream bits still to come from SRC. -/
def srcAhead (s : State) : Bits :=
  (List.range (srcAvail s)).flatMap fun i => symbolBits s.cfg.text (srcByte (s.srcPos + i) s)

/-- The packed stream not read yet: the bits in RBUF and those still in SRC. -/
def unread (s : State) : Bits := s.rbuf ++ srcAhead s

/-- The stream bits in the whole groups before the SRC byte at offset `i` from SRC_POS. -/
def bitsBefore (text : TextMode) (i : Nat) : Nat :=
  match text with
  | .none => 8 * i
  | .hex => 8 * (i / 2)
  | .base64 => 6 * i

/-- A read of `n` bits takes the SRC byte at offset `i` from SRC_POS. -/
abbrev reaches (n i : Nat) (s : State) : Prop := i < srcAvail s ∧ s.rbuf.length + bitsBefore s.cfg.text i < n

/-- Every SRC byte that a read of `n` bits takes is a symbol of the text mode. -/
def readable (n : Nat) (s : State) : Prop :=
  ∀ i, reaches n i s → symbolLegal s.cfg.text (srcByte (s.srcPos + i) s) = true

/-- The SRC byte at offset `i` is the first that a read of `n` bits takes and that is no symbol of the text mode. -/
def firstBad (n i : Nat) (s : State) : Prop :=
  reaches n i s ∧ symbolLegal s.cfg.text (srcByte (s.srcPos + i) s) = false ∧
    ∀ j < i, symbolLegal s.cfg.text (srcByte (s.srcPos + j) s) = true

/-- Every SRC byte still to come is a symbol of the text mode. -/
abbrev srcLegal (s : State) : Prop := ∀ i < srcAvail s, symbolLegal s.cfg.text (srcByte (s.srcPos + i) s) = true

/-- How many groups a read of `n` bits fetches when there are enough. -/
def groupsNeeded (n : Nat) (s : State) : Nat := (n - s.rbuf.length + (groupSize s.cfg - 1)) / groupSize s.cfg

/-- `s` after a read of `n` bits that succeeded: the groups needed are fetched, the bits are taken off the front. -/
def pullBits (n : Nat) (s : State) : State :=
  { s with
    srcPos := s.srcPos + groupCost s.cfg * groupsNeeded n s
    rbuf := ((unread s).take (s.rbuf.length + groupSize s.cfg * groupsNeeded n s)).drop n }

/-- `s` after a read that met END: everything is fetched, nothing is delivered, EOS is set (41_bitcodestream R112). -/
def pullEnd (s : State) : State := { s with srcPos := s.srcPos + srcAvail s, rbuf := unread s, eos := true }

/-- `s` after a read that met an illegal symbol at offset `i`: E_BADSYM with the byte's index, where SRC_POS stands;
the groups before it are in RBUF (42_texttranscoder R121, 60_exceptions R192). -/
def pullBad (i : Nat) (s : State) : State :=
  raise .badsym (BitVec.ofNat 32 (s.srcPos + i))
    { s with srcPos := s.srcPos + i, rbuf := (unread s).take (s.rbuf.length + bitsBefore s.cfg.text i) }

/-! ### The cipher, as a function of the state (43_streamcipher R133 to R136) -/

/-- The raw value of the next draw. -/
def nextRaw (s : State) : Nat := (prngNext s.params s.prng).1.toNat

/-- The generator state after one draw. -/
def afterDraw (s : State) : Nat := (prngNext s.params s.prng).2

/-- The generator state after one code has been written or read. -/
def prngAfterCode (s : State) : Nat := if s.cfg.ciph then afterDraw s else s.prng

/-- The value that goes into the stream for the code `c` (43_streamcipher R133). -/
def storedCode (c w : Nat) (s : State) : Nat := if s.cfg.ciph then addMod c (nextRaw s) (2 ^ w) else c

/-- A header byte that the cipher permutes (43_streamcipher R135). -/
def hdrDraws (b : Nat) (s : State) : Bool := s.cfg.ciph && inHdrRange s.params.hdr b

/-- The value that goes into the stream for the header byte `b` (43_streamcipher R135). -/
def storedHdr (b : Byte) (s : State) : Nat :=
  if hdrDraws b.toNat s then hdrEncipher s.params.hdr b.toNat (nextRaw s) else b.toNat

/-- The generator state after a header byte whose value is `b`, before the cipher or after it: the range is the same. -/
def prngAfterHdr (b : Nat) (s : State) : Nat := if hdrDraws b s then afterDraw s else s.prng

/-- The value of the next `n` stream bits, `none` when there are fewer. -/
def bitsAhead (n : Nat) (s : State) : Option Nat :=
  if n ≤ (unread s).length then some (valMSB ((unread s).take n)) else none

/-- The next code of the stream, deciphered; `none` is END (43_streamcipher R134). -/
def codeAhead (s : State) : Option Nat :=
  (bitsAhead s.w s).map fun v => if s.cfg.ciph then subMod v (nextRaw s) (2 ^ s.w) else v

/-- The next header byte of the stream, deciphered; `none` is END (43_streamcipher R136). -/
def hdrAhead (s : State) : Option Byte :=
  (bitsAhead 8 s).map fun v =>
    BitVec.ofNat 8 (if hdrDraws v s then hdrDecipher s.params.hdr v (nextRaw s) else v)

/-- The generator state after the next header byte has been read. -/
def prngAfterHdrAhead (s : State) : Nat :=
  match bitsAhead 8 s with
  | some v => prngAfterHdr v s
  | none => s.prng

/-- `s` after the code `c` went out at width `w` (43_streamcipher R133). -/
def codeWritten (c w : Nat) (s : State) : State :=
  pushBits (bitsMSB (storedCode c w s) w) { s with prng := prngAfterCode s }

/-- `s` after SNK filled while the code `c` went out at width `w`. -/
def codeOverflow (c w : Nat) (s : State) : State :=
  pushOverflow (bitsMSB (storedCode c w s) w) { s with prng := prngAfterCode s }

/-- `s` after the header byte `b` went out (43_streamcipher R135). -/
def hdrWritten (b : Byte) (s : State) : State :=
  pushBits (bitsMSB (storedHdr b s) 8) { s with prng := prngAfterHdr b.toNat s }

/-- `s` after SNK filled while the header byte `b` went out. -/
def hdrOverflow (b : Byte) (s : State) : State :=
  pushOverflow (bitsMSB (storedHdr b s) 8) { s with prng := prngAfterHdr b.toNat s }

/-- `s` after a code has been read at width W (43_streamcipher R134). -/
def codeRead (s : State) : State := { pullBits s.w s with prng := prngAfterCode s }

/-- `s` after a header byte has been read (43_streamcipher R136). -/
def hdrRead (s : State) : State := { pullBits 8 s with prng := prngAfterHdrAhead s }

/-! ### Room in the output spaces -/

/-- SNK has room for `k` more bytes. -/
abbrev snkRoom (k : Nat) (s : State) : Prop := s.snkLen + k ≤ s.params.snkCap.toNat

/-- OUT has room for `k` more tokens. -/
abbrev outRoom (k : Nat) (s : State) : Prop := s.outLen + k ≤ s.params.outCap.toNat

/-- The tokens of OUT below OUT_LEN, in order. -/
def outTokens (s : State) : List Token := (List.range s.outLen).map fun i => (Store.read s.out i).getD 0

/-- `s` after OUT filled while tokens were appended: E_OVF(1), OUT is full (60_exceptions R192). -/
def outOverflow (tokens : List Token) (s : State) : State :=
  raise .ovf 1 (outExtend (tokens.take (s.params.outCap.toNat - s.outLen)) s)

/-- The tokens of a string, one for each byte (46_decompress R177). -/
def tokensOf (str : Str) : List Token := str.map byteToken

/-! ### The faults of the acceptance sequence, and the reset table -/

/-- E_ILLCMD for a word with the opcode `op` that matches no row (40_control R90 step 2). -/
def illcmdFault (op : Byte) : Prop :=
  ∀ (cmd : Cmd) (s : State), opcOf cmd = op → (∀ i, decode cmd ≠ .ok i) → s.phase ≠ .err →
    acceptWord cmd s = .next { s with err := 3, errinfo := op.zeroExtend 32, phase := .err }

/-- E_SEQ for the command with the opcode `op` outside its legal phases (40_control R90 step 3). -/
def seqFault (op : Byte) (legal : List Phase) : Prop :=
  ∀ (i : Instr) (s : State), i.opc = op → s.phase ≠ .err → s.phase ∉ legal →
    exec i s = .next { s with err := 2, errinfo := op.zeroExtend 32, phase := .err }

/-- The baseline dictionary: `DICT[c] = [c]` for c in 0..255, no other entry (10_state R38). -/
def baseline (s : State) : Prop := ∀ c, dictRead c s = if c < 256 then some [BitVec.ofNat 8 c] else none

/-- Every element that the table of 10_state R38 gives a value. -/
structure ResetTable (t : State) : Prop where
  phase : t.phase = .idle
  cfg : (cfgImage t.cfg).zeroExtend 32 = (0x00000C00 : Word)
  key : t.key = 0
  srcLen : t.srcLen = 0
  w : t.w = 12
  dsize : t.dsize = 256
  dict : baseline t
  cand : t.cand = []
  dstate : t.dstate = .prime
  cur : t.cur = 0
  wbuf : t.wbuf = []
  rbuf : t.rbuf = []
  prng : t.prng = prngSeed t.params 0
  eos : t.eos = false
  srcPos : t.srcPos = 0
  snkLen : t.snkLen = 0
  outLen : t.outLen = 0
  result : t.result = 0
  err : t.err = 0
  errinfo : t.errinfo = 0

/-! ### Sequences of units and of commands -/

/-- A unit of the packed stream: a header byte, or a code at a width (30_encoding R70). -/
inductive StreamUnit where
  | hdr (b : Byte)
  | code (c w : Nat)
  deriving DecidableEq, Repr

/-- The unit is one that the chain accepts: a code fits its width, which the engine's calls keep in 8..16
(41_bitcodestream R110). -/
def StreamUnit.legal : StreamUnit → Prop
  | .hdr _ => True
  | .code c w => c < 2 ^ w ∧ 8 ≤ w ∧ w ≤ 16

/-- Write units through the chain, in order (43_streamcipher R133, R135). -/
def writeUnits : List StreamUnit → State → Res Unit
  | [], s => .done () s
  | .hdr b :: rest, s => (wrHdr b s).bind fun _ s => writeUnits rest s
  | .code c w :: rest, s => (wrCode c w s).bind fun _ s => writeUnits rest s

/-- Read units of the given kinds and widths through the chain, in order; `none` when END comes first
(43_streamcipher R134, R136). -/
def readUnits : List StreamUnit → State → Res (Option (List StreamUnit))
  | [], s => .done (some []) s
  | .hdr _ :: rest, s =>
    (rdHdr s).bind fun b s =>
      match b with
      | none => .done none s
      | some b => (readUnits rest s).bind fun us s => .done (us.map (.hdr b :: ·)) s
  | .code _ w :: rest, s =>
    (rdCode w s).bind fun c s =>
      match c with
      | none => .done none s
      | some c => (readUnits rest s).bind fun us s => .done (us.map (.code c w :: ·)) s

/-- Execute commands one after another (20_memory R47). -/
def runCommands : List Instr → State → Host.Outcome State Fault Refusal
  | [], s => .next s
  | i :: rest, s =>
    match exec i s with
    | .next t => runCommands rest t
    | .fault r => .fault r
    | .refused r => .refused r

/-- The commands of a compress pass: BEGIN, the header, the files, FINISH (46_decompress R178). -/
def compressPass (header : Str) (files : List Str) : List Instr :=
  .beginOp :: (header.map .hdrb ++ files.flatMap fileCommands ++ [.finish])

/-- The results of HDRRD issued once for each element of a list, and the state after them; `none` when the model stops. -/
def hdrrdEach : List Byte → State → Option (List (BitVec 9) × State)
  | [], s => some ([], s)
  | _ :: rest, s =>
    match exec .hdrrd s with
    | .next t => (hdrrdEach rest t).map fun r => (t.result :: r.1, r.2)
    | _ => none

/-- The tokens that stand for files in order: each one's bytes and a boundary (10_state R35). -/
def fileTokens (files : List Str) : List Token := files.flatMap fun f => tokensOf f ++ [boundaryToken]

/-! ### The invariant (10_state R37, 44_dictionary R152, R153) -/

/-- The part of the invariant that holds in every phase, ERR included, and at every point inside a command. -/
structure BaseInv (s : State) : Prop where
  /-- FIXW is legal (10_state R20). -/
  fixw : 9 ≤ s.cfg.fixw.toNat ∧ s.cfg.fixw.toNat ≤ 16
  /-- `9 ≤ W ≤ 16` (10_state R11). -/
  width : 9 ≤ s.w ∧ s.w ≤ 16
  /-- `256 ≤ DSIZE ≤ 2^W − 1` (10_state R37 item 2, 44_dictionary R153). -/
  dsize : 256 ≤ s.dsize ∧ s.dsize ≤ 2 ^ s.w - 1
  /-- The phrases are exactly the codes from 256 below DSIZE (10_state R12). -/
  dictDom : ∀ c, (Store.read s.dict c).isSome = true ↔ 256 ≤ c ∧ c < s.dsize
  /-- Every phrase is an earlier entry and one byte more (10_state R37 item 3, 44_dictionary R152 b). -/
  dictPhrase : ∀ c e, Store.read s.dict c = some e →
    ∃ p pre b, p < c ∧ dictRead p s = some pre ∧ pre ≠ [] ∧ e = pre ++ [b]
  /-- DSTATE = RUN implies `CUR < DSIZE` (10_state R37 item 6). -/
  curDefined : s.dstate = .run → s.cur < s.dsize
  /-- CUR is 0 in PRIME (10_state R14). -/
  curPrime : s.dstate = .prime → s.cur = 0
  /-- SRC_LEN is at most SRC_CAP (10_state R22). -/
  srcLen : s.srcLen ≤ s.params.srcCap.toNat
  /-- SRC_POS is at most SRC_CAP (10_state R10, R27). -/
  srcPosCap : s.srcPos ≤ s.params.srcCap.toNat
  /-- SRC has no element at SRC_CAP or above (10_state R10). -/
  srcDom : ∀ i, (Store.read (α := Byte) s.src i).isSome = true → i < s.params.srcCap.toNat
  /-- SNK_LEN is at most SNK_CAP (10_state R28). -/
  snkLen : s.snkLen ≤ s.params.snkCap.toNat
  /-- SNK holds exactly the elements below SNK_LEN (10_state R34). -/
  snkDom : ∀ i, (Store.read (α := Byte) s.snk i).isSome = true ↔ i < s.snkLen
  /-- OUT_LEN is at most OUT_CAP (10_state R28). -/
  outLen : s.outLen ≤ s.params.outCap.toNat
  /-- OUT holds exactly the elements below OUT_LEN (10_state R35). -/
  outDom : ∀ i, (Store.read s.out i).isSome = true ↔ i < s.outLen
  /-- No token is above `0x100` (30_encoding R71). -/
  outToken : ∀ i t, Store.read s.out i = some t → t.toNat ≤ 0x100
  /-- The four spaces are in canonical form. -/
  memory : Memory.wf s = true
  /-- RESULT with VALID = 0 is 0 (10_state R29). -/
  result : s.result.getLsbD 8 = false → s.result = 0
  /-- The state of LCG32 is a 32-bit value (43_streamcipher R131). -/
  prng : s.params.prng = .lcg32 → s.prng < 2 ^ 32

/-- What holds in every state a run from reset reaches. The width and buffer items of 10_state R37 are stated for the
phases in which the rules keep them (notes/assumptions/9.md). -/
structure Inv (s : State) : Prop extends BaseInv s where
  /-- `Wmin ≤ W ≤ Wmax` in a pass (10_state R37 item 1). -/
  widthActive : compressing s.phase ∨ decompressing s.phase → wmin s.cfg ≤ s.w ∧ s.w ≤ wmax s.cfg
  /-- A compress pass has DIR = 0 (40_control R95). -/
  dirCompress : compressing s.phase → s.cfg.dir = .compress
  /-- A decompress pass has DIR = 1 (40_control R95). -/
  dirDecompress : decompressing s.phase → s.cfg.dir = .decompress
  /-- In a compress pass with no candidate `DSIZE ≤ 2^W − 2` (10_state R37 item 2). -/
  dsizeOpen : compressing s.phase → s.cand = [] → s.dsize ≤ 2 ^ s.w - 2
  /-- In a decompress pass `DSIZE ≤ 2^W − 2` (10_state R37 item 2). -/
  dsizeDecode : decompressing s.phase → s.dsize ≤ 2 ^ s.w - 2
  /-- In a compress pass no two codes hold the same string (10_state R37 item 4, 44_dictionary R152 c). -/
  dictInj : compressing s.phase → ∀ c d e, dictRead c s = some e → dictRead d s = some e → c = d
  /-- S is empty or a key (10_state R37 item 5). -/
  candKey : compressing s.phase → s.cand = [] ∨ (codeOf s.cand s).isSome = true
  /-- S is empty outside a compress pass (10_state R13). -/
  candUnused : ¬ compressing s.phase → s.phase ≠ .err → s.cand = []
  /-- The decoder holds no CURRENT code in a compress pass (10_state R14). -/
  decoderIdle : compressing s.phase → s.dstate = .prime
  /-- `|WBUF| < G` in a compress pass (10_state R37 item 7). -/
  wbufShort : compressing s.phase → s.wbuf.length < groupSize s.cfg
  /-- WBUF is empty outside a compress pass (20_memory R48). -/
  wbufUnused : ¬ compressing s.phase → s.phase ≠ .err → s.wbuf = []
  /-- `|RBUF| < G` in a decompress pass unless EOS = 1 (10_state R37 item 7). -/
  rbufShort : decompressing s.phase → s.eos = false → s.rbuf.length < groupSize s.cfg
  /-- RBUF is empty outside a decompress pass unless EOS = 1. -/
  rbufUnused : ¬ decompressing s.phase → s.phase ≠ .err → s.eos = false → s.rbuf = []
  /-- EOS is 0 in IDLE and in a compress pass (10_state R19). -/
  eosUnused : s.phase = .idle ∨ compressing s.phase → s.eos = false
  /-- `SRC_POS ≤ SRC_LEN` in a decompress pass (10_state R10). -/
  srcPos : decompressing s.phase → s.srcPos ≤ s.srcLen
  /-- `ERR ≠ 0` if and only if `PHASE = ERR` (10_state R24). -/
  errPhase : s.phase = .err ↔ s.err ≠ 0
  /-- ERR holds a cause code of the table (60_exceptions R190). -/
  errCode : s.err.toNat ≤ 6
  /-- ERRINFO is 0 when ERR = 0 (10_state R25). -/
  errInfo : s.err = 0 → s.errinfo = 0

end Sys2Proof.Machine
end

