-- ==== Sys2Proof/Certificates/Slice0/Obligations.lean ====
section
/-!
DEFINITION. The statements for the provers. Each docstring names the rule of spec/ it states, or says what it rests on.
-/

section Statements

open Sys2Proof Sys2Proof.Machine

/-! ### Encoding (30_encoding) -/

/-- R60 to R62: the word of a well-formed command decodes to that command, at every operand value. -/
def Obligations.DecodeEncode : Prop :=
  ∀ i : Instr, i.wf = true → decode (encode i) = .ok i

/-- R60 to R63: a word that decodes is the word of the command it decodes to, which is well formed: no bit is dropped. -/
def Obligations.EncodeDecode : Prop :=
  ∀ (cmd : Cmd) (i : Instr), decode cmd = .ok i → i.wf = true ∧ encode i = cmd

/-- R62: the twelve rows; a word decodes to a command iff it selects a row, the row of that command; no word selects
two rows. -/
def Obligations.OpcodeTable : Prop :=
  opcodeRows =
      [(0xFFFFFFFFFF, 0x0000000000), (0xFFFFFFE0E0, 0x0100000000), (0xFF00000000, 0x0200000000),
       (0xFF00000000, 0x0300000000), (0xFFFFFFFFFF, 0x0400000000), (0xFFFFFFFFFF, 0x0500000000),
       (0xFFFFFFFF00, 0x1000000000), (0xFFFFFFFF00, 0x1100000000), (0xFFFFFFFFFF, 0x1200000000),
       (0xFFFFFFFFFF, 0x1300000000), (0xFFFFFFFFFF, 0x2000000000), (0xFFFFFFFFFF, 0x2100000000)] ∧
  (∀ i : Instr, i.row ∈ opcodeRows) ∧
  (∀ cmd : Cmd, (∃ i, decode cmd = .ok i) ↔ ∃ r ∈ opcodeRows, selects cmd r) ∧
  (∀ (cmd : Cmd) (i : Instr), decode cmd = .ok i → selects cmd i.row) ∧
  (∀ (cmd : Cmd), ∀ r ∈ opcodeRows, ∀ r' ∈ opcodeRows, selects cmd r → selects cmd r' → r = r')

/-- R60, R62, R72 and the worked words of the spec: words written out from the encoding decode to their commands. -/
def Obligations.SpecWords : Prop :=
  decode 0x0000000000 = .ok .nop ∧ decode 0x0100000C16 = .ok (.setcfg 0x00000C16) ∧
  decode 0x0200C0FFEE = .ok (.setkey 0x00C0FFEE) ∧ decode 0x0300000010 = .ok (.setsrclen 16) ∧
  decode 0x0400000000 = .ok .beginOp ∧ decode 0x0500000000 = .ok .srst ∧ decode 0x100000000A = .ok (.hdrb 0x0A) ∧
  decode 0x1100000041 = .ok (.sym 0x41) ∧ decode 0x1200000000 = .ok .eofile ∧ decode 0x1300000000 = .ok .finish ∧
  decode 0x2000000000 = .ok .hdrrd ∧ decode 0x2100000000 = .ok .dstep ∧
  decode 0x7700000000 = .error (.unknownOpcode 0x77) ∧ decode 0x1100000141 = .error (.reservedBits 0x11)

/-- R63: which words are illegal, that one raises E_ILLCMD with its opcode or is discarded in ERR, and the operand
values that match their rows and raise E_CFG instead. -/
def Obligations.IllegalWords : Prop :=
  (∀ cmd : Cmd, (∀ i, decode cmd ≠ .ok i) ↔
    ((opcOf cmd).toNat ∉ [0, 1, 2, 3, 4, 5, 0x10, 0x11, 0x12, 0x13, 0x20, 0x21] ∨
      ((opcOf cmd).toNat ∈ [0, 4, 5, 0x12, 0x13, 0x20, 0x21] ∧ opdOf cmd ≠ 0) ∨
      ((opcOf cmd).toNat ∈ [0x10, 0x11] ∧ (opdOf cmd).extractLsb' 8 24 ≠ 0) ∨
      ((opcOf cmd).toNat = 1 ∧ ((opdOf cmd).extractLsb' 13 19 ≠ 0 ∨ (opdOf cmd).extractLsb' 5 3 ≠ 0)))) ∧
  (∀ (cmd : Cmd) (s : State), (∀ i, decode cmd ≠ .ok i) → s.phase ≠ .err →
    acceptWord cmd s = .next { s with err := 3, errinfo := (opcOf cmd).zeroExtend 32, phase := .err }) ∧
  (∀ (cmd : Cmd) (s : State), (∀ i, decode cmd ≠ .ok i) → s.phase = .err → acceptWord cmd s = .next s) ∧
  (∀ (opd : Word) (s : State), s.phase = .idle ∨ s.phase = .done → (Instr.setcfg opd).wf = true →
    (opd.extractLsb' 2 2).toNat = 3 ∨ (opd.extractLsb' 8 5).toNat < 9 ∨ 16 < (opd.extractLsb' 8 5).toNat →
    acceptWord (encode (.setcfg opd)) s = .next { s with err := 1, errinfo := opd, phase := .err }) ∧
  (∀ (opd : Word) (s : State), s.phase = .idle ∨ s.phase = .done → s.params.srcCap.toNat < opd.toNat →
    acceptWord (encode (.setsrclen opd)) s = .next { s with err := 1, errinfo := opd, phase := .err })

/-! ### Acceptance, the step, the host (40_control R90, 20_memory R52) -/

/-- R90: the acceptance sequence of a command word, in its order. -/
def Obligations.AcceptanceSequence : Prop :=
  ∀ (cmd : Cmd) (s : State),
    (s.phase = .err → decode cmd = .ok .srst → acceptWord cmd s = exec .srst s) ∧
    (s.phase = .err → decode cmd ≠ .ok .srst → acceptWord cmd s = .next s) ∧
    (s.phase ≠ .err → (∀ i, decode cmd ≠ .ok i) →
      acceptWord cmd s = .next { s with err := 3, errinfo := (opcOf cmd).zeroExtend 32, phase := .err }) ∧
    (s.phase ≠ .err → ∀ i, decode cmd = .ok i → s.phase ∉ legalPhases i →
      acceptWord cmd s = .next { s with err := 2, errinfo := (opcOf cmd).zeroExtend 32, phase := .err }) ∧
    (s.phase ≠ .err → ∀ i, decode cmd = .ok i → s.phase ∈ legalPhases i → acceptWord cmd s = exec i s)

/-- R47, R50, R90: a step takes the next move off the host's list, and a command word that decodes runs as that command;
so does the word that `withFetchWord` presents. The list of moves is the model's (notes/assumptions/1.md). -/
def Obligations.StepRunsCommand : Prop :=
  (∀ (cmd : Cmd) (i : Instr) (rest : List HostMove) (s : State), s.port = .command cmd :: rest → i.wf = true →
    decode cmd = .ok i → step s = exec i { s with port := rest }) ∧
  (∀ (w : Nat) (i : Instr) (s : State), w < 2 ^ 40 → decode (BitVec.ofNat 40 w) = .ok i →
    step (s.withFetchWord 40 w) = exec i s)

/-- R33, R38, R52: the host's other moves. Holding the state without a move, and the stops of an illegal SRC write, are
the model's (notes/assumptions/1.md, 7.md, 8.md). -/
def Obligations.StepServesHost : Prop :=
  (∀ s : State, s.port = [] → step s = .next s) ∧
  (∀ (a : Nat) (b : Byte) (rest : List HostMove) (s : State), s.port = .writeSrc a b :: rest →
    s.phase = .idle ∨ s.phase = .done → a < s.params.srcCap.toNat →
    ∃ t, step s = .next t ∧ t = { s with port := rest, src := t.src } ∧
      ∀ c, srcByte c t = if c = a then b else srcByte c s) ∧
  (∀ (a : Nat) (b : Byte) (rest : List HostMove) (s : State), s.port = .writeSrc a b :: rest →
    s.phase ≠ .idle → s.phase ≠ .done → step s = .fault .srcWriteInPass) ∧
  (∀ (a : Nat) (b : Byte) (rest : List HostMove) (s : State), s.port = .writeSrc a b :: rest →
    s.phase = .idle ∨ s.phase = .done → s.params.srcCap.toNat ≤ a → step s = .fault .srcIndexAbsent) ∧
  (∀ (rest : List HostMove) (s : State), s.port = .hardReset :: rest →
    ∃ t, step s = .next t ∧ ResetTable t ∧ t.port = rest ∧ t.params = s.params)

/-! ### The control commands (40_control) -/

/-- R91: NOP. -/
def Obligations.NopRule : Prop :=
  encode .nop = 0x0000000000 ∧ (∀ s : State, exec .nop s = .next s) ∧
  illcmdFault 0x00

/-- R92: SETCFG. -/
def Obligations.SetcfgRule : Prop :=
  (∀ (opd : Word) (s : State), s.phase = .idle ∨ s.phase = .done → (Instr.setcfg opd).wf = true →
    (opd.extractLsb' 2 2).toNat ≠ 3 → 9 ≤ (opd.extractLsb' 8 5).toNat → (opd.extractLsb' 8 5).toNat ≤ 16 →
    ∃ c : Cfg, exec (.setcfg opd) s = .next { s with cfg := c } ∧ (cfgImage c).zeroExtend 32 = opd) ∧
  (∀ (opd : Word) (s : State), s.phase = .idle ∨ s.phase = .done →
    (opd.extractLsb' 2 2).toNat = 3 ∨ (opd.extractLsb' 8 5).toNat < 9 ∨ 16 < (opd.extractLsb' 8 5).toNat →
    exec (.setcfg opd) s = .next { s with err := 1, errinfo := opd, phase := .err }) ∧
  illcmdFault 0x01 ∧ seqFault 0x01 [.idle, .done]

/-- R93: SETKEY. -/
def Obligations.SetkeyRule : Prop :=
  (∀ (k : Word) (s : State), s.phase = .idle ∨ s.phase = .done → exec (.setkey k) s = .next { s with key := k }) ∧
  seqFault 0x02 [.idle, .done]

/-- R94: SETSRCLEN. -/
def Obligations.SetsrclenRule : Prop :=
  (∀ (n : Word) (s : State), s.phase = .idle ∨ s.phase = .done → n.toNat ≤ s.params.srcCap.toNat →
    exec (.setsrclen n) s = .next { s with srcLen := n.toNat }) ∧
  (∀ (n : Word) (s : State), s.phase = .idle ∨ s.phase = .done → s.params.srcCap.toNat < n.toNat →
    exec (.setsrclen n) s = .next { s with err := 1, errinfo := n, phase := .err }) ∧
  seqFault 0x03 [.idle, .done]

/-- R95: BEGIN. -/
def Obligations.BeginRule : Prop :=
  encode .beginOp = 0x0400000000 ∧
  (∀ s : State, s.phase = .idle ∨ s.phase = .done →
    ∃ t, exec .beginOp s = .next t ∧ t.prng = prngSeed s.params s.key ∧
      t.w = (if s.cfg.var then 9 else s.cfg.fixw.toNat) ∧ t.dsize = 256 ∧ baseline t ∧ t.cand = [] ∧
      t.dstate = .prime ∧ t.cur = 0 ∧ t.wbuf = [] ∧ t.rbuf = [] ∧ t.eos = false ∧ t.srcPos = 0 ∧ t.snkLen = 0 ∧
      t.outLen = 0 ∧ t.result = 0 ∧ t.phase = (if s.cfg.dir = .compress then .cHdr else .dHdr) ∧
      t = { s with prng := t.prng, w := t.w, dsize := t.dsize, dict := t.dict, cand := t.cand, dstate := t.dstate,
                   cur := t.cur, wbuf := t.wbuf, rbuf := t.rbuf, eos := t.eos, srcPos := t.srcPos,
                   snkLen := t.snkLen, outLen := t.outLen, result := t.result, phase := t.phase, snk := t.snk,
                   out := t.out }) ∧
  illcmdFault 0x04 ∧ seqFault 0x04 [.idle, .done]

/-- R96: SRST, from every phase; in ERR a malformed SRST word is discarded. -/
def Obligations.SrstRule : Prop :=
  encode .srst = 0x0500000000 ∧
  (∀ s : State, ∃ t, exec .srst s = .next t ∧ ResetTable t ∧ t.src = s.src ∧ t.srcEpoch = s.srcEpoch ∧
    t.params = s.params) ∧
  illcmdFault 0x05 ∧
  (∀ (cmd : Cmd) (s : State), opcOf cmd = 0x05 → opdOf cmd ≠ 0 → s.phase = .err → acceptWord cmd s = .next s)

/-- R97: for each command the phase after it; a command that does not fault was legal in its phase. -/
def Obligations.PhaseTransitions : Prop :=
  ∀ (i : Instr) (s t : State), s.phase ≠ .err → exec i s = .next t →
    (t.phase = .err ∧ t.err ≠ 0) ∨
    (s.phase ∈ legalPhases i ∧ (i ≠ .srst → t.err = s.err ∧ t.errinfo = s.errinfo) ∧
      match i with
      | .nop => t.phase = s.phase
      | .setcfg _ => t.phase = s.phase
      | .setkey _ => t.phase = s.phase
      | .setsrclen _ => t.phase = s.phase
      | .beginOp => t.phase = if s.cfg.dir = .compress then .cHdr else .dHdr
      | .srst => t.phase = .idle
      | .hdrb _ => t.phase = .cHdr
      | .sym _ => t.phase = .cBody
      | .eofile => t.phase = .cBody
      | .finish => t.phase = .done ∧ s.cand = []
      | .hdrrd => t.phase = .dHdr
      | .dstep => t.phase = .dBody ∨ (t.phase = .done ∧ t.eos = true))

/-! ### The compress commands (45_compress) -/

/-- R160: HDRB. -/
def Obligations.HdrbRule : Prop :=
  (∀ b : Byte, opcOf (encode (.hdrb b)) = 0x10 ∧ opdOf (encode (.hdrb b)) = b.zeroExtend 32) ∧
  (∀ (b : Byte) (s : State), s.phase = .cHdr → snkRoom (unitCost 8 s) s →
    exec (.hdrb b) s = .next (hdrWritten b s)) ∧
  (∀ (b : Byte) (s : State), s.phase = .cHdr → s.snkLen ≤ s.params.snkCap.toNat → ¬ snkRoom (unitCost 8 s) s →
    exec (.hdrb b) s = .next (hdrOverflow b s)) ∧
  illcmdFault 0x10 ∧ seqFault 0x10 [.cHdr]

/-- R161: SYM: the seed, the hit, the miss with room in SNK, the miss that fills SNK. -/
def Obligations.SymRule : Prop :=
  (∀ (c : Byte) (s : State), s.phase = .cHdr ∨ s.phase = .cBody → s.cand = [] →
    exec (.sym c) s = .next { s with phase := .cBody, cand := [c] }) ∧
  (∀ (c : Byte) (s : State) (k : Nat), s.phase = .cHdr ∨ s.phase = .cBody → s.cand ≠ [] →
    codeOf (s.cand ++ [c]) s = some k →
    exec (.sym c) s = .next { s with phase := .cBody, cand := s.cand ++ [c] }) ∧
  (∀ (c : Byte) (s : State) (p : Nat), s.phase = .cHdr ∨ s.phase = .cBody → s.cand ≠ [] →
    codeOf (s.cand ++ [c]) s = none → codeOf s.cand s = some p → snkRoom (unitCost s.w s) s →
    exec (.sym c) s =
      .next { encPolicy (some (s.cand ++ [c])) (codeWritten p s.w { s with phase := .cBody }) with cand := [c] }) ∧
  (∀ (c : Byte) (s : State) (p : Nat), s.phase = .cHdr ∨ s.phase = .cBody → s.cand ≠ [] →
    codeOf (s.cand ++ [c]) s = none → codeOf s.cand s = some p → s.snkLen ≤ s.params.snkCap.toNat →
    ¬ snkRoom (unitCost s.w s) s → exec (.sym c) s = .next (codeOverflow p s.w { s with phase := .cBody })) ∧
  illcmdFault 0x11 ∧ seqFault 0x11 [.cHdr, .cBody]

/-- R162: EOFILE: the sentinel alone for an empty file; else the last code, the policy with nothing to insert, and the
sentinel of the width then in force. -/
def Obligations.EofileRule : Prop :=
  encode .eofile = 0x1200000000 ∧
  (∀ s : State, s.phase = .cHdr ∨ s.phase = .cBody → s.cand = [] →
    (snkRoom (unitCost s.w s) s →
      exec .eofile s = .next (codeWritten (2 ^ s.w - 1) s.w { s with phase := .cBody })) ∧
    (s.snkLen ≤ s.params.snkCap.toNat → ¬ snkRoom (unitCost s.w s) s →
      exec .eofile s = .next (codeOverflow (2 ^ s.w - 1) s.w { s with phase := .cBody }))) ∧
  (∀ (s : State) (p : Nat), s.phase = .cHdr ∨ s.phase = .cBody → s.cand ≠ [] → codeOf s.cand s = some p →
    (s.snkLen ≤ s.params.snkCap.toNat → ¬ snkRoom (unitCost s.w s) s →
      exec .eofile s = .next (codeOverflow p s.w { s with phase := .cBody })) ∧
    (∀ v : State, v = { encPolicy none (codeWritten p s.w { s with phase := .cBody }) with cand := [] } →
      snkRoom (unitCost s.w s) s →
      (snkRoom (unitCost v.w v) v → exec .eofile s = .next (codeWritten (2 ^ v.w - 1) v.w v)) ∧
      (¬ snkRoom (unitCost v.w v) v → exec .eofile s = .next (codeOverflow (2 ^ v.w - 1) v.w v)))) ∧
  illcmdFault 0x12 ∧ seqFault 0x12 [.cHdr, .cBody]

/-- R163: FINISH: E_SEQ with a file open; else the trailing code 0, the padding, DONE. Which bits WBUF holds after an
overflow in the flush is not stated (notes/assumptions/13.md). -/
def Obligations.FinishRule : Prop :=
  encode .finish = 0x1300000000 ∧
  (∀ s : State, s.phase = .cHdr ∨ s.phase = .cBody → s.cand ≠ [] →
    exec .finish s = .next { s with err := 2, errinfo := 0x13, phase := .err }) ∧
  (∀ s : State, s.phase = .cHdr ∨ s.phase = .cBody → s.cand = [] → s.snkLen ≤ s.params.snkCap.toNat →
    ¬ snkRoom (unitCost s.w s) s → exec .finish s = .next (codeOverflow 0 s.w s)) ∧
  (∀ (s u : State) (tail : List Byte), s.phase = .cHdr ∨ s.phase = .cBody → s.cand = [] →
    snkRoom (unitCost s.w s) s → u = codeWritten 0 s.w s → tail = packText u.cfg (u.wbuf ++ padding u.cfg u.wbuf) →
    (snkRoom tail.length u → exec .finish s = .next { snkExtend tail u with wbuf := [], phase := .done }) ∧
    (¬ snkRoom tail.length u → ∃ b, exec .finish s =
      .next { raise .ovf 0 (snkExtend (tail.take (u.params.snkCap.toNat - u.snkLen)) u) with wbuf := b })) ∧
  illcmdFault 0x13 ∧ seqFault 0x13 [.cHdr, .cBody]

/-! ### The decompress commands (46_decompress) -/

/-- R175: HDRRD: a header byte, END, or an illegal symbol. -/
def Obligations.HdrrdRule : Prop :=
  encode .hdrrd = 0x2000000000 ∧
  (∀ (b : Byte) (s : State), s.phase = .dHdr → readable 8 s → hdrAhead s = some b →
    exec .hdrrd s = .next { hdrRead s with result := 0x100 + b.zeroExtend 9 }) ∧
  (∀ s : State, s.phase = .dHdr → readable 8 s → hdrAhead s = none →
    exec .hdrrd s = .next { pullEnd s with result := 0 }) ∧
  (∀ (i : Nat) (s : State), s.phase = .dHdr → firstBad 8 i s → exec .hdrrd s = .next (pullBad i s)) ∧
  illcmdFault 0x20 ∧ seqFault 0x20 [.dHdr]

/-- R176: DSTEP in state PRIME. -/
def Obligations.DstepPrimeRule : Prop :=
  encode .dstep = 0x2100000000 ∧
  (∀ s : State, s.phase = .dHdr ∨ s.phase = .dBody → s.dstate = .prime → readable s.w s → codeAhead s = none →
    exec .dstep s = .next { pullEnd s with phase := .done }) ∧
  (∀ s : State, s.phase = .dHdr ∨ s.phase = .dBody → s.dstate = .prime → readable s.w s →
    codeAhead s = some (2 ^ s.w - 1) →
    (outRoom 1 s → exec .dstep s = .next { outExtend [0x100] (codeRead s) with phase := .dBody }) ∧
    (s.outLen = s.params.outCap.toNat →
      exec .dstep s = .next { codeRead s with err := 6, errinfo := 1, phase := .err })) ∧
  (∀ (c : Nat) (s : State), s.phase = .dHdr ∨ s.phase = .dBody → s.dstate = .prime → readable s.w s →
    codeAhead s = some c → c ≠ 2 ^ s.w - 1 →
    (c < s.dsize → exec .dstep s = .next { codeRead s with phase := .dBody, cur := c, dstate := .run }) ∧
    (s.dsize ≤ c → exec .dstep s =
      .next { codeRead s with err := 4, errinfo := BitVec.ofNat 32 (s.w * 2 ^ 16 + c), phase := .err })) ∧
  (∀ (i : Nat) (s : State), s.phase = .dHdr ∨ s.phase = .dBody → s.dstate = .prime → firstBad s.w i s →
    exec .dstep s = .next (pullBad i s)) ∧
  illcmdFault 0x21 ∧ seqFault 0x21 [.dHdr, .dBody]

/-- R177: DSTEP in state RUN, when NEXT is END, the sentinel, or met by an illegal symbol. -/
def Obligations.DstepRunEnds : Prop :=
  (∀ s : State, s.phase = .dHdr ∨ s.phase = .dBody → s.dstate = .run → readable s.w s → codeAhead s = none →
    exec .dstep s = .next { pullEnd s with phase := .done }) ∧
  (∀ (s : State) (current : Str), s.phase = .dHdr ∨ s.phase = .dBody → s.dstate = .run → readable s.w s →
    codeAhead s = some (2 ^ s.w - 1) → dictRead s.cur s = some current →
    (outRoom (current.length + 1) s → exec .dstep s =
      .next { outExtend (tokensOf current ++ [0x100]) (codeRead s) with phase := .dBody, cur := 0, dstate := .prime }) ∧
    (s.outLen ≤ s.params.outCap.toNat → ¬ outRoom (current.length + 1) s →
      exec .dstep s = .next (outOverflow (tokensOf current ++ [0x100]) (codeRead s)))) ∧
  (∀ (i : Nat) (s : State), s.phase = .dHdr ∨ s.phase = .dBody → s.dstate = .run → firstBad s.w i s →
    exec .dstep s = .next (pullBad i s))

/-- R177: DSTEP in state RUN, when NEXT is a data code: the string of CUR goes out, then E_UNKCODE for an unknown code,
else the entry is completed and the policy takes one of its three arms. -/
def Obligations.DstepRunData : Prop :=
  (∀ (s : State) (n : Nat) (current : Str), s.phase = .dHdr ∨ s.phase = .dBody → s.dstate = .run → readable s.w s →
    codeAhead s = some n → n ≠ 2 ^ s.w - 1 → dictRead s.cur s = some current →
    s.outLen ≤ s.params.outCap.toNat → ¬ outRoom current.length s →
    exec .dstep s = .next (outOverflow (tokensOf current) (codeRead s))) ∧
  (∀ (s : State) (n : Nat) (current : Str), s.phase = .dHdr ∨ s.phase = .dBody → s.dstate = .run → readable s.w s →
    codeAhead s = some n → n ≠ 2 ^ s.w - 1 → dictRead s.cur s = some current → outRoom current.length s →
    s.dsize < n →
    exec .dstep s =
      .next { outExtend (tokensOf current) (codeRead s) with
              err := 4, errinfo := BitVec.ofNat 32 (s.w * 2 ^ 16 + n), phase := .err }) ∧
  (∀ (s : State) (n : Nat) (current nxt : Str) (b : Byte), s.phase = .dHdr ∨ s.phase = .dBody → s.dstate = .run →
    readable s.w s → codeAhead s = some n → n ≠ 2 ^ s.w - 1 → dictRead s.cur s = some current →
    outRoom current.length s →
    (n < s.dsize ∧ dictRead n s = some nxt ∧ nxt.head? = some b) ∨
      (n = s.dsize ∧ current.head? = some b ∧ nxt = current ++ [b]) →
    (s.dsize < 2 ^ s.w - 2 → exec .dstep s =
      .next { dictInsert (current ++ [b]) (outExtend (tokensOf current) (codeRead s)) with
              phase := .dBody, cur := n }) ∧
    (2 ^ s.w - 2 ≤ s.dsize → s.w < wmax s.cfg → exec .dstep s =
      .next { dictInsert (current ++ [b]) (outExtend (tokensOf current) (codeRead s)) with
              w := s.w + 1, phase := .dBody, cur := n }) ∧
    (2 ^ s.w - 2 ≤ s.dsize → wmax s.cfg ≤ s.w →
      (outRoom (current ++ nxt).length s → exec .dstep s =
        .next { outExtend (tokensOf (current ++ nxt)) (codeRead s) with
                dict := [], dsize := 256, w := wmin s.cfg, phase := .dBody, cur := 0, dstate := .prime }) ∧
      (s.outLen ≤ s.params.outCap.toNat → ¬ outRoom (current ++ nxt).length s →
        exec .dstep s = .next (outOverflow (tokensOf (current ++ nxt)) (codeRead s)))))

/-! ### Frames: what a command leaves unchanged, faults included -/

/-- R91 to R94, R192: NOP changes nothing; SETCFG, SETKEY and SETSRCLEN change their register and, in a fault, ERR,
ERRINFO and PHASE. No space changes. -/
def Obligations.FrameConfigure : Prop :=
  ∀ s t : State,
    (exec .nop s = .next t → t = s) ∧
    (∀ opd, exec (.setcfg opd) s = .next t →
      t = { s with cfg := t.cfg, phase := t.phase, err := t.err, errinfo := t.errinfo }) ∧
    (∀ k, exec (.setkey k) s = .next t →
      t = { s with key := t.key, phase := t.phase, err := t.err, errinfo := t.errinfo }) ∧
    (∀ n, exec (.setsrclen n) s = .next t →
      t = { s with srcLen := t.srcLen, phase := t.phase, err := t.err, errinfo := t.errinfo })

/-- R95, R96: BEGIN leaves CFG, KEY, SRC_LEN and every byte of SRC; SRST leaves every byte of SRC. -/
def Obligations.FrameBeginSrst : Prop :=
  ∀ s t : State,
    (exec .beginOp s = .next t →
      t.cfg = s.cfg ∧ t.key = s.key ∧ t.srcLen = s.srcLen ∧ t.params = s.params ∧ t.port = s.port ∧
        ∀ a, srcByte a t = srcByte a s) ∧
    (exec .srst s = .next t → t.params = s.params ∧ t.port = s.port ∧ ∀ a, srcByte a t = srcByte a s)

/-- R160 to R163: what the compress commands leave unchanged. The bytes of SNK stored to are those from SNK_LEN up to
the new SNK_LEN; every other byte of SNK, and SRC and OUT, read as before. -/
def Obligations.FrameCompress : Prop :=
  ∀ s t : State,
    ((∃ b, exec (.hdrb b) s = .next t) ∨ exec .finish s = .next t →
      t = { s with wbuf := t.wbuf, prng := t.prng, snk := t.snk, snkLen := t.snkLen, phase := t.phase, err := t.err,
                   errinfo := t.errinfo } ∧
      s.snkLen ≤ t.snkLen ∧
      ∀ a, a < s.snkLen ∨ t.snkLen ≤ a → Store.read (α := Byte) t.snk a = Store.read (α := Byte) s.snk a) ∧
    ((∃ c, exec (.sym c) s = .next t) ∨ exec .eofile s = .next t →
      t = { s with wbuf := t.wbuf, prng := t.prng, snk := t.snk, snkLen := t.snkLen, phase := t.phase, err := t.err,
                   errinfo := t.errinfo, w := t.w, dsize := t.dsize, dict := t.dict, cand := t.cand } ∧
      s.snkLen ≤ t.snkLen ∧
      ∀ a, a < s.snkLen ∨ t.snkLen ≤ a → Store.read (α := Byte) t.snk a = Store.read (α := Byte) s.snk a)

/-- R175 to R177: what the decompress commands leave unchanged. HDRRD stores nothing; DSTEP stores the tokens of OUT
from OUT_LEN up to the new OUT_LEN; SRC and SNK read as before. -/
def Obligations.FrameDecompress : Prop :=
  ∀ s t : State,
    (exec .hdrrd s = .next t →
      t = { s with rbuf := t.rbuf, srcPos := t.srcPos, eos := t.eos, prng := t.prng, result := t.result,
                   phase := t.phase, err := t.err, errinfo := t.errinfo }) ∧
    (exec .dstep s = .next t →
      t = { s with rbuf := t.rbuf, srcPos := t.srcPos, eos := t.eos, prng := t.prng, w := t.w, dsize := t.dsize,
                   dict := t.dict, dstate := t.dstate, cur := t.cur, out := t.out, outLen := t.outLen,
                   phase := t.phase, err := t.err, errinfo := t.errinfo } ∧
      s.outLen ≤ t.outLen ∧
      ∀ a, a < s.outLen ∨ t.outLen ≤ a → Store.read t.out a = Store.read s.out a)

/-! ### Rules over all commands -/

/-- R44, R46: no command writes SRC; the parameters are no state that a command changes. -/
def Obligations.SrcNeverWritten : Prop :=
  ∀ (i : Instr) (s t : State), exec i s = .next t →
    (∀ a, srcByte a t = srcByte a s) ∧ t.params = s.params ∧ t.port = s.port

/-- R95: CFG, KEY and SRC_LEN cannot change until the operation ends: outside IDLE and DONE no command but SRST changes
them. -/
def Obligations.ConfigFixedInPass : Prop :=
  ∀ (i : Instr) (s t : State), s.phase ≠ .idle → s.phase ≠ .done → i ≠ .srst → exec i s = .next t →
    t.cfg = s.cfg ∧ t.key = s.key ∧ t.srcLen = s.srcLen

/-- R34, R35: an element of SNK or OUT below its length never changes until BEGIN or SRST. -/
def Obligations.AppendedStable : Prop :=
  ∀ (i : Instr) (s t : State), i ≠ .beginOp → i ≠ .srst → exec i s = .next t →
    (∀ a < s.snkLen, readSnk a t = readSnk a s) ∧ (∀ a < s.outLen, readOut a t = readOut a s)

/-- R19: EOS, once 1, stays 1 for the rest of the operation. -/
def Obligations.EosSticky : Prop :=
  ∀ (i : Instr) (s t : State), i ≠ .beginOp → i ≠ .srst → s.eos = true → exec i s = .next t → t.eos = true

/-- R132: with CIPH = 0 no draw occurs: PRNG stays as BEGIN seeded it. -/
def Obligations.NoCipherNoDraw : Prop :=
  ∀ (i : Instr) (s t : State), i ≠ .beginOp → i ≠ .srst → s.cfg.ciph = false → exec i s = .next t → t.prng = s.prng

/-- R193: in ERR every word but SRST is discarded without any state change, so the first fault is the one recorded. -/
def Obligations.DiscardedInErr : Prop :=
  (∀ (cmd : Cmd) (s : State), s.phase = .err → decode cmd ≠ .ok .srst → acceptWord cmd s = .next s) ∧
  (∀ (cmd : Cmd) (s : State), s.phase = .err → decode cmd = .ok .srst →
    ∃ t, acceptWord cmd s = .next t ∧ t.phase = .idle ∧ t.err = 0 ∧ t.errinfo = 0)

/-- R12: the size of the dictionary increases by at most one entry per command. -/
def Obligations.DsizeGrowth : Prop :=
  ∀ (i : Instr) (s t : State), 256 ≤ s.dsize → exec i s = .next t → t.dsize ≤ s.dsize + 1

/-- R224: one command of a compress pass appends a bounded number of bytes to SNK: at most 4 for a unit, so 4, 4, 8 and
6 for HDRB, SYM, EOFILE and FINISH. -/
def Obligations.SnkGrowth : Prop :=
  ∀ s t : State, Inv s →
    (∀ b, exec (.hdrb b) s = .next t → t.snkLen ≤ s.snkLen + 4) ∧
    (∀ c, exec (.sym c) s = .next t → t.snkLen ≤ s.snkLen + 4) ∧
    (exec .eofile s = .next t → t.snkLen ≤ s.snkLen + 8) ∧
    (exec .finish s = .next t → t.snkLen ≤ s.snkLen + 6)

/-! ### The invariant (10_state R37) -/

/-- The invariant holds after reset. -/
def Obligations.InvReset : Prop := Inv State.reset

/-- Every step keeps the invariant: the widths, the bounds of the dictionary, its shape and its injectivity, S is a key,
CUR is defined, the buffers are short, the lengths and SRC_POS are within the capacities, the spaces are in canonical
form, and ERR is 0 outside phase ERR. -/
def Obligations.InvStep : Prop := ∀ s t : State, Inv s → step s = .next t → Inv t

/-- Under the invariant every command completes with a next state, whatever its operand and the phase: the model never
stops in one. -/
def Obligations.CommandsComplete : Prop := ∀ (s : State) (cmd : Cmd), Inv s → ∃ t, acceptWord cmd s = .next t ∧ Inv t

/-! ### Reset and the read port (10_state) -/

/-- R38: the table of reset values, after hardware reset and after SRST; SRC is unchanged by SRST. -/
def Obligations.ResetValues : Prop :=
  ResetTable State.reset ∧ (∀ s t : State, applyMove .hardReset s = .next t → ResetTable t) ∧
  (∀ s t : State, exec .srst s = .next t → ResetTable t ∧ ∀ a, srcByte a t = srcByte a s)

/-- R23: the fields of STATUS. -/
def Obligations.StatusFields : Prop :=
  (∀ s : State, s.w < 32 →
    readReg 3 s = statusWord s ∧
    (statusWord s).extractLsb' 0 3 = phaseCode s.phase ∧
    ((statusWord s).getLsbD 3 = true ↔ s.dstate = .run) ∧
    (statusWord s).getLsbD 4 = s.eos ∧
    ((statusWord s).getLsbD 5 = true ↔ s.cand ≠ []) ∧
    (statusWord s).extractLsb' 6 2 = 0 ∧
    ((statusWord s).extractLsb' 8 5).toNat = s.w ∧
    (statusWord s).extractLsb' 13 19 = 0) ∧
  readReg 3 State.reset = 0x00000C00 ∧
  [Phase.idle, .cHdr, .cBody, .dHdr, .dBody, .done, .err].map phaseCode = [0, 1, 2, 3, 4, 5, 6]

/-- R30: the read port: reset values, index above 10, what the three setters make it read, and that no other command
but SRST changes that. -/
def Obligations.ReadPort : Prop :=
  (List.range 11).map (fun i => readReg i State.reset) = [0x00000C00, 0, 0, 0x00000C00, 0, 0, 256, 0, 0, 0, 0] ∧
  (∀ (i : Nat) (s : State), 10 < i → readReg i s = 0) ∧
  (∀ (opd : Word) (s t : State), (Instr.setcfg opd).wf = true → exec (.setcfg opd) s = .next t → t.phase ≠ .err →
    readReg 0 t = opd) ∧
  (∀ (k : Word) (s t : State), exec (.setkey k) s = .next t → t.phase ≠ .err → readReg 1 t = k) ∧
  (∀ (n : Word) (s t : State), exec (.setsrclen n) s = .next t → t.phase ≠ .err → readReg 2 t = n) ∧
  (∀ (i : Instr) (s t : State), i ≠ .srst → exec i s = .next t →
    ((∀ opd, i ≠ .setcfg opd) → readReg 0 t = readReg 0 s) ∧ ((∀ k, i ≠ .setkey k) → readReg 1 t = readReg 1 s) ∧
    ((∀ n, i ≠ .setsrclen n) → readReg 2 t = readReg 2 s))

/-- R20 to R29: under the invariant a register read loses nothing of the element it shows, in every phase. Of register 3
it states W, the field whose exactness needs the invariant; the other fields are StatusFields's. -/
def Obligations.RegistersExact : Prop :=
  ∀ s : State, Inv s →
    (readReg 0 s).toNat = (cfgImage s.cfg).toNat ∧ readReg 1 s = s.key ∧ (readReg 2 s).toNat = s.srcLen ∧
    ((readReg 3 s).extractLsb' 8 5).toNat = s.w ∧ (readReg 4 s).toNat = s.err.toNat ∧ readReg 5 s = s.errinfo ∧
    (readReg 6 s).toNat = s.dsize ∧ (readReg 7 s).toNat = s.srcPos ∧ (readReg 8 s).toNat = s.snkLen ∧
    (readReg 9 s).toNat = s.outLen ∧ (readReg 10 s).toNat = s.result.toNat

/-! ### The dictionary (44_dictionary) -/

/-- R149: `enc_policy`, by the table it leaves: growth with the insertion, reset without it, plain insertion. -/
def Obligations.EncPolicyRule : Prop :=
  ∀ (e : Option Str) (s t : State), 256 ≤ s.dsize → t = encPolicy e s →
    t = { s with w := t.w, dsize := t.dsize, dict := t.dict } ∧
    (2 ^ s.w - 1 ≤ s.dsize → s.w < wmax s.cfg →
      t.w = s.w + 1 ∧ t.dsize = s.dsize + (if e.isSome then 1 else 0) ∧
      ∀ c, dictRead c t = if c = s.dsize then e else dictRead c s) ∧
    (2 ^ s.w - 1 ≤ s.dsize → wmax s.cfg ≤ s.w → t.w = wmin s.cfg ∧ t.dsize = 256 ∧ baseline t) ∧
    (s.dsize < 2 ^ s.w - 1 →
      t.w = s.w ∧ t.dsize = s.dsize + (if e.isSome then 1 else 0) ∧
      ∀ c, dictRead c t = if c = s.dsize then e else dictRead c s)

/-- R150: `dec_policy`, by the arm it reports and the table it leaves; it tests one entry earlier. -/
def Obligations.DecPolicyRule : Prop :=
  ∀ (e : Str) (s t : State) (arm : PolicyArm), 256 ≤ s.dsize → (arm, t) = decPolicy e s →
    (2 ^ s.w - 2 ≤ s.dsize → s.w < wmax s.cfg →
      arm = .grown ∧ t.w = s.w + 1 ∧ t.dsize = s.dsize + 1 ∧
      ∀ c, dictRead c t = if c = s.dsize then some e else dictRead c s) ∧
    (2 ^ s.w - 2 ≤ s.dsize → wmax s.cfg ≤ s.w → arm = .reset ∧ t = s) ∧
    (s.dsize < 2 ^ s.w - 2 →
      arm = .inserted ∧ t.w = s.w ∧ t.dsize = s.dsize + 1 ∧
      ∀ c, dictRead c t = if c = s.dsize then some e else dictRead c s)

/-- R151: in a compress pass `code_of` is the inverse of the table, and `code_of([b]) = b` always. -/
def Obligations.CodeOfRule : Prop :=
  (∀ (s : State) (str : Str) (c : Nat), Inv s → s.phase = .cHdr ∨ s.phase = .cBody →
    (codeOf str s = some c ↔ dictRead c s = some str)) ∧
  (∀ (b : Byte) (s : State), codeOf [b] s = some b.toNat)

/-- R153: the sentinel is never a real dictionary entry. -/
def Obligations.SentinelNotEntry : Prop :=
  ∀ s : State, Inv s → dictRead (2 ^ s.w - 1) s = none ∧ ∀ str, codeOf str s ≠ some (2 ^ s.w - 1)

/-! ### Cipher and text (43_streamcipher, 42_texttranscoder) -/

/-- R131: the reference instance LCG32, the default. -/
def Obligations.Lcg32 : Prop :=
  State.reset.params.prng = .lcg32 ∧
  ∀ p : Params, p.prng = .lcg32 →
    (∀ key : Word, prngSeed p key = key.toNat) ∧
    (∀ st : Nat, (prngNext p st).2 = (st * 1664525 + 1013904223) % 2 ^ 32 ∧
      (prngNext p st).1.toNat = (st * 1664525 + 1013904223) % 2 ^ 32 / 2 ^ 16)

/-- R133, R134: a code ciphered at width `w` fits the width and deciphers with the same draw to itself. -/
def Obligations.CodeCipherInverse : Prop :=
  ∀ c r w : Nat, c < 2 ^ w → addMod c r (2 ^ w) < 2 ^ w ∧ subMod (addMod c r (2 ^ w)) r (2 ^ w) = c

/-- R135, R136: the header cipher maps its range onto itself, never makes a line feed, and deciphers with the same
draw; a byte outside the range, the line feed among them, is written as it is and draws nothing. -/
def Obligations.HeaderCipher : Prop :=
  (∀ (h : HdrRange) (b r : Nat), inHdrRange h b = true →
    inHdrRange h (hdrEncipher h b r) = true ∧ hdrDecipher h (hdrEncipher h b r) r = b ∧ hdrEncipher h b r ≠ 0x0A) ∧
  (∀ (b : Byte) (s : State), inHdrRange s.params.hdr b.toNat = false →
    storedHdr b s = b.toNat ∧ prngAfterHdr b.toNat s = s.prng) ∧
  (∀ h : HdrRange, inHdrRange h 0x0A = false)

/-- R122: the hexadecimal alphabet, both ways. -/
def Obligations.HexAlphabet : Prop :=
  (List.range 16).map hexChar =
      [0x30, 0x31, 0x32, 0x33, 0x34, 0x35, 0x36, 0x37, 0x38, 0x39, 0x61, 0x62, 0x63, 0x64, 0x65, 0x66] ∧
  (∀ x < 16, hexVal (hexChar x) = some x) ∧
  (∀ b : Byte, (0x30 ≤ b.toNat → b.toNat ≤ 0x39 → hexVal b = some (b.toNat - 0x30)) ∧
    (0x61 ≤ b.toNat → b.toNat ≤ 0x66 → hexVal b = some (b.toNat - 0x61 + 10)) ∧
    (0x41 ≤ b.toNat → b.toNat ≤ 0x46 → hexVal b = some (b.toNat - 0x41 + 10)) ∧
    (b.toNat < 0x30 ∨ (0x39 < b.toNat ∧ b.toNat < 0x41) ∨ (0x46 < b.toNat ∧ b.toNat < 0x61) ∨ 0x66 < b.toNat →
      hexVal b = none))

/-- R123, with the table of R69: the base64 alphabet, both ways. -/
def Obligations.Base64Alphabet : Prop :=
  (List.range 64).map b64Char =
      [0x41, 0x42, 0x43, 0x44, 0x45, 0x46, 0x47, 0x48, 0x49, 0x4A, 0x4B, 0x4C, 0x4D, 0x4E, 0x4F, 0x50] ++
      [0x51, 0x52, 0x53, 0x54, 0x55, 0x56, 0x57, 0x58, 0x59, 0x5A, 0x61, 0x62, 0x63, 0x64, 0x65, 0x66] ++
      [0x67, 0x68, 0x69, 0x6A, 0x6B, 0x6C, 0x6D, 0x6E, 0x6F, 0x70, 0x71, 0x72, 0x73, 0x74, 0x75, 0x76] ++
      [0x77, 0x78, 0x79, 0x7A, 0x30, 0x31, 0x32, 0x33, 0x34, 0x35, 0x36, 0x37, 0x38, 0x39, 0x2B, 0x2F] ∧
  (∀ x < 64, b64Val (b64Char x) = some x) ∧
  (∀ (b : Byte) (x : Nat), b64Val b = some x → x < 64 ∧ b64Char x = b)

/-- R113, R125, R139: units written through the chain and flushed are what a reader of the resulting SNK reads, with the
same text mode, cipher and seed; then END. -/
def Obligations.StreamRoundTrip : Prop :=
  ∀ (units : List StreamUnit) (s t r : State), (∀ u ∈ units, u.legal) → s.wbuf = [] → s.snkLen = 0 →
    ((writeUnits units s).bind fun _ s => finalize s) = .done () t →
    r.cfg.text = s.cfg.text → r.cfg.ciph = s.cfg.ciph → r.params.prng = s.params.prng → r.params.hdr = s.params.hdr →
    r.prng = s.prng → r.rbuf = [] → r.srcPos = 0 → r.srcLen = t.snkLen →
    (∀ i < t.snkLen, readSnk i t = some (srcByte i r)) →
    ∃ r', readUnits units r = .done (some units) r' ∧ ∀ n, 8 ≤ n → ∃ r'', readBits n r' = .done none r''

/-! ### Whole passes -/

/-- R216: what an operation starts from is CFG, KEY, SRC_LEN and SRC only: BEGIN leaves the same state from any two
states that agree on these. -/
def Obligations.BeginForgets : Prop :=
  ∀ s s' : State, (s.phase = .idle ∨ s.phase = .done) → (s'.phase = .idle ∨ s'.phase = .done) → Inv s → Inv s' →
    s'.cfg = s.cfg → s'.key = s.key → s'.srcLen = s.srcLen → s'.src = s.src → s'.srcEpoch = s.srcEpoch →
    s'.params = s.params → s'.port = s.port → exec .beginOp s' = exec .beginOp s

/-- R22, R33: a compress command neither reads nor changes SRC or SRC_LEN: with other contents and another length it
does the same. -/
def Obligations.CompressIgnoresSrc : Prop :=
  ∀ (i : Instr) (s t : State) (src : List Host.Cell) (n : Nat),
    ((∃ b, i = .hdrb b) ∨ (∃ c, i = .sym c) ∨ i = .eofile ∨ i = .finish) → exec i s = .next t →
    exec i { s with src := src, srcLen := n } = .next { t with src := src, srcLen := n }

/-- R179: a DSTEP that does not end the pass consumes exactly W bits of the packed stream, at least 9. -/
def Obligations.DstepConsumes : Prop :=
  ∀ s t : State, Inv s → (s.phase = .dHdr ∨ s.phase = .dBody) → exec .dstep s = .next t →
    t.phase ≠ .done → t.phase ≠ .err → (unread t).length + s.w = (unread s).length ∧ 9 ≤ s.w

/-- R179: a decompress pass ends: from every state of one, DSTEP repeated reaches DONE or ERR within one more step than
the unread bits allow at 9 bits a code, and at the start of a pass the unread bits are those of SRC. -/
def Obligations.DrunTerminates : Prop :=
  (∀ s : State, Inv s → (s.phase = .dHdr ∨ s.phase = .dBody) →
    ∃ t, drun ((unread s).length / 9 + 1) s = .next t ∧ (t.phase = .done ∨ t.phase = .err)) ∧
  (∀ s t : State, exec .beginOp s = .next t → t.phase = .dHdr → (unread t).length = srcBits t)

/-- R178: the round trip. A compress pass without fault, its SNK given as SRC to a decompress pass with the same
configuration and key: no fault, the header bytes come back, and OUT is the files, each with its boundary. -/
def Obligations.RoundTrip : Prop :=
  ∀ (header : Str) (files : List Str) (s t r : State),
    Inv s → s.phase = .idle ∨ s.phase = .done → s.cfg.dir = .compress →
    runCommands (compressPass header files) s = .next t → t.phase = .done →
    Inv r → r.phase = .idle ∨ r.phase = .done → r.cfg = { s.cfg with dir := .decompress } → r.key = s.key →
    r.params.prng = s.params.prng → r.params.hdr = s.params.hdr → r.srcLen = t.snkLen →
    (∀ i < t.snkLen, readSnk i t = some (srcByte i r)) →
    (fileTokens files).length ≤ r.params.outCap.toNat →
    ∃ r1 r2 u results k, exec .beginOp r = .next r1 ∧ hdrrdEach header r1 = some (results, r2) ∧
      results = header.map resultValid ∧ drun k r2 = .next u ∧ u.phase = .done ∧ u.err = 0 ∧
      outTokens u = fileTokens files

/-! ### The architectural state (10_state R10) -/

/-- R10, 00_scope R5: the architectural state is the tuple `Elements` and nothing else, and the parameters are arguments
of the step on it: what a step does to the elements is `stepAt` of the parameters and the host move. The three fields of
State beside the elements are the model's own (notes/assumptions/1.md, 2.md, 4.md): the parameters stay, the number of
hardware resets counts them, and the host's further moves are left. -/
def Obligations.StepOfElements : Prop :=
  ∀ (s : State) (m : HostMove) (rest : List HostMove), s.port = m :: rest →
    step s =
      match stepAt s.params s.srcEpoch m s.toElements with
      | .next e => .next { toElements := e, params := s.params, srcEpoch := epochAfter m s.srcEpoch, port := rest }
      | .fault r => .fault r
      | .refused r => .refused r

end Statements
end

