-- ==== Sys2Proof/Laws/Bits.lean ====
section
/-!
SUPPORT. The laws of bit strings: `bitsMSB` and `valMSB` are inverse, and both cut at any place (00_scope R6).
-/

namespace Sys2Proof.Machine

@[simp] theorem bitsMSB_length (v n : Nat) : (bitsMSB v n).length = n := by
  induction n with
  | zero => rfl
  | succ n ih => simp [bitsMSB, ih]

theorem bitsMSB_mod (v n : Nat) : bitsMSB (v % 2 ^ n) n = bitsMSB v n := by
  suffices h : ∀ k ≤ n, bitsMSB (v % 2 ^ n) k = bitsMSB v k from h n le_rfl
  intro k hk
  induction k with
  | zero => rfl
  | succ k ih =>
    have hk' : k < n := by omega
    simp [bitsMSB, ih (by omega), Nat.testBit_mod_two_pow, hk']

theorem bitsMSB_congr {v v' n : Nat} (h : v % 2 ^ n = v' % 2 ^ n) : bitsMSB v n = bitsMSB v' n := by
  rw [← bitsMSB_mod v, ← bitsMSB_mod v', h]

/-- The high `m` bits, then the low `n` bits. -/
theorem bitsMSB_add (v m n : Nat) : bitsMSB v (m + n) = bitsMSB (v / 2 ^ n) m ++ bitsMSB v n := by
  induction m with
  | zero => simp [bitsMSB]
  | succ m ih =>
    rw [show m + 1 + n = (m + n) + 1 by omega]
    rw [bitsMSB, ih, bitsMSB, Nat.testBit_div_two_pow, List.cons_append]

theorem valMSB_foldl (bs : Bits) (acc : Nat) :
    bs.foldl (fun acc b => 2 * acc + b.toNat) acc = acc * 2 ^ bs.length + valMSB bs := by
  unfold valMSB
  induction bs generalizing acc with
  | nil => simp
  | cons b bs ih =>
    simp only [List.foldl_cons, List.length_cons]
    rw [ih, ih (2 * 0 + b.toNat)]
    ring

@[simp] theorem valMSB_nil : valMSB [] = 0 := rfl

theorem valMSB_cons (b : Bool) (bs : Bits) : valMSB (b :: bs) = b.toNat * 2 ^ bs.length + valMSB bs := by
  rw [valMSB, List.foldl_cons, valMSB_foldl]
  simp

theorem valMSB_append (as bs : Bits) : valMSB (as ++ bs) = valMSB as * 2 ^ bs.length + valMSB bs := by
  rw [valMSB, List.foldl_append, valMSB_foldl]
  rfl

theorem valMSB_lt (bs : Bits) : valMSB bs < 2 ^ bs.length := by
  induction bs with
  | nil => simp
  | cons b bs ih =>
    rw [valMSB_cons, List.length_cons, Nat.pow_succ]
    cases b <;> simp <;> omega

theorem bitsMSB_valMSB (bs : Bits) : bitsMSB (valMSB bs) bs.length = bs := by
  induction bs with
  | nil => rfl
  | cons b bs ih =>
    have hlt := valMSB_lt bs
    simp only [List.length_cons, bitsMSB]
    congr 1
    · rw [valMSB_cons, Nat.testBit_eq_decide_div_mod_eq]
      cases b
      · simp [Nat.div_eq_of_lt hlt]
      · simp [Nat.add_div_left, Nat.div_eq_of_lt hlt]
    · rw [valMSB_cons, ← bitsMSB_mod, Nat.add_comm, Nat.add_mul_mod_self_right, Nat.mod_eq_of_lt hlt, ih]

theorem valMSB_bitsMSB (v n : Nat) : valMSB (bitsMSB v n) = v % 2 ^ n := by
  induction n with
  | zero => simp [bitsMSB, Nat.mod_one]
  | succ n ih =>
    rw [bitsMSB, valMSB_cons, ih, bitsMSB_length, Nat.testBit_eq_decide_div_mod_eq, Nat.pow_succ, Nat.mod_mul]
    have : (decide (v / 2 ^ n % 2 = 1)).toNat = v / 2 ^ n % 2 := by
      rcases Nat.mod_two_eq_zero_or_one (v / 2 ^ n) with h | h <;> simp [h]
    rw [this]
    ring

theorem valMSB_bitsMSB_of_lt {v n : Nat} (h : v < 2 ^ n) : valMSB (bitsMSB v n) = v := by
  rw [valMSB_bitsMSB, Nat.mod_eq_of_lt h]

end Sys2Proof.Machine
end

