-- ==== Sys2Proof/Laws/State.lean ====
section
/-!
SUPPORT. What each named update of the state leaves in each field: one lemma per field per update, so that no proof
unfolds a record update.
-/

namespace Sys2Proof.Machine

/-! ### raise -/

@[simp] theorem raise_phase (c : Cause) (info : Word) (s : State) : (raise c info s).phase = .err := rfl
@[simp] theorem raise_cfg (c : Cause) (info : Word) (s : State) : (raise c info s).cfg = s.cfg := rfl
@[simp] theorem raise_key (c : Cause) (info : Word) (s : State) : (raise c info s).key = s.key := rfl
@[simp] theorem raise_srcLen (c : Cause) (info : Word) (s : State) : (raise c info s).srcLen = s.srcLen := rfl
@[simp] theorem raise_w (c : Cause) (info : Word) (s : State) : (raise c info s).w = s.w := rfl
@[simp] theorem raise_dsize (c : Cause) (info : Word) (s : State) : (raise c info s).dsize = s.dsize := rfl
@[simp] theorem raise_dict (c : Cause) (info : Word) (s : State) : (raise c info s).dict = s.dict := rfl
@[simp] theorem raise_cand (c : Cause) (info : Word) (s : State) : (raise c info s).cand = s.cand := rfl
@[simp] theorem raise_dstate (c : Cause) (info : Word) (s : State) : (raise c info s).dstate = s.dstate := rfl
@[simp] theorem raise_cur (c : Cause) (info : Word) (s : State) : (raise c info s).cur = s.cur := rfl
@[simp] theorem raise_wbuf (c : Cause) (info : Word) (s : State) : (raise c info s).wbuf = s.wbuf := rfl
@[simp] theorem raise_rbuf (c : Cause) (info : Word) (s : State) : (raise c info s).rbuf = s.rbuf := rfl
@[simp] theorem raise_prng (c : Cause) (info : Word) (s : State) : (raise c info s).prng = s.prng := rfl
@[simp] theorem raise_eos (c : Cause) (info : Word) (s : State) : (raise c info s).eos = s.eos := rfl
@[simp] theorem raise_srcPos (c : Cause) (info : Word) (s : State) : (raise c info s).srcPos = s.srcPos := rfl
@[simp] theorem raise_snkLen (c : Cause) (info : Word) (s : State) : (raise c info s).snkLen = s.snkLen := rfl
@[simp] theorem raise_outLen (c : Cause) (info : Word) (s : State) : (raise c info s).outLen = s.outLen := rfl
@[simp] theorem raise_result (c : Cause) (info : Word) (s : State) : (raise c info s).result = s.result := rfl
@[simp] theorem raise_err (c : Cause) (info : Word) (s : State) : (raise c info s).err = causeCode c := rfl
@[simp] theorem raise_errinfo (c : Cause) (info : Word) (s : State) : (raise c info s).errinfo = info := rfl
@[simp] theorem raise_src (c : Cause) (info : Word) (s : State) : (raise c info s).src = s.src := rfl
@[simp] theorem raise_snk (c : Cause) (info : Word) (s : State) : (raise c info s).snk = s.snk := rfl
@[simp] theorem raise_out (c : Cause) (info : Word) (s : State) : (raise c info s).out = s.out := rfl
@[simp] theorem raise_params (c : Cause) (info : Word) (s : State) : (raise c info s).params = s.params := rfl
@[simp] theorem raise_srcEpoch (c : Cause) (info : Word) (s : State) : (raise c info s).srcEpoch = s.srcEpoch := rfl
@[simp] theorem raise_port (c : Cause) (info : Word) (s : State) : (raise c info s).port = s.port := rfl

/-! ### growWidth -/

@[simp] theorem growWidth_phase (s : State) : (growWidth s).phase = s.phase := rfl
@[simp] theorem growWidth_cfg (s : State) : (growWidth s).cfg = s.cfg := rfl
@[simp] theorem growWidth_key (s : State) : (growWidth s).key = s.key := rfl
@[simp] theorem growWidth_srcLen (s : State) : (growWidth s).srcLen = s.srcLen := rfl
@[simp] theorem growWidth_w (s : State) : (growWidth s).w = s.w + 1 := rfl
@[simp] theorem growWidth_dsize (s : State) : (growWidth s).dsize = s.dsize := rfl
@[simp] theorem growWidth_dict (s : State) : (growWidth s).dict = s.dict := rfl
@[simp] theorem growWidth_cand (s : State) : (growWidth s).cand = s.cand := rfl
@[simp] theorem growWidth_dstate (s : State) : (growWidth s).dstate = s.dstate := rfl
@[simp] theorem growWidth_cur (s : State) : (growWidth s).cur = s.cur := rfl
@[simp] theorem growWidth_wbuf (s : State) : (growWidth s).wbuf = s.wbuf := rfl
@[simp] theorem growWidth_rbuf (s : State) : (growWidth s).rbuf = s.rbuf := rfl
@[simp] theorem growWidth_prng (s : State) : (growWidth s).prng = s.prng := rfl
@[simp] theorem growWidth_eos (s : State) : (growWidth s).eos = s.eos := rfl
@[simp] theorem growWidth_srcPos (s : State) : (growWidth s).srcPos = s.srcPos := rfl
@[simp] theorem growWidth_snkLen (s : State) : (growWidth s).snkLen = s.snkLen := rfl
@[simp] theorem growWidth_outLen (s : State) : (growWidth s).outLen = s.outLen := rfl
@[simp] theorem growWidth_result (s : State) : (growWidth s).result = s.result := rfl
@[simp] theorem growWidth_err (s : State) : (growWidth s).err = s.err := rfl
@[simp] theorem growWidth_errinfo (s : State) : (growWidth s).errinfo = s.errinfo := rfl
@[simp] theorem growWidth_src (s : State) : (growWidth s).src = s.src := rfl
@[simp] theorem growWidth_snk (s : State) : (growWidth s).snk = s.snk := rfl
@[simp] theorem growWidth_out (s : State) : (growWidth s).out = s.out := rfl
@[simp] theorem growWidth_params (s : State) : (growWidth s).params = s.params := rfl
@[simp] theorem growWidth_srcEpoch (s : State) : (growWidth s).srcEpoch = s.srcEpoch := rfl
@[simp] theorem growWidth_port (s : State) : (growWidth s).port = s.port := rfl

/-! ### dictReset -/

@[simp] theorem dictReset_phase (s : State) : (dictReset s).phase = s.phase := rfl
@[simp] theorem dictReset_cfg (s : State) : (dictReset s).cfg = s.cfg := rfl
@[simp] theorem dictReset_key (s : State) : (dictReset s).key = s.key := rfl
@[simp] theorem dictReset_srcLen (s : State) : (dictReset s).srcLen = s.srcLen := rfl
@[simp] theorem dictReset_w (s : State) : (dictReset s).w = s.w := rfl
@[simp] theorem dictReset_dsize (s : State) : (dictReset s).dsize = Config.base := rfl
@[simp] theorem dictReset_dict (s : State) : (dictReset s).dict = [] := rfl
@[simp] theorem dictReset_cand (s : State) : (dictReset s).cand = s.cand := rfl
@[simp] theorem dictReset_dstate (s : State) : (dictReset s).dstate = s.dstate := rfl
@[simp] theorem dictReset_cur (s : State) : (dictReset s).cur = s.cur := rfl
@[simp] theorem dictReset_wbuf (s : State) : (dictReset s).wbuf = s.wbuf := rfl
@[simp] theorem dictReset_rbuf (s : State) : (dictReset s).rbuf = s.rbuf := rfl
@[simp] theorem dictReset_prng (s : State) : (dictReset s).prng = s.prng := rfl
@[simp] theorem dictReset_eos (s : State) : (dictReset s).eos = s.eos := rfl
@[simp] theorem dictReset_srcPos (s : State) : (dictReset s).srcPos = s.srcPos := rfl
@[simp] theorem dictReset_snkLen (s : State) : (dictReset s).snkLen = s.snkLen := rfl
@[simp] theorem dictReset_outLen (s : State) : (dictReset s).outLen = s.outLen := rfl
@[simp] theorem dictReset_result (s : State) : (dictReset s).result = s.result := rfl
@[simp] theorem dictReset_err (s : State) : (dictReset s).err = s.err := rfl
@[simp] theorem dictReset_errinfo (s : State) : (dictReset s).errinfo = s.errinfo := rfl
@[simp] theorem dictReset_src (s : State) : (dictReset s).src = s.src := rfl
@[simp] theorem dictReset_snk (s : State) : (dictReset s).snk = s.snk := rfl
@[simp] theorem dictReset_out (s : State) : (dictReset s).out = s.out := rfl
@[simp] theorem dictReset_params (s : State) : (dictReset s).params = s.params := rfl
@[simp] theorem dictReset_srcEpoch (s : State) : (dictReset s).srcEpoch = s.srcEpoch := rfl
@[simp] theorem dictReset_port (s : State) : (dictReset s).port = s.port := rfl

/-! ### dictRestart -/

@[simp] theorem dictRestart_phase (s : State) : (dictRestart s).phase = s.phase := rfl
@[simp] theorem dictRestart_cfg (s : State) : (dictRestart s).cfg = s.cfg := rfl
@[simp] theorem dictRestart_key (s : State) : (dictRestart s).key = s.key := rfl
@[simp] theorem dictRestart_srcLen (s : State) : (dictRestart s).srcLen = s.srcLen := rfl
@[simp] theorem dictRestart_w (s : State) : (dictRestart s).w = wmin s.cfg := rfl
@[simp] theorem dictRestart_dsize (s : State) : (dictRestart s).dsize = Config.base := rfl
@[simp] theorem dictRestart_dict (s : State) : (dictRestart s).dict = [] := rfl
@[simp] theorem dictRestart_cand (s : State) : (dictRestart s).cand = s.cand := rfl
@[simp] theorem dictRestart_dstate (s : State) : (dictRestart s).dstate = s.dstate := rfl
@[simp] theorem dictRestart_cur (s : State) : (dictRestart s).cur = s.cur := rfl
@[simp] theorem dictRestart_wbuf (s : State) : (dictRestart s).wbuf = s.wbuf := rfl
@[simp] theorem dictRestart_rbuf (s : State) : (dictRestart s).rbuf = s.rbuf := rfl
@[simp] theorem dictRestart_prng (s : State) : (dictRestart s).prng = s.prng := rfl
@[simp] theorem dictRestart_eos (s : State) : (dictRestart s).eos = s.eos := rfl
@[simp] theorem dictRestart_srcPos (s : State) : (dictRestart s).srcPos = s.srcPos := rfl
@[simp] theorem dictRestart_snkLen (s : State) : (dictRestart s).snkLen = s.snkLen := rfl
@[simp] theorem dictRestart_outLen (s : State) : (dictRestart s).outLen = s.outLen := rfl
@[simp] theorem dictRestart_result (s : State) : (dictRestart s).result = s.result := rfl
@[simp] theorem dictRestart_err (s : State) : (dictRestart s).err = s.err := rfl
@[simp] theorem dictRestart_errinfo (s : State) : (dictRestart s).errinfo = s.errinfo := rfl
@[simp] theorem dictRestart_src (s : State) : (dictRestart s).src = s.src := rfl
@[simp] theorem dictRestart_snk (s : State) : (dictRestart s).snk = s.snk := rfl
@[simp] theorem dictRestart_out (s : State) : (dictRestart s).out = s.out := rfl
@[simp] theorem dictRestart_params (s : State) : (dictRestart s).params = s.params := rfl
@[simp] theorem dictRestart_srcEpoch (s : State) : (dictRestart s).srcEpoch = s.srcEpoch := rfl
@[simp] theorem dictRestart_port (s : State) : (dictRestart s).port = s.port := rfl

/-! ### dictInsert -/

@[simp] theorem dictInsert_phase (e : Str) (s : State) : (dictInsert e s).phase = s.phase := rfl
@[simp] theorem dictInsert_cfg (e : Str) (s : State) : (dictInsert e s).cfg = s.cfg := rfl
@[simp] theorem dictInsert_key (e : Str) (s : State) : (dictInsert e s).key = s.key := rfl
@[simp] theorem dictInsert_srcLen (e : Str) (s : State) : (dictInsert e s).srcLen = s.srcLen := rfl
@[simp] theorem dictInsert_w (e : Str) (s : State) : (dictInsert e s).w = s.w := rfl
@[simp] theorem dictInsert_dsize (e : Str) (s : State) : (dictInsert e s).dsize = s.dsize + 1 := rfl
@[simp] theorem dictInsert_dict (e : Str) (s : State) : (dictInsert e s).dict = Store.write s.dict s.dsize e := rfl
@[simp] theorem dictInsert_cand (e : Str) (s : State) : (dictInsert e s).cand = s.cand := rfl
@[simp] theorem dictInsert_dstate (e : Str) (s : State) : (dictInsert e s).dstate = s.dstate := rfl
@[simp] theorem dictInsert_cur (e : Str) (s : State) : (dictInsert e s).cur = s.cur := rfl
@[simp] theorem dictInsert_wbuf (e : Str) (s : State) : (dictInsert e s).wbuf = s.wbuf := rfl
@[simp] theorem dictInsert_rbuf (e : Str) (s : State) : (dictInsert e s).rbuf = s.rbuf := rfl
@[simp] theorem dictInsert_prng (e : Str) (s : State) : (dictInsert e s).prng = s.prng := rfl
@[simp] theorem dictInsert_eos (e : Str) (s : State) : (dictInsert e s).eos = s.eos := rfl
@[simp] theorem dictInsert_srcPos (e : Str) (s : State) : (dictInsert e s).srcPos = s.srcPos := rfl
@[simp] theorem dictInsert_snkLen (e : Str) (s : State) : (dictInsert e s).snkLen = s.snkLen := rfl
@[simp] theorem dictInsert_outLen (e : Str) (s : State) : (dictInsert e s).outLen = s.outLen := rfl
@[simp] theorem dictInsert_result (e : Str) (s : State) : (dictInsert e s).result = s.result := rfl
@[simp] theorem dictInsert_err (e : Str) (s : State) : (dictInsert e s).err = s.err := rfl
@[simp] theorem dictInsert_errinfo (e : Str) (s : State) : (dictInsert e s).errinfo = s.errinfo := rfl
@[simp] theorem dictInsert_src (e : Str) (s : State) : (dictInsert e s).src = s.src := rfl
@[simp] theorem dictInsert_snk (e : Str) (s : State) : (dictInsert e s).snk = s.snk := rfl
@[simp] theorem dictInsert_out (e : Str) (s : State) : (dictInsert e s).out = s.out := rfl
@[simp] theorem dictInsert_params (e : Str) (s : State) : (dictInsert e s).params = s.params := rfl
@[simp] theorem dictInsert_srcEpoch (e : Str) (s : State) : (dictInsert e s).srcEpoch = s.srcEpoch := rfl
@[simp] theorem dictInsert_port (e : Str) (s : State) : (dictInsert e s).port = s.port := rfl

/-! ### presentNext -/

@[simp] theorem presentNext_phase (cmd : Cmd) (s : State) : (presentNext cmd s).phase = s.phase := rfl
@[simp] theorem presentNext_cfg (cmd : Cmd) (s : State) : (presentNext cmd s).cfg = s.cfg := rfl
@[simp] theorem presentNext_key (cmd : Cmd) (s : State) : (presentNext cmd s).key = s.key := rfl
@[simp] theorem presentNext_srcLen (cmd : Cmd) (s : State) : (presentNext cmd s).srcLen = s.srcLen := rfl
@[simp] theorem presentNext_w (cmd : Cmd) (s : State) : (presentNext cmd s).w = s.w := rfl
@[simp] theorem presentNext_dsize (cmd : Cmd) (s : State) : (presentNext cmd s).dsize = s.dsize := rfl
@[simp] theorem presentNext_dict (cmd : Cmd) (s : State) : (presentNext cmd s).dict = s.dict := rfl
@[simp] theorem presentNext_cand (cmd : Cmd) (s : State) : (presentNext cmd s).cand = s.cand := rfl
@[simp] theorem presentNext_dstate (cmd : Cmd) (s : State) : (presentNext cmd s).dstate = s.dstate := rfl
@[simp] theorem presentNext_cur (cmd : Cmd) (s : State) : (presentNext cmd s).cur = s.cur := rfl
@[simp] theorem presentNext_wbuf (cmd : Cmd) (s : State) : (presentNext cmd s).wbuf = s.wbuf := rfl
@[simp] theorem presentNext_rbuf (cmd : Cmd) (s : State) : (presentNext cmd s).rbuf = s.rbuf := rfl
@[simp] theorem presentNext_prng (cmd : Cmd) (s : State) : (presentNext cmd s).prng = s.prng := rfl
@[simp] theorem presentNext_eos (cmd : Cmd) (s : State) : (presentNext cmd s).eos = s.eos := rfl
@[simp] theorem presentNext_srcPos (cmd : Cmd) (s : State) : (presentNext cmd s).srcPos = s.srcPos := rfl
@[simp] theorem presentNext_snkLen (cmd : Cmd) (s : State) : (presentNext cmd s).snkLen = s.snkLen := rfl
@[simp] theorem presentNext_outLen (cmd : Cmd) (s : State) : (presentNext cmd s).outLen = s.outLen := rfl
@[simp] theorem presentNext_result (cmd : Cmd) (s : State) : (presentNext cmd s).result = s.result := rfl
@[simp] theorem presentNext_err (cmd : Cmd) (s : State) : (presentNext cmd s).err = s.err := rfl
@[simp] theorem presentNext_errinfo (cmd : Cmd) (s : State) : (presentNext cmd s).errinfo = s.errinfo := rfl
@[simp] theorem presentNext_src (cmd : Cmd) (s : State) : (presentNext cmd s).src = s.src := rfl
@[simp] theorem presentNext_snk (cmd : Cmd) (s : State) : (presentNext cmd s).snk = s.snk := rfl
@[simp] theorem presentNext_out (cmd : Cmd) (s : State) : (presentNext cmd s).out = s.out := rfl
@[simp] theorem presentNext_params (cmd : Cmd) (s : State) : (presentNext cmd s).params = s.params := rfl
@[simp] theorem presentNext_srcEpoch (cmd : Cmd) (s : State) : (presentNext cmd s).srcEpoch = s.srcEpoch := rfl
@[simp] theorem presentNext_port (cmd : Cmd) (s : State) : (presentNext cmd s).port = .command cmd :: s.port := rfl

/-! ### beginState -/

@[simp] theorem beginState_phase (s : State) : (beginState s).phase = beginPhase s.cfg.dir := rfl
@[simp] theorem beginState_cfg (s : State) : (beginState s).cfg = s.cfg := rfl
@[simp] theorem beginState_key (s : State) : (beginState s).key = s.key := rfl
@[simp] theorem beginState_srcLen (s : State) : (beginState s).srcLen = s.srcLen := rfl
@[simp] theorem beginState_w (s : State) : (beginState s).w = wmin s.cfg := rfl
@[simp] theorem beginState_dsize (s : State) : (beginState s).dsize = Config.base := rfl
@[simp] theorem beginState_dict (s : State) : (beginState s).dict = [] := rfl
@[simp] theorem beginState_cand (s : State) : (beginState s).cand = [] := rfl
@[simp] theorem beginState_dstate (s : State) : (beginState s).dstate = .prime := rfl
@[simp] theorem beginState_cur (s : State) : (beginState s).cur = 0 := rfl
@[simp] theorem beginState_wbuf (s : State) : (beginState s).wbuf = [] := rfl
@[simp] theorem beginState_rbuf (s : State) : (beginState s).rbuf = [] := rfl
@[simp] theorem beginState_prng (s : State) : (beginState s).prng = prngSeed s.params s.key := rfl
@[simp] theorem beginState_eos (s : State) : (beginState s).eos = false := rfl
@[simp] theorem beginState_srcPos (s : State) : (beginState s).srcPos = 0 := rfl
@[simp] theorem beginState_snkLen (s : State) : (beginState s).snkLen = 0 := rfl
@[simp] theorem beginState_outLen (s : State) : (beginState s).outLen = 0 := rfl
@[simp] theorem beginState_result (s : State) : (beginState s).result = 0 := rfl
@[simp] theorem beginState_err (s : State) : (beginState s).err = s.err := rfl
@[simp] theorem beginState_errinfo (s : State) : (beginState s).errinfo = s.errinfo := rfl
@[simp] theorem beginState_src (s : State) : (beginState s).src = s.src := rfl
@[simp] theorem beginState_snk (s : State) : (beginState s).snk = [] := rfl
@[simp] theorem beginState_out (s : State) : (beginState s).out = [] := rfl
@[simp] theorem beginState_params (s : State) : (beginState s).params = s.params := rfl
@[simp] theorem beginState_srcEpoch (s : State) : (beginState s).srcEpoch = s.srcEpoch := rfl
@[simp] theorem beginState_port (s : State) : (beginState s).port = s.port := rfl

/-! ### softReset -/

@[simp] theorem softReset_phase (s : State) : (softReset s).phase = State.reset.phase := rfl
@[simp] theorem softReset_cfg (s : State) : (softReset s).cfg = State.reset.cfg := rfl
@[simp] theorem softReset_key (s : State) : (softReset s).key = State.reset.key := rfl
@[simp] theorem softReset_srcLen (s : State) : (softReset s).srcLen = State.reset.srcLen := rfl
@[simp] theorem softReset_w (s : State) : (softReset s).w = State.reset.w := rfl
@[simp] theorem softReset_dsize (s : State) : (softReset s).dsize = State.reset.dsize := rfl
@[simp] theorem softReset_dict (s : State) : (softReset s).dict = State.reset.dict := rfl
@[simp] theorem softReset_cand (s : State) : (softReset s).cand = State.reset.cand := rfl
@[simp] theorem softReset_dstate (s : State) : (softReset s).dstate = State.reset.dstate := rfl
@[simp] theorem softReset_cur (s : State) : (softReset s).cur = State.reset.cur := rfl
@[simp] theorem softReset_wbuf (s : State) : (softReset s).wbuf = State.reset.wbuf := rfl
@[simp] theorem softReset_rbuf (s : State) : (softReset s).rbuf = State.reset.rbuf := rfl
@[simp] theorem softReset_prng (s : State) : (softReset s).prng = prngSeed s.params 0 := rfl
@[simp] theorem softReset_eos (s : State) : (softReset s).eos = State.reset.eos := rfl
@[simp] theorem softReset_srcPos (s : State) : (softReset s).srcPos = State.reset.srcPos := rfl
@[simp] theorem softReset_snkLen (s : State) : (softReset s).snkLen = State.reset.snkLen := rfl
@[simp] theorem softReset_outLen (s : State) : (softReset s).outLen = State.reset.outLen := rfl
@[simp] theorem softReset_result (s : State) : (softReset s).result = State.reset.result := rfl
@[simp] theorem softReset_err (s : State) : (softReset s).err = State.reset.err := rfl
@[simp] theorem softReset_errinfo (s : State) : (softReset s).errinfo = State.reset.errinfo := rfl
@[simp] theorem softReset_src (s : State) : (softReset s).src = s.src := rfl
@[simp] theorem softReset_snk (s : State) : (softReset s).snk = State.reset.snk := rfl
@[simp] theorem softReset_out (s : State) : (softReset s).out = State.reset.out := rfl
@[simp] theorem softReset_params (s : State) : (softReset s).params = s.params := rfl
@[simp] theorem softReset_srcEpoch (s : State) : (softReset s).srcEpoch = s.srcEpoch := rfl
@[simp] theorem softReset_port (s : State) : (softReset s).port = s.port := rfl

/-! ### hardReset -/

@[simp] theorem hardReset_phase (s : State) : (hardReset s).phase = State.reset.phase := rfl
@[simp] theorem hardReset_cfg (s : State) : (hardReset s).cfg = State.reset.cfg := rfl
@[simp] theorem hardReset_key (s : State) : (hardReset s).key = State.reset.key := rfl
@[simp] theorem hardReset_srcLen (s : State) : (hardReset s).srcLen = State.reset.srcLen := rfl
@[simp] theorem hardReset_w (s : State) : (hardReset s).w = State.reset.w := rfl
@[simp] theorem hardReset_dsize (s : State) : (hardReset s).dsize = State.reset.dsize := rfl
@[simp] theorem hardReset_dict (s : State) : (hardReset s).dict = State.reset.dict := rfl
@[simp] theorem hardReset_cand (s : State) : (hardReset s).cand = State.reset.cand := rfl
@[simp] theorem hardReset_dstate (s : State) : (hardReset s).dstate = State.reset.dstate := rfl
@[simp] theorem hardReset_cur (s : State) : (hardReset s).cur = State.reset.cur := rfl
@[simp] theorem hardReset_wbuf (s : State) : (hardReset s).wbuf = State.reset.wbuf := rfl
@[simp] theorem hardReset_rbuf (s : State) : (hardReset s).rbuf = State.reset.rbuf := rfl
@[simp] theorem hardReset_prng (s : State) : (hardReset s).prng = prngSeed s.params 0 := rfl
@[simp] theorem hardReset_eos (s : State) : (hardReset s).eos = State.reset.eos := rfl
@[simp] theorem hardReset_srcPos (s : State) : (hardReset s).srcPos = State.reset.srcPos := rfl
@[simp] theorem hardReset_snkLen (s : State) : (hardReset s).snkLen = State.reset.snkLen := rfl
@[simp] theorem hardReset_outLen (s : State) : (hardReset s).outLen = State.reset.outLen := rfl
@[simp] theorem hardReset_result (s : State) : (hardReset s).result = State.reset.result := rfl
@[simp] theorem hardReset_err (s : State) : (hardReset s).err = State.reset.err := rfl
@[simp] theorem hardReset_errinfo (s : State) : (hardReset s).errinfo = State.reset.errinfo := rfl
@[simp] theorem hardReset_src (s : State) : (hardReset s).src = [] := rfl
@[simp] theorem hardReset_snk (s : State) : (hardReset s).snk = State.reset.snk := rfl
@[simp] theorem hardReset_out (s : State) : (hardReset s).out = State.reset.out := rfl
@[simp] theorem hardReset_params (s : State) : (hardReset s).params = s.params := rfl
@[simp] theorem hardReset_srcEpoch (s : State) : (hardReset s).srcEpoch = s.srcEpoch + 1 := rfl
@[simp] theorem hardReset_port (s : State) : (hardReset s).port = s.port := rfl

end Sys2Proof.Machine
end

