-- ==== Sys2Proof/Laws/Res.lean ====
section
/-!
SUPPORT. How a piece of pseudocode can end, as a postcondition: `Res.Post D R S` says that a normal end meets `D`, a
raised fault meets `R`, and a stop of the model is possible only if `S`.
-/

namespace Sys2Proof.Machine

variable {α β : Type}

/-- The postcondition of a piece of pseudocode. -/
def Res.Post (D : α → State → Prop) (R : State → Prop) (S : Prop) (x : Res α) : Prop :=
  match x with
  | .done a s => D a s
  | .raised s => R s
  | .stop _ => S

@[simp] theorem Res.post_done (D : α → State → Prop) (R : State → Prop) (S : Prop) (a : α) (s : State) :
    Res.Post D R S (.done a s) = D a s := rfl
@[simp] theorem Res.post_raised (D : α → State → Prop) (R : State → Prop) (S : Prop) (s : State) :
    Res.Post D R S (.raised s : Res α) = R s := rfl
@[simp] theorem Res.post_stop (D : α → State → Prop) (R : State → Prop) (S : Prop) (r : Fault) :
    Res.Post D R S (.stop r : Res α) = S := rfl

@[simp] theorem Res.bind_done (a : α) (s : State) (f : α → State → Res β) : (Res.done a s).bind f = f a s := rfl
@[simp] theorem Res.bind_raised (s : State) (f : α → State → Res β) : (Res.raised s).bind f = .raised s := rfl
@[simp] theorem Res.bind_stop (r : Fault) (f : α → State → Res β) : (Res.stop r).bind f = .stop r := rfl

@[simp] theorem Res.outcome_done (a : α) (s : State) : (Res.done a s).outcome = .next s := rfl
@[simp] theorem Res.outcome_raised (s : State) : (Res.raised s : Res α).outcome = .next s := rfl
@[simp] theorem Res.outcome_stop (r : Fault) : (Res.stop r : Res α).outcome = .fault r := rfl

/-- Sequencing: what follows runs in the states the first part can leave. -/
theorem Res.post_bind (D : β → State → Prop) (R : State → Prop) (S : Prop) (x : Res α) (f : α → State → Res β) :
    Res.Post D R S (x.bind f) ↔ Res.Post (fun a s => Res.Post D R S (f a s)) R S x := by
  cases x <;> rfl

theorem Res.Post.mono {D D' : α → State → Prop} {R R' : State → Prop} {S S' : Prop} {x : Res α}
    (h : Res.Post D R S x) (hD : ∀ a s, D a s → D' a s) (hR : ∀ s, R s → R' s) (hS : S → S') : Res.Post D' R' S' x := by
  cases x with
  | done a s => exact hD a s h
  | raised s => exact hR s h
  | stop r => exact hS h

theorem Res.Post.bind {D : α → State → Prop} {D' : β → State → Prop} {R R' : State → Prop} {S S' : Prop} {x : Res α}
    {f : α → State → Res β} (h : Res.Post D R S x) (hf : ∀ a s, D a s → Res.Post D' R' S' (f a s))
    (hR : ∀ s, R s → R' s) (hS : S → S') : Res.Post D' R' S' (x.bind f) := by
  cases x with
  | done a s => exact hf a s h
  | raised s => exact hR s h
  | stop r => exact hS h

theorem Res.Post.and {D D' : α → State → Prop} {R R' : State → Prop} {S S' : Prop} {x : Res α}
    (h : Res.Post D R S x) (h' : Res.Post D' R' S' x) :
    Res.Post (fun a s => D a s ∧ D' a s) (fun s => R s ∧ R' s) (S ∧ S') x := by
  cases x with
  | done a s => exact ⟨h, h'⟩
  | raised s => exact ⟨h, h'⟩
  | stop r => exact ⟨h, h'⟩

/-- The end of a command that answers a next state. -/
theorem Res.Post.of_next {D : α → State → Prop} {R : State → Prop} {S : Prop} {x : Res α} {t : State}
    (h : Res.Post D R S x) (hx : x.outcome = .next t) : (∃ a, D a t) ∨ R t := by
  cases x with
  | done a s => cases hx; exact .inl ⟨a, h⟩
  | raised s => cases hx; exact .inr h
  | stop r => cases hx

/-- A piece of pseudocode that the model does not stop in answers a next state. -/
theorem Res.Post.completes {D : α → State → Prop} {R : State → Prop} {x : Res α} (h : Res.Post D R False x) :
    ∃ t, x.outcome = .next t ∧ ((∃ a, D a t) ∨ R t) := by
  cases x with
  | done a s => exact ⟨s, rfl, .inl ⟨a, h⟩⟩
  | raised s => exact ⟨s, rfl, .inr h⟩
  | stop r => exact h.elim

/-! ### Accepting a command (40_control R90) -/

variable {opc : Byte} {legal : List Phase} {body : State → Res Unit} {s : State}

theorem accept_err (h : s.phase = .err) : accept opc legal body s = .next s := by simp [accept, h]

theorem accept_legal (hl : s.phase ∈ legal) (h : s.phase ≠ .err) : accept opc legal body s = (body s).outcome := by
  simp [accept, hl, h]

theorem accept_illegal (hl : s.phase ∉ legal) (h : s.phase ≠ .err) :
    accept opc legal body s = .next (raise .seq (opc.zeroExtend 32) s) := by
  simp [accept, hl, h]

/-- Everything an accepted word can do. -/
theorem accept_cases {D : Unit → State → Prop} {R : State → Prop} {S : Prop} {t : State}
    (h : accept opc legal body s = .next t)
    (hb : s.phase ≠ .err → s.phase ∈ legal → Res.Post D R S (body s)) :
    (s.phase = .err ∧ t = s) ∨ (s.phase ≠ .err ∧ s.phase ∉ legal ∧ t = raise .seq (opc.zeroExtend 32) s) ∨
      (s.phase ≠ .err ∧ s.phase ∈ legal ∧ (D () t ∨ R t)) := by
  by_cases he : s.phase = .err
  · rw [accept_err he] at h
    cases h
    exact .inl ⟨he, rfl⟩
  · by_cases hl : s.phase ∈ legal
    · rw [accept_legal hl he] at h
      refine .inr (.inr ⟨he, hl, ?_⟩)
      rcases (hb he hl).of_next h with ⟨_, h⟩ | h
      · exact .inl h
      · exact .inr h
    · rw [accept_illegal hl he] at h
      cases h
      exact .inr (.inl ⟨he, hl, rfl⟩)

/-- A word whose pseudocode the model does not stop in answers a next state. -/
theorem accept_completes {D : Unit → State → Prop} {R : State → Prop}
    (hb : s.phase ≠ .err → s.phase ∈ legal → Res.Post D R False (body s)) : ∃ t, accept opc legal body s = .next t := by
  by_cases he : s.phase = .err
  · exact ⟨_, accept_err he⟩
  · by_cases hl : s.phase ∈ legal
    · rw [accept_legal hl he]
      obtain ⟨t, ht, _⟩ := (hb he hl).completes
      exact ⟨t, ht⟩
    · exact ⟨_, accept_illegal hl he⟩

end Sys2Proof.Machine
end

