-- ==== Sys2Proof/Laws/Commands.lean ====
section
/-!
SUPPORT. What the dispatch does, said once for all commands: SRST apart, a command is its pseudocode behind the
acceptance sequence (40_control R90, R97).
-/

namespace Sys2Proof.Machine

/-- The pseudocode of a command (40_control R90 step 4). -/
def commandBody : Instr → State → Res Unit
  | .nop, s => .done () s
  | .setcfg opd, s => setcfgBody opd s
  | .setkey k, s => .done () { s with key := k }
  | .setsrclen n, s => setsrclenBody n s
  | .beginOp, s => .done () (beginState s)
  | .srst, s => .done () (softReset s)
  | .hdrb b, s => wrHdr b s
  | .sym c, s => symBody c s
  | .eofile, s => eofileBody s
  | .finish, s => finishBody s
  | .hdrrd, s => hdrrdBody s
  | .dstep, s => dstepBody s

variable {s t : State} {i : Instr}

theorem exec_srst (s : State) : exec .srst s = .next (softReset s) := rfl

/-- Every command but SRST is accepted or turned away as 40_control R90 says. -/
theorem exec_eq (h : i ≠ .srst) : exec i s = accept i.opc (legalPhases i) (commandBody i) s := by
  cases i <;> first | rfl | exact absurd rfl h

theorem exec_err (h : i ≠ .srst) (he : s.phase = .err) : exec i s = .next s := by rw [exec_eq h, accept_err he]

theorem exec_illegal (he : s.phase ≠ .err) (hl : s.phase ∉ legalPhases i) :
    exec i s = .next (raise .seq (i.opc.zeroExtend 32) s) := by
  have h : i ≠ .srst := by
    rintro rfl
    cases hp : s.phase <;> simp_all [legalPhases]
  rw [exec_eq h, accept_illegal hl he]

theorem exec_legal (hl : s.phase ∈ legalPhases i) : exec i s = (commandBody i s).outcome := by
  have he : s.phase ≠ .err := by
    intro he
    rw [he] at hl
    cases i <;> simp [legalPhases] at hl
  by_cases h : i = .srst
  · subst h
    rfl
  · rw [exec_eq h, accept_legal hl he]

/-- Everything a command can do. -/
theorem exec_cases {D : Unit → State → Prop} {R : State → Prop} {S : Prop} (h : exec i s = .next t)
    (hb : s.phase ∈ legalPhases i → Res.Post D R S (commandBody i s)) :
    (i ≠ .srst ∧ s.phase = .err ∧ t = s) ∨
      (s.phase ≠ .err ∧ s.phase ∉ legalPhases i ∧ t = raise .seq (i.opc.zeroExtend 32) s) ∨
      (i = .srst ∧ t = softReset s) ∨ (s.phase ≠ .err ∧ s.phase ∈ legalPhases i ∧ (D () t ∨ R t)) := by
  by_cases hi : i = .srst
  · subst hi
    cases h
    exact .inr (.inr (.inl ⟨rfl, rfl⟩))
  · rw [exec_eq hi] at h
    rcases accept_cases h (fun _ hl => hb hl) with ⟨h1, h2⟩ | h | h
    · exact .inl ⟨hi, h1, h2⟩
    · exact .inr (.inl h)
    · exact .inr (.inr (.inr h))

end Sys2Proof.Machine
end

