-- ==== Sys2Proof/Laws/Store.lean ====
section
/-!
SUPPORT. The laws of a store: a read after a write, and that a write keeps the canonical form.
-/

namespace Sys2Proof.Machine

variable {α : Type}

theorem Store.read_write (m : Store α) (a b : Nat) (x : α) :
    Store.read (Store.write m a x) b = if a = b then some x else Store.read m b := by
  induction m with
  | nil => simp [Store.write, Store.read]
  | cons e rest ih =>
    obtain ⟨k, v⟩ := e
    rcases Nat.lt_trichotomy a k with h | rfl | h
    · simp [Store.write, Store.read, h]
    · by_cases hb : a = b <;> simp [Store.write, Store.read, hb]
    · have h1 : ¬ a < k := by omega
      have h2 : a ≠ k := by omega
      simp only [Store.write, Store.read, if_neg h1, if_neg h2, ih]
      by_cases hk : k = b
      · have hab : a ≠ b := by omega
        simp [hk, hab]
      · simp [hk]

@[simp] theorem Store.read_write_same (m : Store α) (a : Nat) (x : α) : Store.read (Store.write m a x) a = some x := by
  simp [Store.read_write]

theorem Store.read_write_other (m : Store α) {a b : Nat} (x : α) (h : a ≠ b) :
    Store.read (Store.write m a x) b = Store.read m b := by
  simp [Store.read_write, h]

/-- A store is canonical when its tail is and its first key is below every key of the tail. -/
theorem Store.wf_cons (a : Nat) (x : α) (rest : Store α) :
    Store.wf ((a, x) :: rest) = true ↔ (∀ e ∈ rest, a < e.1) ∧ Store.wf rest = true := by
  induction rest generalizing a x with
  | nil => simp [Store.wf]
  | cons e rest ih =>
    obtain ⟨b, y⟩ := e
    have hb := ih b y
    simp only [Store.wf, Bool.and_eq_true, decide_eq_true_eq] at hb ⊢
    constructor
    · rintro ⟨hab, hw⟩
      refine ⟨fun e he => ?_, hw⟩
      rcases List.mem_cons.1 he with rfl | he
      · exact hab
      · exact Nat.lt_trans hab ((hb.1 hw).1 e he)
    · rintro ⟨hall, hw⟩
      exact ⟨hall (b, y) (by simp), hw⟩

theorem Store.mem_write {m : Store α} {a : Nat} {x : α} {e : Nat × α} (h : e ∈ Store.write m a x) :
    e = (a, x) ∨ e ∈ m := by
  induction m with
  | nil => simpa [Store.write] using h
  | cons f rest ih =>
    obtain ⟨k, v⟩ := f
    unfold Store.write at h
    split at h
    · simpa using h
    · split at h
      · rcases List.mem_cons.1 h with h | h
        · exact .inl h
        · exact .inr (List.mem_cons_of_mem _ h)
      · rcases List.mem_cons.1 h with h | h
        · exact .inr (h ▸ List.mem_cons_self ..)
        · exact (ih h).imp id (List.mem_cons_of_mem _)

/-- A write keeps the canonical form. -/
theorem Store.wf_write (m : Store α) (a : Nat) (x : α) (h : Store.wf m = true) : Store.wf (Store.write m a x) = true := by
  induction m with
  | nil => simp [Store.write, Store.wf]
  | cons e rest ih =>
    obtain ⟨k, v⟩ := e
    have hk := (Store.wf_cons k v rest).1 h
    unfold Store.write
    split
    · rename_i hlt
      refine (Store.wf_cons _ _ _).2 ⟨fun e he => ?_, h⟩
      rcases List.mem_cons.1 he with rfl | he
      · exact hlt
      · exact Nat.lt_trans hlt (hk.1 e he)
    · split
      · rename_i _ heq
        subst heq
        exact (Store.wf_cons _ _ _).2 hk
      · refine (Store.wf_cons _ _ _).2 ⟨fun e he => ?_, ih hk.2⟩
        rcases Store.mem_write he with rfl | he
        · simp only; omega
        · exact hk.1 e he

/-- In a canonical store every listed pair is what a read of its key gives. -/
theorem Store.read_of_mem {m : Store α} (h : Store.wf m = true) {a : Nat} {x : α} (hm : (a, x) ∈ m) :
    Store.read m a = some x := by
  induction m with
  | nil => simp at hm
  | cons e rest ih =>
    obtain ⟨k, v⟩ := e
    have hk := (Store.wf_cons k v rest).1 h
    rcases List.mem_cons.1 hm with heq | hm
    · simp only [Prod.mk.injEq] at heq
      simp [Store.read, heq.1, heq.2]
    · have := hk.1 _ hm
      have hne : k ≠ a := by simp only at this; omega
      simp [Store.read, hne, ih hk.2 hm]

/-- What a read gives is listed. -/
theorem Store.mem_of_read {m : Store α} {a : Nat} {x : α} (h : Store.read m a = some x) : (a, x) ∈ m := by
  induction m with
  | nil => simp [Store.read] at h
  | cons e rest ih =>
    obtain ⟨k, v⟩ := e
    unfold Store.read at h
    split at h
    · rename_i hk
      simp only [Option.some.injEq] at h
      simp [hk, h]
    · exact List.mem_cons_of_mem _ (ih h)

theorem Store.writeAll_append (m : Store α) (a : Nat) (xs ys : List α) :
    Store.writeAll m a (xs ++ ys) = Store.writeAll (Store.writeAll m a xs) (a + xs.length) ys := by
  induction xs generalizing m a with
  | nil => rfl
  | cons x xs ih =>
    simp only [List.cons_append, Store.writeAll, ih, List.length_cons]
    rw [show a + 1 + xs.length = a + (xs.length + 1) by omega]

/-- What a store holds after values were written at an index and the ones after it. -/
theorem Store.read_writeAll (m : Store α) (a : Nat) (xs : List α) (b : Nat) :
    Store.read (Store.writeAll m a xs) b = if a ≤ b ∧ b < a + xs.length then xs[b - a]? else Store.read m b := by
  induction xs generalizing m a with
  | nil => simp [Store.writeAll]
  | cons x xs ih =>
    rw [Store.writeAll, ih, Store.read_write]
    by_cases h1 : a = b
    · subst h1
      simp
    · by_cases h2 : a + 1 ≤ b ∧ b < a + 1 + xs.length
      · rw [if_pos h2, if_pos (by simp only [List.length_cons]; omega), show b - a = (b - (a + 1)) + 1 by omega,
          List.getElem?_cons_succ]
      · rw [if_neg h2, if_neg h1, if_neg (by simp only [List.length_cons]; omega)]

/-- The elements below the length, after an append of values at the length: the old ones and the new. -/
theorem Store.range_writeAll (m : Store α) (n : Nat) (xs : List α) (d : α) :
    ((List.range (n + xs.length)).map fun i => (Store.read (Store.writeAll m n xs) i).getD d) =
      ((List.range n).map fun i => (Store.read m i).getD d) ++ xs := by
  rw [List.range_add, List.map_append, List.map_map]
  congr 1
  · refine List.map_congr_left fun i hi => ?_
    rw [Store.read_writeAll, if_neg (by have := List.mem_range.1 hi; omega)]
  · refine List.ext_getElem (by simp) fun i h1 h2 => ?_
    simp only [List.length_map, List.length_range] at h1
    simp [Store.read_writeAll, h1]

end Sys2Proof.Machine
end

