-- ==== Sys2Proof/Laws/WriteChain.lean ====
section
/-!
SUPPORT. The write side of the chain, cipher to packer to transcoder to SNK (43, 41, 42): what it can change at all
(`Wrote`, with no premise), and what it does when SNK has room (the packed stream grows by exactly the unit written).
-/

namespace Sys2Proof.Machine

/-! ### Frame -/

/-- `t` comes from `s` by appending to SNK, with WBUF and PRNG the only registers that may differ besides SNK_LEN. -/
structure Wrote (s t : State) : Prop where
  frame : t = { s with wbuf := t.wbuf, prng := t.prng, snk := t.snk, snkLen := t.snkLen }
  grows : s.snkLen ≤ t.snkLen
  kept : ∀ a, a < s.snkLen ∨ t.snkLen ≤ a → Store.read (α := Byte) t.snk a = Store.read (α := Byte) s.snk a
  dom : (∀ i, (Store.read (α := Byte) s.snk i).isSome = true ↔ i < s.snkLen) →
    ∀ i, (Store.read (α := Byte) t.snk i).isSome = true ↔ i < t.snkLen
  cap : s.snkLen ≤ s.params.snkCap.toNat → t.snkLen ≤ s.params.snkCap.toNat
  wf : Store.wf (α := Byte) s.snk = true → Store.wf (α := Byte) t.snk = true
  prngLt : s.params.prng = .lcg32 → s.prng < 2 ^ 32 → t.prng < 2 ^ 32

namespace Wrote

variable {s t u : State}

theorem phase (h : Wrote s t) : t.phase = s.phase := (congrArg (fun u : State => u.phase) h.frame :)
theorem cfg (h : Wrote s t) : t.cfg = s.cfg := (congrArg (fun u : State => u.cfg) h.frame :)
theorem w (h : Wrote s t) : t.w = s.w := (congrArg (fun u : State => u.w) h.frame :)
theorem dsize (h : Wrote s t) : t.dsize = s.dsize := (congrArg (fun u : State => u.dsize) h.frame :)
theorem dict (h : Wrote s t) : t.dict = s.dict := (congrArg (fun u : State => u.dict) h.frame :)
theorem cand (h : Wrote s t) : t.cand = s.cand := (congrArg (fun u : State => u.cand) h.frame :)
theorem params (h : Wrote s t) : t.params = s.params := (congrArg (fun u : State => u.params) h.frame :)

theorem refl (s : State) : Wrote s s where
  frame := rfl
  grows := le_rfl
  kept _ _ := rfl
  dom h := h
  cap h := h
  wf h := h
  prngLt _ h := h

theorem trans (h : Wrote s t) (k : Wrote t u) : Wrote s u where
  frame := by
    have h1 := h.frame
    have h2 := k.frame
    rw [h1] at h2
    exact h2
  grows := h.grows.trans k.grows
  kept a ha := by
    have h1 := h.grows
    have h2 := k.grows
    rw [k.kept a (by omega), h.kept a (by omega)]
  dom hd := k.dom (h.dom hd)
  cap hc := by
    have := k.cap (by rw [h.params]; exact h.cap hc)
    rwa [h.params] at this
  wf hw := k.wf (h.wf hw)
  prngLt hp hl := k.prngLt (by rw [h.params]; exact hp) (h.prngLt hp hl)

/-- Replacing WBUF is within the frame. -/
theorem setWbuf (s : State) (b : Bits) : Wrote s { s with wbuf := b } where
  frame := rfl
  grows := le_rfl
  kept _ _ := rfl
  dom h := h
  cap h := h
  wf h := h
  prngLt _ h := h

end Wrote

/-- E_OVF(0) raised after some appends. -/
def SnkOverflow (s t : State) : Prop := ∃ u, Wrote s u ∧ t = raise .ovf 0 u

theorem SnkOverflow.after {s u t : State} (h : Wrote s u) (k : SnkOverflow u t) : SnkOverflow s t := by
  obtain ⟨v, hv, ht⟩ := k
  exact ⟨v, h.trans hv, ht⟩

/-- What a write-side primitive may do: normal ends meet `P` besides the frame. -/
abbrev WritePost (s : State) (P : State → Prop) (x : Res Unit) : Prop :=
  Res.Post (fun _ t => Wrote s t ∧ P t) (SnkOverflow s) False x

theorem WritePost.bind {s : State} {P Q : State → Prop} {x : Res Unit} {f : Unit → State → Res Unit}
    (h : WritePost s P x) (hf : ∀ t, Wrote s t → P t → WritePost t Q (f () t)) : WritePost s Q (x.bind f) := by
  refine Res.Post.bind h (fun _ t ht => ?_) (fun _ h => h) id
  exact (hf t ht.1 ht.2).mono (fun _ u hu => ⟨ht.1.trans hu.1, hu.2⟩) (fun _ hr => hr.after ht.1) id

theorem WritePost.from {s u : State} {P : State → Prop} {x : Res Unit} (h : Wrote s u) (k : WritePost u P x) :
    WritePost s P x :=
  k.mono (fun _ _ hu => ⟨h.trans hu.1, hu.2⟩) (fun _ hr => hr.after h) id

theorem WritePost.weaken {s : State} {P Q : State → Prop} {x : Res Unit} (h : WritePost s P x) (hPQ : ∀ t, P t → Q t) :
    WritePost s Q x :=
  h.mono (fun _ _ hu => ⟨hu.1, hPQ _ hu.2⟩) (fun _ hr => hr) id

theorem snkAppend_post (b : Byte) (s : State) : WritePost s (fun t => t.wbuf = s.wbuf) (snkAppend b s) := by
  unfold snkAppend
  split
  · exact ⟨s, Wrote.refl s, rfl⟩
  · rename_i hne
    refine ⟨⟨rfl, by simp, fun a ha => ?_, fun hd i => ?_, fun hc => ?_, fun hw => Store.wf_write _ _ _ hw,
      fun _ h => h⟩, rfl⟩
    · simp only at ha
      exact Store.read_write_other _ _ (by omega)
    · simp only [Store.read_write]
      by_cases hi : s.snkLen = i
      · subst hi
        simp
      · rw [if_neg hi, hd i]
        omega
    · simp only
      omega

theorem emitGroup_post (g : Nat) (s : State) : WritePost s (fun t => t.wbuf = s.wbuf) (emitGroup g s) := by
  unfold emitGroup
  split
  · exact snkAppend_post _ s
  · refine (snkAppend_post _ s).bind fun t _ ht => ?_
    exact (snkAppend_post _ t).weaken fun u hu => hu.trans ht
  · exact snkAppend_post _ s

theorem groupSize_bounds (c : Cfg) : 6 ≤ groupSize c ∧ groupSize c ≤ 8 := by
  unfold groupSize
  split <;> simp

theorem emitFull_post (rounds : Nat) (s : State) (hr : s.wbuf.length ≤ rounds) :
    WritePost s (fun t => t.wbuf.length < groupSize s.cfg) (emitFull rounds s) := by
  have hG := groupSize_bounds s.cfg
  induction rounds generalizing s with
  | zero => exact ⟨Wrote.refl s, by omega⟩
  | succ n ih =>
    unfold emitFull
    split
    · have hw := Wrote.setWbuf s (s.wbuf.drop (groupSize s.cfg))
      refine WritePost.bind ((emitGroup_post _ _).from hw) fun t ht hwb => ?_
      have hlen : t.wbuf.length ≤ n := by
        rw [hwb]
        simp only [List.length_drop]
        omega
      rw [← ht.cfg]
      exact ih t hlen (by rw [ht.cfg]; exact hG)
    · exact ⟨Wrote.refl s, by simp only; omega⟩

theorem writeBits_post (v n : Nat) (s : State) :
    WritePost s (fun t => t.wbuf.length < groupSize s.cfg) (writeBits v n s) := by
  unfold writeBits
  exact (emitFull_post _ _ (by simp)).from (Wrote.setWbuf s _)

theorem finalize_post (s : State) : WritePost s (fun t => t.wbuf = []) (finalize s) := by
  unfold finalize
  split
  · refine WritePost.bind ((emitGroup_post _ _).from (Wrote.setWbuf s _)) fun t ht _ => ?_
    exact ⟨Wrote.setWbuf t _, rfl⟩
  · rename_i h
    exact ⟨Wrote.refl s, List.length_eq_zero_iff.1 (by omega)⟩

theorem lcgNext_lt (st : Nat) : lcgNext st < 2 ^ 32 := Nat.mod_lt _ (by decide)

/-- A draw is within the frame. -/
theorem Wrote.draw (s : State) : Wrote s (draw s).2 where
  frame := rfl
  grows := le_rfl
  kept _ _ := rfl
  dom h := h
  cap h := h
  wf h := h
  prngLt hp _ := by
    simp only [Machine.draw, prngNext, hp]
    exact lcgNext_lt _

theorem wrCode_post (c w : Nat) (s : State) :
    WritePost s (fun t => t.wbuf.length < groupSize s.cfg) (wrCode c w s) := by
  unfold wrCode
  split
  · exact (writeBits_post _ _ _).from (Wrote.draw s)
  · exact writeBits_post _ _ s

theorem wrHdr_post (b : Byte) (s : State) :
    WritePost s (fun t => t.wbuf.length < groupSize s.cfg) (wrHdr b s) := by
  unfold wrHdr
  split
  · exact (writeBits_post _ _ _).from (Wrote.draw s)
  · exact writeBits_post _ _ s

/-! ### The exact effect: SNK grows by the text of the whole groups, or fills (41_bitcodestream R110) -/

theorem hexVal_hexChar {x : Nat} (h : x < 16) : hexVal (hexChar x) = some x := by
  revert x; decide

theorem b64Val_b64Char {x : Nat} (h : x < 64) : b64Val (b64Char x) = some x := by
  revert x; decide

theorem groupText_length (c : Cfg) (g : Nat) : (groupText c.text g).length = groupCost c := by
  unfold groupText groupCost
  cases c.text <;> rfl

theorem groupCost_bounds (c : Cfg) : 1 ≤ groupCost c ∧ groupCost c ≤ 2 := by
  unfold groupCost
  cases c.text <;> simp

@[simp] theorem snkExtend_nil (s : State) : snkExtend [] s = s := rfl

theorem snkExtend_append (as bs : List Byte) (s : State) : snkExtend (as ++ bs) s = snkExtend bs (snkExtend as s) := by
  simp [snkExtend, Store.writeAll_append, Nat.add_assoc]

theorem snkAppend_room (b : Byte) (s : State) (h : s.snkLen < s.params.snkCap.toNat) :
    snkAppend b s = .done () (snkExtend [b] s) := by
  rw [snkAppend, if_neg (by omega)]
  rfl

theorem snkAppend_full (b : Byte) (s : State) (h : s.snkLen = s.params.snkCap.toNat) :
    snkAppend b s = .raised (raise .ovf 0 s) := by
  rw [snkAppend, if_pos h]

/-- One group: its text is appended, or the part of it that fits (42_texttranscoder R120). -/
theorem emitGroup_eq (g : Nat) (s : State) (h : s.snkLen ≤ s.params.snkCap.toNat) :
    emitGroup g s =
      if s.snkLen + groupCost s.cfg ≤ s.params.snkCap.toNat then .done () (snkExtend (groupText s.cfg.text g) s)
      else .raised (raise .ovf 0 (snkExtend ((groupText s.cfg.text g).take (s.params.snkCap.toNat - s.snkLen)) s)) := by
  unfold emitGroup groupText groupCost
  cases htext : s.cfg.text with
  | none =>
    simp only
    split
    · exact snkAppend_room _ s (by omega)
    · rw [snkAppend_full _ s (by omega), show s.params.snkCap.toNat - s.snkLen = 0 by omega]
      rfl
  | base64 =>
    simp only
    split
    · exact snkAppend_room _ s (by omega)
    · rw [snkAppend_full _ s (by omega), show s.params.snkCap.toNat - s.snkLen = 0 by omega]
      rfl
  | hex =>
    simp only
    split
    · rw [snkAppend_room _ s (by omega), Res.bind_done, snkAppend_room _ _ (by simp [snkExtend]; omega),
        ← snkExtend_append]
      rfl
    · by_cases h1 : s.snkLen = s.params.snkCap.toNat
      · rw [snkAppend_full _ s h1, show s.params.snkCap.toNat - s.snkLen = 0 by omega]
        rfl
      · rw [snkAppend_room _ s (by omega), Res.bind_done, snkAppend_full _ _ (by simp [snkExtend]; omega),
          show s.params.snkCap.toNat - s.snkLen = 1 by omega]
        rfl

theorem groupsIn_short {size : Nat} {bits : Bits} (h : bits.length < size) : groupsIn size bits = [] := by
  simp [groupsIn, Nat.div_eq_of_lt h]

theorem groupsIn_cons {size : Nat} {bits : Bits} (hs : 0 < size) (h : size ≤ bits.length) :
    groupsIn size bits = valMSB (bits.take size) :: groupsIn size (bits.drop size) := by
  unfold groupsIn
  rw [Nat.div_eq_sub_div hs h, List.range_succ_eq_map, List.map_cons, List.map_map, List.length_drop]
  simp only [Nat.mul_zero, List.drop_zero, List.cons.injEq, true_and]
  refine List.map_congr_left fun k _ => ?_
  simp only [Function.comp_apply, List.drop_drop, Nat.succ_eq_add_one, Nat.mul_add, Nat.mul_one, Nat.add_comm]

theorem packText_short {c : Cfg} {bits : Bits} (h : bits.length < groupSize c) : packText c bits = [] := by
  simp [packText, groupsIn_short h]

theorem packText_cons {c : Cfg} {bits : Bits} (h : groupSize c ≤ bits.length) :
    packText c bits =
      groupText c.text (valMSB (bits.take (groupSize c))) ++ packText c (bits.drop (groupSize c)) := by
  have := groupSize_bounds c
  simp [packText, groupsIn_cons (show 0 < groupSize c by omega) h]

theorem packText_length (c : Cfg) (bits : Bits) :
    (packText c bits).length = groupCost c * (bits.length / groupSize c) := by
  simp [packText, groupsIn, List.length_flatMap, groupText_length, Function.comp_def, Nat.mul_comm]

theorem packRest_short {c : Cfg} {bits : Bits} (h : bits.length < groupSize c) : packRest c bits = bits := by
  simp [packRest, Nat.div_eq_of_lt h]

theorem packRest_drop {c : Cfg} {bits : Bits} (h : groupSize c ≤ bits.length) :
    packRest c (bits.drop (groupSize c)) = packRest c bits := by
  have := groupSize_bounds c
  unfold packRest
  rw [Nat.div_eq_sub_div (show 0 < groupSize c by omega) h, List.drop_drop, List.length_drop]
  congr 1
  ring

theorem packRest_length (c : Cfg) (bits : Bits) : (packRest c bits).length = bits.length % groupSize c := by
  unfold packRest
  rw [List.length_drop]
  have := Nat.div_add_mod bits.length (groupSize c)
  omega

/-- The packer's loop with room for every whole group of WBUF. -/
theorem emitFull_room (rounds : Nat) (s : State) (hr : s.wbuf.length ≤ rounds)
    (h : s.snkLen + groupCost s.cfg * (s.wbuf.length / groupSize s.cfg) ≤ s.params.snkCap.toNat) :
    emitFull rounds s = .done () { snkExtend (packText s.cfg s.wbuf) s with wbuf := packRest s.cfg s.wbuf } := by
  have hG := groupSize_bounds s.cfg
  induction rounds generalizing s with
  | zero =>
    have hz : s.wbuf.length < groupSize s.cfg := by omega
    rw [packText_short hz, packRest_short hz]
    rfl
  | succ n ih =>
    unfold emitFull
    by_cases hlen : groupSize s.cfg ≤ s.wbuf.length
    · rw [Nat.div_eq_sub_div (by omega) hlen, Nat.mul_add, Nat.mul_one] at h
      rw [if_pos hlen, emitGroup_eq _ _ (by simp only; omega), if_pos (by simp only; omega), Res.bind_done]
      refine (ih (snkExtend (groupText s.cfg.text (valMSB (s.wbuf.take (groupSize s.cfg))))
        { s with wbuf := s.wbuf.drop (groupSize s.cfg) }) (by simp [snkExtend]; omega)
          (by simp only [snkExtend, groupText_length, List.length_drop]; omega) hG).trans ?_
      simp only [snkExtend, packText_cons hlen, packRest_drop hlen, Store.writeAll_append, List.length_append,
        Nat.add_assoc]
    · rw [if_neg hlen, packText_short (by omega), packRest_short (by omega)]
      rfl

/-- The packer's loop without that room: SNK fills. -/
theorem emitFull_full (rounds : Nat) (s : State) (hr : s.wbuf.length ≤ rounds) (hc : s.snkLen ≤ s.params.snkCap.toNat)
    (h : s.params.snkCap.toNat < s.snkLen + groupCost s.cfg * (s.wbuf.length / groupSize s.cfg)) :
    emitFull rounds s =
      .raised (raise .ovf 0
        { snkExtend ((packText s.cfg s.wbuf).take (s.params.snkCap.toNat - s.snkLen)) s with
          wbuf := s.wbuf.drop (groupSize s.cfg * ((s.params.snkCap.toNat - s.snkLen) / groupCost s.cfg + 1)) }) := by
  have hG := groupSize_bounds s.cfg
  have hC := groupCost_bounds s.cfg
  induction rounds generalizing s with
  | zero =>
    have hz : s.wbuf.length / groupSize s.cfg = 0 := Nat.div_eq_of_lt (by omega)
    rw [hz] at h
    omega
  | succ n ih =>
    unfold emitFull
    by_cases hlen : groupSize s.cfg ≤ s.wbuf.length
    · rw [Nat.div_eq_sub_div (by omega) hlen, Nat.mul_add, Nat.mul_one] at h
      rw [if_pos hlen, emitGroup_eq _ _ (by simp only; omega), packText_cons hlen]
      by_cases hroom : s.snkLen + groupCost s.cfg ≤ s.params.snkCap.toNat
      · rw [if_pos (by simpa using hroom), Res.bind_done]
        refine (ih (snkExtend (groupText s.cfg.text (valMSB (s.wbuf.take (groupSize s.cfg))))
          { s with wbuf := s.wbuf.drop (groupSize s.cfg) }) (by simp [snkExtend]; omega)
            (by simp [snkExtend, groupText_length]; exact hroom)
            (by simp only [snkExtend, groupText_length, List.length_drop]; omega) hG hC).trans ?_
        have hsub : s.params.snkCap.toNat - (s.snkLen + groupCost s.cfg) =
            s.params.snkCap.toNat - s.snkLen - groupCost s.cfg := by omega
        have hdiv : (s.params.snkCap.toNat - s.snkLen) / groupCost s.cfg =
            (s.params.snkCap.toNat - s.snkLen - groupCost s.cfg) / groupCost s.cfg + 1 :=
          Nat.div_eq_sub_div (by omega) (by omega)
        have hmul : groupSize s.cfg + groupSize s.cfg *
              ((s.params.snkCap.toNat - s.snkLen - groupCost s.cfg) / groupCost s.cfg + 1) =
            groupSize s.cfg * ((s.params.snkCap.toNat - s.snkLen - groupCost s.cfg) / groupCost s.cfg + 1 + 1) := by
          ring
        simp only [raise, snkExtend, List.take_append, groupText_length, hsub, hdiv, List.drop_drop, hmul,
          Store.writeAll_append, List.length_append, Nat.add_assoc,
          List.take_of_length_le (show (groupText s.cfg.text (valMSB (s.wbuf.take (groupSize s.cfg)))).length ≤
            s.params.snkCap.toNat - s.snkLen by rw [groupText_length]; omega)]
      · rw [if_neg (by simpa using hroom), Res.bind_raised,
          Nat.div_eq_of_lt (show s.params.snkCap.toNat - s.snkLen < groupCost s.cfg by omega),
          List.take_append_of_le_length (by rw [groupText_length]; omega)]
        simp [snkExtend, raise]
    · have hz : s.wbuf.length / groupSize s.cfg = 0 := Nat.div_eq_of_lt (by omega)
      rw [hz] at h
      omega

theorem writeBits_room {v n : Nat} {s : State} (h : snkRoom (unitCost n s) s) :
    writeBits v n s = .done () (pushBits (bitsMSB v n) s) := by
  unfold writeBits
  rw [emitFull_room _ _ (by simp) (by simpa [snkRoom, unitCost] using h)]
  simp only [bitsMSB_mod]
  rfl

theorem writeBits_full {v n : Nat} {s : State} (hc : s.snkLen ≤ s.params.snkCap.toNat)
    (h : ¬ snkRoom (unitCost n s) s) : writeBits v n s = .raised (pushOverflow (bitsMSB v n) s) := by
  unfold writeBits
  rw [bitsMSB_mod]
  exact emitFull_full _ { s with wbuf := s.wbuf ++ bitsMSB v n } (by simp) hc
    (by simpa [snkRoom, unitCost] using h)

/-- With a short WBUF a unit of at most 16 bits takes at most 4 SNK bytes (70_reset R224). -/
theorem unitCost_le {n : Nat} {s : State} (hw : s.wbuf.length < groupSize s.cfg) (hn : n ≤ 16) : unitCost n s ≤ 4 := by
  unfold unitCost groupCost groupSize at *
  cases htext : s.cfg.text <;> simp only [htext] at hw ⊢ <;> omega

/-- Writing a code (43_streamcipher R133). -/
theorem wrCode_room {c w : Nat} {s : State} (h : snkRoom (unitCost w s) s) :
    wrCode c w s = .done () (codeWritten c w s) := by
  unfold wrCode codeWritten storedCode prngAfterCode
  split
  · exact writeBits_room (s := (draw s).2) h
  · exact writeBits_room h

theorem wrCode_full {c w : Nat} {s : State} (hc : s.snkLen ≤ s.params.snkCap.toNat)
    (h : ¬ snkRoom (unitCost w s) s) : wrCode c w s = .raised (codeOverflow c w s) := by
  unfold wrCode codeOverflow storedCode prngAfterCode
  split
  · exact writeBits_full (s := (draw s).2) hc h
  · exact writeBits_full hc h

/-- Writing a header byte (43_streamcipher R135). -/
theorem wrHdr_room {b : Byte} {s : State} (h : snkRoom (unitCost 8 s) s) :
    wrHdr b s = .done () (hdrWritten b s) := by
  unfold wrHdr hdrWritten storedHdr prngAfterHdr hdrDraws
  split
  · exact writeBits_room (s := (draw s).2) h
  · exact writeBits_room h

theorem wrHdr_full {b : Byte} {s : State} (hc : s.snkLen ≤ s.params.snkCap.toNat)
    (h : ¬ snkRoom (unitCost 8 s) s) : wrHdr b s = .raised (hdrOverflow b s) := by
  unfold wrHdr hdrOverflow storedHdr prngAfterHdr hdrDraws
  split
  · exact writeBits_full (s := (draw s).2) hc h
  · exact writeBits_full hc h

/-- The last flush (41_bitcodestream R111) of a short WBUF, with room for a group. -/
theorem finalize_room {s : State} (hw : s.wbuf.length < groupSize s.cfg)
    (h : snkRoom (packText s.cfg (s.wbuf ++ padding s.cfg s.wbuf)).length s) :
    finalize s = .done () { snkExtend (packText s.cfg (s.wbuf ++ padding s.cfg s.wbuf)) s with wbuf := [] } := by
  have hG := groupSize_bounds s.cfg
  unfold finalize
  split
  · rename_i hpos
    have hpad : padding s.cfg s.wbuf = List.replicate (groupSize s.cfg - s.wbuf.length) false := by
      rw [padding, Nat.mod_eq_of_lt hw, Nat.mod_eq_of_lt (by omega)]
    rw [hpad] at h ⊢
    have hlen : (s.wbuf ++ List.replicate (groupSize s.cfg - s.wbuf.length) false).length = groupSize s.cfg := by
      simp; omega
    have hdrop : (s.wbuf ++ List.replicate (groupSize s.cfg - s.wbuf.length) false).drop (groupSize s.cfg) = [] :=
      List.drop_eq_nil_of_le hlen.le
    have htext : packText s.cfg (s.wbuf ++ List.replicate (groupSize s.cfg - s.wbuf.length) false) =
        groupText s.cfg.text (valMSB (s.wbuf ++ List.replicate (groupSize s.cfg - s.wbuf.length) false)) := by
      rw [packText_cons hlen.ge, List.take_of_length_le hlen.le, hdrop, packText_short (by simp; omega), List.append_nil]
    rw [htext, groupText_length] at h
    unfold snkRoom at h
    rw [emitGroup_eq _ _ (by simp only; omega), if_pos (by simpa using h), Res.bind_done, htext]
    rfl
  · rename_i hz
    have hnil : s.wbuf = [] := List.length_eq_zero_iff.1 (by omega)
    rw [hnil, padding, packText_short (by simp; omega), snkExtend_nil]
    simp only [← hnil]

/-- The last flush when SNK has no room for the group. -/
theorem finalize_full {s : State} (hw : s.wbuf.length < groupSize s.cfg) (hc : s.snkLen ≤ s.params.snkCap.toNat)
    (h : ¬ snkRoom (packText s.cfg (s.wbuf ++ padding s.cfg s.wbuf)).length s) :
    finalize s = .raised (raise .ovf 0
      { snkExtend ((packText s.cfg (s.wbuf ++ padding s.cfg s.wbuf)).take (s.params.snkCap.toNat - s.snkLen)) s with
        wbuf := s.wbuf ++ padding s.cfg s.wbuf }) := by
  have hG := groupSize_bounds s.cfg
  unfold finalize
  split
  · rename_i hpos
    have hpad : padding s.cfg s.wbuf = List.replicate (groupSize s.cfg - s.wbuf.length) false := by
      rw [padding, Nat.mod_eq_of_lt hw, Nat.mod_eq_of_lt (by omega)]
    rw [hpad] at h ⊢
    have hlen : (s.wbuf ++ List.replicate (groupSize s.cfg - s.wbuf.length) false).length = groupSize s.cfg := by
      simp; omega
    have hdrop : (s.wbuf ++ List.replicate (groupSize s.cfg - s.wbuf.length) false).drop (groupSize s.cfg) = [] :=
      List.drop_eq_nil_of_le hlen.le
    have htext : packText s.cfg (s.wbuf ++ List.replicate (groupSize s.cfg - s.wbuf.length) false) =
        groupText s.cfg.text (valMSB (s.wbuf ++ List.replicate (groupSize s.cfg - s.wbuf.length) false)) := by
      rw [packText_cons hlen.ge, List.take_of_length_le hlen.le, hdrop, packText_short (by simp; omega), List.append_nil]
    rw [htext, groupText_length] at h
    unfold snkRoom at h
    rw [emitGroup_eq _ _ (by simp only; omega), if_neg (by simpa using h), Res.bind_raised, htext]
    rfl
  · rename_i hz
    have hnil : s.wbuf = [] := List.length_eq_zero_iff.1 (by omega)
    rw [hnil, padding, packText_short (by simp; omega)] at h
    simp [snkRoom] at h
    omega

end Sys2Proof.Machine
end

