-- ==== Sys2Proof/Laws/ReadChain.lean ====
section
/-!
SUPPORT. The read side of the chain, SRC to transcoder to unpacker to cipher (42, 41, 43): what it can change at all
(`Fetched`, with no premise), and what it delivers when SRC holds symbols of the alphabet only (the next unit of the
packed stream, or END).
-/

namespace Sys2Proof.Machine

/-! ### Frame -/

/-- `t` comes from `s` by reading: only RBUF, SRC_POS, EOS and PRNG may differ. -/
structure Fetched (s t : State) : Prop where
  frame : t = { s with rbuf := t.rbuf, srcPos := t.srcPos, eos := t.eos, prng := t.prng }
  advances : s.srcPos ≤ t.srcPos
  within : t.srcPos ≤ max s.srcPos s.srcLen
  sticky : s.eos = true → t.eos = true
  prngLt : s.params.prng = .lcg32 → s.prng < 2 ^ 32 → t.prng < 2 ^ 32

namespace Fetched

variable {s t u : State}

theorem phase (h : Fetched s t) : t.phase = s.phase := (congrArg (fun u : State => u.phase) h.frame :)
theorem cfg (h : Fetched s t) : t.cfg = s.cfg := (congrArg (fun u : State => u.cfg) h.frame :)
theorem w (h : Fetched s t) : t.w = s.w := (congrArg (fun u : State => u.w) h.frame :)
theorem dsize (h : Fetched s t) : t.dsize = s.dsize := (congrArg (fun u : State => u.dsize) h.frame :)
theorem dict (h : Fetched s t) : t.dict = s.dict := (congrArg (fun u : State => u.dict) h.frame :)
theorem cur (h : Fetched s t) : t.cur = s.cur := (congrArg (fun u : State => u.cur) h.frame :)
theorem dstate (h : Fetched s t) : t.dstate = s.dstate := (congrArg (fun u : State => u.dstate) h.frame :)
theorem srcLen (h : Fetched s t) : t.srcLen = s.srcLen := (congrArg (fun u : State => u.srcLen) h.frame :)
theorem params (h : Fetched s t) : t.params = s.params := (congrArg (fun u : State => u.params) h.frame :)
theorem outLen (h : Fetched s t) : t.outLen = s.outLen := (congrArg (fun u : State => u.outLen) h.frame :)
theorem out (h : Fetched s t) : t.out = s.out := (congrArg (fun u : State => u.out) h.frame :)

theorem refl (s : State) : Fetched s s := ⟨rfl, le_rfl, le_max_left _ _, id, fun _ h => h⟩

theorem trans (h : Fetched s t) (k : Fetched t u) : Fetched s u where
  frame := by
    have h1 := h.frame
    have h2 := k.frame
    rw [h1] at h2
    exact h2
  advances := h.advances.trans k.advances
  within := (h.srcLen ▸ k.within).trans (max_le h.within (le_max_right _ _))
  sticky hs := k.sticky (h.sticky hs)
  prngLt hp hl := k.prngLt (by rw [h.params]; exact hp) (h.prngLt hp hl)

theorem setRbuf (s : State) (b : Bits) : Fetched s { s with rbuf := b } :=
  ⟨rfl, le_rfl, le_max_left _ _, id, fun _ h => h⟩

theorem setEos (s : State) : Fetched s { s with eos := true } := ⟨rfl, le_rfl, le_max_left _ _, fun _ => rfl, fun _ h => h⟩

theorem draw (s : State) : Fetched s (draw s).2 where
  frame := rfl
  advances := le_rfl
  within := le_max_left _ _
  sticky := id
  prngLt hp _ := by
    simp only [Machine.draw, prngNext, hp]
    exact lcgNext_lt _

end Fetched

/-- E_BADSYM raised after some reading; ERRINFO is the index of the byte, which SRC_POS points at. -/
def BadSymbol (s t : State) : Prop := ∃ u, Fetched s u ∧ t = raise .badsym (srcPosWord u) u

theorem BadSymbol.after {s u t : State} (h : Fetched s u) (k : BadSymbol u t) : BadSymbol s t := by
  obtain ⟨v, hv, ht⟩ := k
  exact ⟨v, h.trans hv, ht⟩

/-- What a read-side primitive may do: normal ends meet `P` besides the frame. -/
abbrev ReadPost {α : Type} (s : State) (P : α → State → Prop) (x : Res α) : Prop :=
  Res.Post (fun a t => Fetched s t ∧ P a t) (BadSymbol s) False x

theorem ReadPost.bind {α β : Type} {s : State} {P : α → State → Prop} {Q : β → State → Prop} {x : Res α}
    {f : α → State → Res β} (h : ReadPost s P x) (hf : ∀ a t, Fetched s t → P a t → ReadPost t Q (f a t)) :
    ReadPost s Q (x.bind f) := by
  refine Res.Post.bind h (fun a t ht => ?_) (fun _ h => h) id
  exact (hf a t ht.1 ht.2).mono (fun _ u hu => ⟨ht.1.trans hu.1, hu.2⟩) (fun _ hr => hr.after ht.1) id

theorem ReadPost.from {α : Type} {s u : State} {P : α → State → Prop} {x : Res α} (h : Fetched s u)
    (k : ReadPost u P x) : ReadPost s P x :=
  k.mono (fun _ _ hu => ⟨h.trans hu.1, hu.2⟩) (fun _ hr => hr.after h) id

theorem ReadPost.weaken {α : Type} {s : State} {P Q : α → State → Prop} {x : Res α} (h : ReadPost s P x)
    (hPQ : ∀ a t, P a t → Q a t) : ReadPost s Q x :=
  h.mono (fun _ _ hu => ⟨hu.1, hPQ _ _ hu.2⟩) (fun _ hr => hr) id

/-- Reading one symbol below SRC_LEN. -/
theorem fetchSymbol_post (val : Byte → Option Nat) (s : State) (h : s.srcPos < s.srcLen) :
    ReadPost s (fun _ t => t.rbuf = s.rbuf ∧ t.eos = s.eos ∧ t.srcPos = s.srcPos + 1) (fetchSymbol val s) := by
  unfold fetchSymbol
  split
  · exact ⟨s, Fetched.refl s, rfl⟩
  · exact ⟨⟨rfl, by simp, le_max_of_le_right h, id, fun _ h => h⟩, rfl, rfl, rfl⟩

theorem fetchGroup_post (s : State) :
    ReadPost s (fun _ t => t.rbuf = s.rbuf ∧ t.eos = s.eos) (fetchGroup s) := by
  unfold fetchGroup
  split
  · split
    · exact ⟨Fetched.refl s, rfl, rfl⟩
    · exact ⟨⟨rfl, by simp, le_max_of_le_right (by simp only; omega), id, fun _ h => h⟩, rfl, rfl⟩
  · split
    · exact ⟨Fetched.refl s, rfl, rfl⟩
    · refine ReadPost.bind (fetchSymbol_post hexVal s (by omega)) fun hi t ht hp => ?_
      obtain ⟨hr, he, hpos⟩ := hp
      refine ReadPost.bind (fetchSymbol_post hexVal t (by rw [hpos, ht.srcLen]; omega)) fun lo u hu hq => ?_
      exact ⟨Fetched.refl u, hq.1.trans hr, hq.2.1.trans he⟩
  · split
    · exact ⟨Fetched.refl s, rfl, rfl⟩
    · refine ReadPost.bind (fetchSymbol_post b64Val s (by omega)) fun v t ht hp => ?_
      exact ⟨Fetched.refl t, hp.1, hp.2.1⟩

theorem fillTo_post (n rounds : Nat) (s : State) (hr : n ≤ s.rbuf.length + rounds)
    (hs : s.rbuf.length < n + groupSize s.cfg) :
    ReadPost s (fun filled t => (filled = true → n ≤ t.rbuf.length ∧ t.rbuf.length < n + groupSize s.cfg ∧
      t.eos = s.eos) ∧ (filled = false → t.eos = true)) (fillTo n rounds s) := by
  have hG := groupSize_bounds s.cfg
  induction rounds generalizing s with
  | zero =>
    refine ⟨Fetched.refl s, fun _ => ⟨by omega, hs, rfl⟩, fun hf => ?_⟩
    simp only [decide_eq_false_iff_not] at hf
    omega
  | succ k ih =>
    unfold fillTo
    split
    · refine ReadPost.bind (fetchGroup_post s) fun g t ht hp => ?_
      cases g with
      | none => exact ⟨Fetched.setEos t, by simp, by simp⟩
      | some g =>
        have hlen : (t.rbuf ++ bitsMSB g (groupSize t.cfg)).length = s.rbuf.length + groupSize s.cfg := by
          simp [hp.1, ht.cfg]
        have hcfg := ht.cfg
        refine (ReadPost.weaken (ih _ ?_ ?_ (by rw [← hcfg] at hG; exact hG)) fun b u hb => ?_).from
          (Fetched.setRbuf t (t.rbuf ++ bitsMSB g (groupSize t.cfg)))
        · simp only [hlen]; omega
        · rw [hcfg] at hlen
          simp only [hcfg]
          omega
        · simp only [hcfg, hp.2] at hb
          exact hb
    · rename_i hge
      exact ⟨Fetched.refl s, fun _ => ⟨by omega, hs, rfl⟩, by simp⟩

/-- Reading `n` bits: END sets EOS, a value is below `2^n` and leaves a short RBUF. -/
theorem readBits_post (n : Nat) (s : State) (hs : s.rbuf.length < n + groupSize s.cfg) :
    ReadPost s (fun v t => (v = none → t.eos = true) ∧
      ∀ x, v = some x → x < 2 ^ n ∧ t.rbuf.length < groupSize s.cfg ∧ t.eos = s.eos) (readBits n s) := by
  unfold readBits
  refine ReadPost.bind (fillTo_post n n s (by omega) hs) fun filled t ht hp => ?_
  cases filled with
  | false => exact ⟨Fetched.refl t, fun _ => hp.2 rfl, by simp⟩
  | true =>
    obtain ⟨h1, h2, h3⟩ := hp.1 rfl
    refine ⟨Fetched.setRbuf t _, by simp, fun x hx => ⟨?_, ?_, h3⟩⟩
    · simp only [Option.some.injEq] at hx
      have := valMSB_lt (t.rbuf.take n)
      rw [List.length_take, Nat.min_eq_left h1] at this
      omega
    · simp only [List.length_drop]; omega

theorem subMod_lt (x r : Nat) {m : Nat} (h : 0 < m) : subMod x r m < m := Nat.mod_lt _ h

theorem rdCode_post (w : Nat) (s : State) (hs : s.rbuf.length < w + groupSize s.cfg) :
    ReadPost s (fun v t => (v = none → t.eos = true) ∧
      ∀ x, v = some x → x < 2 ^ w ∧ t.rbuf.length < groupSize s.cfg ∧ t.eos = s.eos) (rdCode w s) := by
  unfold rdCode
  refine ReadPost.bind (readBits_post w s hs) fun c t ht hp => ?_
  cases c with
  | none => exact ⟨Fetched.refl t, fun _ => hp.1 rfl, by simp⟩
  | some c =>
    obtain ⟨h1, h2, h3⟩ := hp.2 c rfl
    simp only
    split
    · refine ⟨Fetched.draw t, by simp, fun x hx => ⟨?_, h2, h3⟩⟩
      simp only [Option.some.injEq] at hx
      exact hx ▸ subMod_lt _ _ (by positivity)
    · exact ⟨Fetched.refl t, by simp, fun x hx => by simp only [Option.some.injEq] at hx; exact hx ▸ ⟨h1, h2, h3⟩⟩

theorem rdHdr_post (s : State) (hs : s.rbuf.length < 8 + groupSize s.cfg) :
    ReadPost s (fun v t => (v = none → t.eos = true) ∧
      ∀ x, v = some x → t.rbuf.length < groupSize s.cfg ∧ t.eos = s.eos) (rdHdr s) := by
  unfold rdHdr
  refine ReadPost.bind (readBits_post 8 s hs) fun c t ht hp => ?_
  cases c with
  | none => exact ⟨Fetched.refl t, fun _ => hp.1 rfl, by simp⟩
  | some c =>
    obtain ⟨h1, h2, h3⟩ := hp.2 c rfl
    simp only
    split
    · exact ⟨Fetched.draw t, by simp, fun x _ => ⟨h2, h3⟩⟩
    · exact ⟨Fetched.refl t, by simp, fun x _ => ⟨h2, h3⟩⟩

/-- Reading stays within the frame whatever RBUF holds. -/
theorem fillTo_frame (n rounds : Nat) (s : State) : ReadPost s (fun _ _ => True) (fillTo n rounds s) := by
  induction rounds generalizing s with
  | zero => exact ⟨Fetched.refl s, trivial⟩
  | succ k ih =>
    unfold fillTo
    split
    · refine ReadPost.bind (fetchGroup_post s) fun g t _ _ => ?_
      cases g with
      | none => exact ⟨Fetched.setEos t, trivial⟩
      | some g => exact (ih _).from (Fetched.setRbuf t _)
    · exact ⟨Fetched.refl s, trivial⟩

theorem readBits_frame (n : Nat) (s : State) : ReadPost s (fun _ _ => True) (readBits n s) := by
  unfold readBits
  refine ReadPost.bind (fillTo_frame n n s) fun filled t _ _ => ?_
  cases filled with
  | false => exact ⟨Fetched.refl t, trivial⟩
  | true => exact ⟨Fetched.setRbuf t _, trivial⟩

theorem rdCode_frame (w : Nat) (s : State) : ReadPost s (fun _ _ => True) (rdCode w s) := by
  unfold rdCode
  refine ReadPost.bind (readBits_frame w s) fun c t _ _ => ?_
  cases c with
  | none => exact ⟨Fetched.refl t, trivial⟩
  | some c =>
    simp only
    split
    · exact ⟨Fetched.draw t, trivial⟩
    · exact ⟨Fetched.refl t, trivial⟩

theorem rdHdr_frame (s : State) : ReadPost s (fun _ _ => True) (rdHdr s) := by
  unfold rdHdr
  refine ReadPost.bind (readBits_frame 8 s) fun c t _ _ => ?_
  cases c with
  | none => exact ⟨Fetched.refl t, trivial⟩
  | some c =>
    simp only
    split
    · exact ⟨Fetched.draw t, trivial⟩
    · exact ⟨Fetched.refl t, trivial⟩

/-! ### With symbols of the alphabet only: the next unit of the packed stream, or END -/

theorem srcByte_congr {s t : State} (hs : t.src = s.src) (he : t.srcEpoch = s.srcEpoch) (i : Nat) :
    srcByte i t = srcByte i s := by
  simp [srcByte, hs, he]

theorem hexVal_lt {b : Byte} {x : Nat} (h : hexVal b = some x) : x < 16 := by
  unfold hexVal at h
  simp only at h
  split at h
  · simp only [Option.some.injEq] at h; omega
  · split at h
    · simp only [Option.some.injEq] at h; omega
    · split at h
      · simp only [Option.some.injEq] at h; omega
      · simp at h

/-- Moving SRC_POS on by `k` bytes takes their bits off the front of what is ahead. -/
theorem srcAhead_advance (s : State) (k : Nat) (hk : k ≤ srcAvail s)
    (ha : srcAvail { s with srcPos := s.srcPos + k } = srcAvail s - k) :
    srcAhead s = ((List.range k).flatMap fun i => symbolBits s.cfg.text (srcByte (s.srcPos + i) s)) ++
      srcAhead { s with srcPos := s.srcPos + k } := by
  unfold srcAhead
  rw [ha]
  have hsplit : srcAvail s = k + (srcAvail s - k) := by omega
  conv_lhs => rw [hsplit, List.range_add, List.flatMap_append]
  congr 1
  rw [List.flatMap_map]
  refine List.flatMap_congr fun i _ => ?_
  simp only [Nat.add_assoc]
  rfl

theorem srcAhead_nil {s : State} (h : srcAvail s = 0) : srcAhead s = [] := by simp [srcAhead, h]

/-- SRC moves by whole groups. -/
theorem srcAvail_advance {s : State} (h : srcAvail s ≠ 0) :
    groupCost s.cfg ≤ srcAvail s ∧
      srcAvail { s with srcPos := s.srcPos + groupCost s.cfg } = srcAvail s - groupCost s.cfg := by
  unfold srcAvail groupCost at *
  cases htext : s.cfg.text <;> simp only [htext] at h ⊢ <;> omega

/-- One group whose symbols are legal: its bits come off the front (42_texttranscoder R121). -/
theorem fetchGroup_some (s : State) (h0 : srcAvail s ≠ 0)
    (hl : ∀ i < groupCost s.cfg, symbolLegal s.cfg.text (srcByte (s.srcPos + i) s) = true) :
    ∃ g, fetchGroup s = .done (some g) { s with srcPos := s.srcPos + groupCost s.cfg } ∧
      srcAhead s = bitsMSB g (groupSize s.cfg) ++ srcAhead { s with srcPos := s.srcPos + groupCost s.cfg } := by
  obtain ⟨hle, ha⟩ := srcAvail_advance h0
  rw [srcAhead_advance s _ hle ha]
  unfold srcAvail at h0
  unfold groupCost at hl hle ha ⊢
  cases htext : s.cfg.text with
  | none =>
    simp only [htext] at hl h0
    refine ⟨(srcByte s.srcPos s).toNat, by simp only [fetchGroup, htext, if_neg (show ¬ s.srcLen ≤ s.srcPos by omega)], ?_⟩
    simp [groupSize, htext, symbolBits]
  | hex =>
    simp only [htext] at hl h0
    have l0 := hl 0 (by omega)
    have l1 := hl 1 (by omega)
    simp only [symbolLegal, Nat.add_zero] at l0 l1
    obtain ⟨hi, hhi⟩ := Option.isSome_iff_exists.1 l0
    obtain ⟨lo, hlo⟩ := Option.isSome_iff_exists.1 l1
    have hlo' : hexVal (srcByte (s.srcPos + 1) { s with srcPos := s.srcPos + 1 }) = some lo := hlo
    refine ⟨16 * hi + lo, ?_, ?_⟩
    · simp only [fetchGroup, htext, if_neg (show ¬ s.srcLen ≤ s.srcPos + 1 by omega), fetchSymbol, hhi, Res.bind_done, hlo']
    · congr 1
      have hadd := bitsMSB_add (16 * hi + lo) 4 4
      have h16 := hexVal_lt hlo
      have hd : (16 * hi + lo) / 2 ^ 4 = hi := by omega
      have hm : (16 * hi + lo) % 2 ^ 4 = lo % 2 ^ 4 := by omega
      rw [hd, bitsMSB_congr hm] at hadd
      simp [groupSize, htext, symbolBits, List.range_succ, hhi, hlo, hadd]
  | base64 =>
    simp only [htext] at hl h0
    have l0 := hl 0 (by omega)
    simp only [symbolLegal, Nat.add_zero] at l0
    obtain ⟨v, hv⟩ := Option.isSome_iff_exists.1 l0
    refine ⟨v, ?_, ?_⟩
    · simp only [fetchGroup, htext, if_neg (show ¬ s.srcLen ≤ s.srcPos by omega), fetchSymbol, hv, Res.bind_done]
    · simp [groupSize, htext, symbolBits, hv]

/-- No whole group left: END, and nothing changes (42_texttranscoder R121). -/
theorem fetchGroup_none {s : State} (h0 : srcAvail s = 0) : fetchGroup s = .done none s := by
  unfold srcAvail at h0
  unfold fetchGroup
  cases htext : s.cfg.text <;> simp only [htext] at h0 ⊢ <;> rw [if_pos (by omega)]

/-- A group with an illegal symbol: E_BADSYM with its index (42_texttranscoder R121). -/
theorem fetchGroup_bad {s : State} {i : Nat} (h0 : srcAvail s ≠ 0) (hi : i < groupCost s.cfg)
    (hb : symbolLegal s.cfg.text (srcByte (s.srcPos + i) s) = false)
    (hl : ∀ j < i, symbolLegal s.cfg.text (srcByte (s.srcPos + j) s) = true) :
    fetchGroup s = .raised (raise .badsym (BitVec.ofNat 32 (s.srcPos + i)) { s with srcPos := s.srcPos + i }) := by
  unfold srcAvail at h0
  unfold groupCost at hi
  cases htext : s.cfg.text with
  | none => simp [htext, symbolLegal] at hb
  | hex =>
    simp only [htext] at hi h0 hb hl
    simp only [fetchGroup, htext, if_neg (show ¬ s.srcLen ≤ s.srcPos + 1 by omega), fetchSymbol]
    by_cases h : i = 0
    · subst h
      simp only [symbolLegal, Nat.add_zero, Option.isSome_eq_false_iff, Option.isNone_iff_eq_none] at hb
      rw [hb]
      rfl
    · have h1 : i = 1 := by omega
      subst h1
      have l0 := hl 0 (by omega)
      simp only [symbolLegal, Nat.add_zero, Option.isSome_eq_false_iff, Option.isNone_iff_eq_none] at hb l0
      obtain ⟨v, hv⟩ := Option.isSome_iff_exists.1 l0
      have hb' : hexVal (srcByte (s.srcPos + 1) { s with srcPos := s.srcPos + 1 }) = none := hb
      rw [hv]
      simp only [Res.bind_done, hb']
      rfl
  | base64 =>
    simp only [htext] at hi h0 hb hl
    have h1 : i = 0 := by omega
    subst h1
    simp only [fetchGroup, htext, if_neg (show ¬ s.srcLen ≤ s.srcPos by omega), fetchSymbol]
    simp only [symbolLegal, Nat.add_zero, Option.isSome_eq_false_iff, Option.isNone_iff_eq_none] at hb
    rw [hb]
    rfl

/-- The state after one round of the unpacker's loop, and what a read finds there. -/
theorem round_reaches {n : Nat} {s : State} {g : Nat} (h0 : srcAvail s ≠ 0) (i : Nat) :
    reaches n i { s with srcPos := s.srcPos + groupCost s.cfg, rbuf := s.rbuf ++ bitsMSB g (groupSize s.cfg) } ↔
      reaches n (i + groupCost s.cfg) s := by
  obtain ⟨hle, ha⟩ := srcAvail_advance h0
  have hav : srcAvail { s with srcPos := s.srcPos + groupCost s.cfg, rbuf := s.rbuf ++ bitsMSB g (groupSize s.cfg) } =
      srcAvail s - groupCost s.cfg := ha
  have hbits : bitsBefore s.cfg.text (i + groupCost s.cfg) = groupSize s.cfg + bitsBefore s.cfg.text i := by
    unfold bitsBefore groupCost groupSize
    cases s.cfg.text <;> simp only <;> omega
  unfold reaches
  rw [hav, hbits]
  simp only [List.length_append, bitsMSB_length]
  omega

theorem round_byte {s : State} {b : Bits} (i : Nat) :
    srcByte (s.srcPos + groupCost s.cfg + i) { s with srcPos := s.srcPos + groupCost s.cfg, rbuf := b } =
      srcByte (s.srcPos + (i + groupCost s.cfg)) s := by
  rw [show s.srcPos + groupCost s.cfg + i = s.srcPos + (i + groupCost s.cfg) by omega]
  rfl

theorem bitsBefore_cost (c : Cfg) (i : Nat) (h : i < groupCost c) : bitsBefore c.text i = 0 := by
  unfold groupCost at h
  unfold bitsBefore
  cases htext : c.text <;> simp only [htext] at h ⊢ <;> omega

/-- The bits ahead by symbols: none when no group is left, else at least a group's. -/
theorem unread_cons {s : State} {g : Nat} (h : srcAhead s = bitsMSB g (groupSize s.cfg) ++
      srcAhead { s with srcPos := s.srcPos + groupCost s.cfg }) :
    unread { s with srcPos := s.srcPos + groupCost s.cfg, rbuf := s.rbuf ++ bitsMSB g (groupSize s.cfg) } = unread s := by
  change (s.rbuf ++ bitsMSB g (groupSize s.cfg)) ++ srcAhead { s with srcPos := s.srcPos + groupCost s.cfg } =
    s.rbuf ++ srcAhead s
  rw [h, List.append_assoc]

theorem groupsNeeded_zero {n : Nat} {s : State} (h : n ≤ s.rbuf.length) : groupsNeeded n s = 0 := by
  have := groupSize_bounds s.cfg
  unfold groupsNeeded
  rw [show n - s.rbuf.length = 0 by omega]
  exact Nat.div_eq_of_lt (by omega)

theorem groupsNeeded_succ {n : Nat} {s : State} {g : Nat} (h : s.rbuf.length < n) :
    groupsNeeded n s =
      groupsNeeded n
        { s with srcPos := s.srcPos + groupCost s.cfg, rbuf := s.rbuf ++ bitsMSB g (groupSize s.cfg) } + 1 := by
  have hG := groupSize_bounds s.cfg
  unfold groupsNeeded
  simp only [List.length_append, bitsMSB_length]
  by_cases hle : groupSize s.cfg ≤ n - s.rbuf.length
  · rw [Nat.div_eq_sub_div (by omega) (by omega)]
    congr 2
    omega
  · rw [show n - (s.rbuf.length + groupSize s.cfg) = 0 by omega, Nat.div_eq_of_lt (by omega : 0 + (groupSize s.cfg - 1) < _),
      Nat.div_eq_sub_div (by omega) (by omega)]
    congr 1
    exact Nat.div_eq_of_lt (by omega)

theorem unread_length (s : State) : s.rbuf.length ≤ (unread s).length := by simp [unread]

theorem unread_take (s : State) : (unread s).take s.rbuf.length = s.rbuf := by simp [unread]

/-- With enough bits in RBUF nothing is fetched. -/
theorem fill_stay {n : Nat} {s : State} (h : n ≤ s.rbuf.length) :
    (.done true s : Res Bool) = .done true
      { s with
        srcPos := s.srcPos + groupCost s.cfg * groupsNeeded n s
        rbuf := (unread s).take (s.rbuf.length + groupSize s.cfg * groupsNeeded n s) } := by
  simp only [groupsNeeded_zero h, Nat.mul_zero, Nat.add_zero, unread_take]

/-- The unpacker's loop with enough bits ahead: it fetches the groups it needs. -/
theorem fillTo_some (n rounds : Nat) (s : State) (hr : n ≤ s.rbuf.length + rounds) (hl : readable n s)
    (hn : n ≤ (unread s).length) :
    fillTo n rounds s = .done true
      { s with
        srcPos := s.srcPos + groupCost s.cfg * groupsNeeded n s
        rbuf := (unread s).take (s.rbuf.length + groupSize s.cfg * groupsNeeded n s) } := by
  induction rounds generalizing s with
  | zero =>
    rw [fillTo, decide_eq_true (by omega), ← fill_stay (by omega)]
  | succ k ih =>
    unfold fillTo
    by_cases hlen : s.rbuf.length < n
    · rw [if_pos hlen]
      have h0 : srcAvail s ≠ 0 := by
        intro h0
        simp only [unread, srcAhead_nil h0, List.append_nil] at hn
        omega
      obtain ⟨hle, _⟩ := srcAvail_advance h0
      obtain ⟨g, hg, hahead⟩ := fetchGroup_some s h0 fun i hi => hl i ⟨by omega, by rw [bitsBefore_cost _ _ hi]; omega⟩
      rw [hg, Res.bind_done]
      have hun := unread_cons hahead
      have hneed := groupsNeeded_succ (g := g) hlen
      have key := ih { s with srcPos := s.srcPos + groupCost s.cfg, rbuf := s.rbuf ++ bitsMSB g (groupSize s.cfg) }
        (by have := groupSize_bounds s.cfg; simp only [List.length_append, bitsMSB_length]; omega)
        (fun i hi => by
          have := hl _ ((round_reaches h0 i).1 hi)
          rw [← round_byte (b := s.rbuf ++ bitsMSB g (groupSize s.cfg))] at this
          exact this)
        (by rw [hun]; exact hn)
      refine key.trans ?_
      rw [hun, hneed]
      simp only [List.length_append, bitsMSB_length, Nat.mul_add, Nat.mul_one]
      simp only [Nat.add_assoc, Nat.add_comm]
    · rw [if_neg hlen, ← fill_stay (by omega)]

/-- The unpacker's loop with too few bits ahead: END. -/
theorem fillTo_end (n rounds : Nat) (s : State) (hr : n ≤ s.rbuf.length + rounds) (hl : readable n s)
    (hn : (unread s).length < n) : fillTo n rounds s = .done false (pullEnd s) := by
  have hu := unread_length s
  induction rounds generalizing s with
  | zero => omega
  | succ k ih =>
    unfold fillTo
    rw [if_pos (by omega)]
    by_cases h0 : srcAvail s = 0
    · rw [fetchGroup_none h0, Res.bind_done]
      simp [pullEnd, h0, unread, srcAhead_nil h0]
    · obtain ⟨hle, ha⟩ := srcAvail_advance h0
      obtain ⟨g, hg, hahead⟩ := fetchGroup_some s h0 fun i hi => hl i ⟨by omega, by rw [bitsBefore_cost _ _ hi]; omega⟩
      rw [hg, Res.bind_done]
      have hun := unread_cons hahead
      have key := ih { s with srcPos := s.srcPos + groupCost s.cfg, rbuf := s.rbuf ++ bitsMSB g (groupSize s.cfg) }
        (by have := groupSize_bounds s.cfg; simp only [List.length_append, bitsMSB_length]; omega)
        (fun i hi => by
          have := hl _ ((round_reaches h0 i).1 hi)
          rw [← round_byte (b := s.rbuf ++ bitsMSB g (groupSize s.cfg))] at this
          exact this)
        (by rw [hun]; exact hn) (unread_length _)
      refine key.trans ?_
      have hav : srcAvail { s with srcPos := s.srcPos + groupCost s.cfg, rbuf := s.rbuf ++ bitsMSB g (groupSize s.cfg) } =
          srcAvail s - groupCost s.cfg := ha
      simp only [pullEnd, hun, hav]
      rw [show s.srcPos + groupCost s.cfg + (srcAvail s - groupCost s.cfg) = s.srcPos + srcAvail s by omega]

theorem unread_take_cost {s : State} {i : Nat} (hi : i < groupCost s.cfg) :
    (unread s).take (s.rbuf.length + bitsBefore s.cfg.text i) = s.rbuf := by
  rw [bitsBefore_cost _ _ hi, Nat.add_zero, unread_take]

/-- The unpacker's loop up to an illegal symbol: E_BADSYM. -/
theorem fillTo_bad (n rounds i : Nat) (s : State) (hr : n ≤ s.rbuf.length + rounds) (hb : firstBad n i s) :
    fillTo n rounds s = .raised (pullBad i s) := by
  induction rounds generalizing s i with
  | zero =>
    have := hb.1.2
    omega
  | succ k ih =>
    obtain ⟨⟨hav, hbits⟩, hbad, hgood⟩ := hb
    unfold fillTo
    rw [if_pos (by omega)]
    have h0 : srcAvail s ≠ 0 := by omega
    obtain ⟨hle, ha⟩ := srcAvail_advance h0
    by_cases hi : i < groupCost s.cfg
    · rw [fetchGroup_bad h0 hi hbad hgood, Res.bind_raised]
      simp only [pullBad, unread_take_cost hi]
    · obtain ⟨g, hg, hahead⟩ := fetchGroup_some s h0 fun j hj => hgood j (by omega)
      rw [hg, Res.bind_done]
      have hun := unread_cons hahead
      have hsplit : i = (i - groupCost s.cfg) + groupCost s.cfg := by omega
      have hbits : bitsBefore s.cfg.text i = groupSize s.cfg + bitsBefore s.cfg.text (i - groupCost s.cfg) := by
        unfold bitsBefore groupCost groupSize at *
        cases htext : s.cfg.text <;> simp only [htext] at * <;> omega
      have key := ih (i - groupCost s.cfg)
        { s with srcPos := s.srcPos + groupCost s.cfg, rbuf := s.rbuf ++ bitsMSB g (groupSize s.cfg) }
        (by have := groupSize_bounds s.cfg; simp only [List.length_append, bitsMSB_length]; omega)
        ⟨(round_reaches h0 _).2 (by rw [← hsplit]; exact ⟨hav, by omega⟩), by
          have hh := hbad
          rw [hsplit, ← round_byte (b := s.rbuf ++ bitsMSB g (groupSize s.cfg))] at hh
          exact hh, fun j hj => by
          have := hgood (j + groupCost s.cfg) (by omega)
          rw [← round_byte (b := s.rbuf ++ bitsMSB g (groupSize s.cfg))] at this
          exact this⟩
      refine key.trans ?_
      simp only [pullBad, hun, List.length_append, bitsMSB_length, hbits]
      rw [show s.srcPos + groupCost s.cfg + (i - groupCost s.cfg) = s.srcPos + i by omega, ← Nat.add_assoc]

/-- Reading `n` bits when there are that many: the value of the next `n` stream bits (41_bitcodestream R112). -/
theorem readBits_some {n v : Nat} {s : State} (hl : readable n s) (h : bitsAhead n s = some v) :
    readBits n s = .done (some v) (pullBits n s) := by
  unfold bitsAhead at h
  split at h
  · rename_i hn
    simp only [Option.some.injEq] at h
    unfold readBits
    rw [fillTo_some n n s (by omega) hl hn, Res.bind_done, if_pos rfl]
    have hG := groupSize_bounds s.cfg
    have hle : n ≤ s.rbuf.length + groupSize s.cfg * groupsNeeded n s := by
      unfold groupsNeeded
      have := Nat.div_add_mod (n - s.rbuf.length + (groupSize s.cfg - 1)) (groupSize s.cfg)
      have := Nat.mod_lt (n - s.rbuf.length + (groupSize s.cfg - 1)) (show 0 < groupSize s.cfg by omega)
      omega
    simp only [List.take_take, Nat.min_eq_left hle, h]
    rfl
  · simp at h

/-- Reading `n` bits when there are fewer: END, with EOS set (41_bitcodestream R112). -/
theorem readBits_none {n : Nat} {s : State} (hl : readable n s) (h : bitsAhead n s = none) :
    readBits n s = .done none (pullEnd s) := by
  unfold bitsAhead at h
  split at h
  · simp at h
  · unfold readBits
    rw [fillTo_end n n s (by omega) hl (by omega), Res.bind_done, if_neg (by simp)]

/-- Reading `n` bits up to an illegal symbol: E_BADSYM (42_texttranscoder R121). -/
theorem readBits_bad {n i : Nat} {s : State} (h : firstBad n i s) : readBits n s = .raised (pullBad i s) := by
  unfold readBits
  rw [fillTo_bad n n i s (by omega) h, Res.bind_raised]

/-- Reading a code (43_streamcipher R134). -/
theorem rdCode_some {c : Nat} {s : State} (hl : readable s.w s) (h : codeAhead s = some c) :
    rdCode s.w s = .done (some c) (codeRead s) := by
  unfold codeAhead at h
  obtain ⟨v, hv, hc⟩ := Option.map_eq_some_iff.1 h
  unfold rdCode codeRead prngAfterCode
  rw [readBits_some hl hv, Res.bind_done]
  have hcfg : (pullBits s.w s).cfg = s.cfg := rfl
  simp only [hcfg]
  split
  · rename_i hci
    simp only [hci, if_true] at hc
    rw [← hc]
    rfl
  · rename_i hci
    simp only [hci] at hc
    rw [← hc]
    rfl

theorem rdCode_none {s : State} (hl : readable s.w s) (h : codeAhead s = none) :
    rdCode s.w s = .done none (pullEnd s) := by
  unfold rdCode
  rw [readBits_none hl (Option.map_eq_none_iff.1 h), Res.bind_done]

theorem rdCode_bad {i : Nat} {s : State} (h : firstBad s.w i s) : rdCode s.w s = .raised (pullBad i s) := by
  unfold rdCode
  rw [readBits_bad h, Res.bind_raised]

/-- Reading a header byte (43_streamcipher R136). -/
theorem rdHdr_some {b : Byte} {s : State} (hl : readable 8 s) (h : hdrAhead s = some b) :
    rdHdr s = .done (some b) (hdrRead s) := by
  unfold hdrAhead at h
  obtain ⟨v, hv, hc⟩ := Option.map_eq_some_iff.1 h
  unfold rdHdr hdrRead prngAfterHdrAhead prngAfterHdr
  rw [readBits_some hl hv, Res.bind_done, hv]
  have hcfg : (pullBits 8 s).cfg = s.cfg := rfl
  have hp : (pullBits 8 s).params = s.params := rfl
  simp only [hcfg, hp]
  unfold hdrDraws at hc ⊢
  split
  · rename_i hci
    rw [if_pos hci] at hc
    rw [← hc]
    rfl
  · rename_i hci
    rw [if_neg hci] at hc
    rw [← hc]
    rfl

theorem rdHdr_none {s : State} (hl : readable 8 s) (h : hdrAhead s = none) : rdHdr s = .done none (pullEnd s) := by
  unfold rdHdr
  rw [readBits_none hl (Option.map_eq_none_iff.1 h), Res.bind_done]

theorem rdHdr_bad {i : Nat} {s : State} (h : firstBad 8 i s) : rdHdr s = .raised (pullBad i s) := by
  unfold rdHdr
  rw [readBits_bad h, Res.bind_raised]

end Sys2Proof.Machine
end

