-- ==== Sys2Proof/Laws/Dictionary.lean ====
section
/-!
SUPPORT. The dictionary and OUT: lookups after an insertion, `code_of` as the inverse of the table, the policies, and
the appends to OUT (44_dictionary, 20_memory R43).
-/

namespace Sys2Proof.Machine

/-! ### Lookups -/

theorem dictRead_congr {s t : State} (hd : t.dict = s.dict) (hn : t.dsize = s.dsize) (c : Nat) :
    dictRead c t = dictRead c s := by
  simp [dictRead, hd, hn]

theorem codeOf_congr {s t : State} (hd : t.dict = s.dict) (hn : t.dsize = s.dsize) (str : Str) :
    codeOf str t = codeOf str s := by
  unfold codeOf
  rw [hd, hn]

theorem dictRead_single {s : State} {c : Nat} (h : c < 256) (hs : c < s.dsize) :
    dictRead c s = some [BitVec.ofNat 8 c] := by
  simp [dictRead, h, hs, Config.base]

theorem dictRead_phrase {s : State} {c : Nat} (h : 256 ≤ c) (hs : c < s.dsize) :
    dictRead c s = Store.read s.dict c := by
  simp [dictRead, hs, Config.base, show ¬ c < 256 by omega]

theorem dictRead_lt {s : State} {c : Nat} {e : Str} (h : dictRead c s = some e) : c < s.dsize := by
  unfold dictRead at h
  split at h
  · assumption
  · simp at h

/-- The table after an insertion: the new entry at DSIZE, every other entry as before (44_dictionary R148). -/
theorem dictRead_insert (e : Str) (s : State) (h : 256 ≤ s.dsize) (c : Nat) :
    dictRead c (dictInsert e s) = if c = s.dsize then some e else dictRead c s := by
  unfold dictRead
  simp only [dictInsert_dict, dictInsert_dsize, Config.base, Store.read_write]
  by_cases hc : c = s.dsize
  · subst hc
    simp [show ¬ s.dsize < 256 by omega]
  · rw [if_neg hc, if_neg (Ne.symm hc)]
    by_cases hl : c < s.dsize
    · rw [if_pos hl, if_pos (by omega)]
      rfl
    · rw [if_neg hl, if_neg (by omega)]

/-- The table after a reset: the single bytes and nothing else (44_dictionary R146). -/
theorem dictRead_restart (s : State) (c : Nat) :
    dictRead c (dictRestart s) = if c < 256 then some [BitVec.ofNat 8 c] else none := by
  unfold dictRead
  simp only [dictRestart_dsize, dictRestart_dict, Config.base]
  by_cases h : c < 256 <;> simp [h]

namespace BaseInv

variable {s : State}

/-- `DICT[c]` is defined for `c < DSIZE` (10_state R32). -/
theorem dictRead_some (h : BaseInv s) {c : Nat} (hc : c < s.dsize) : ∃ e, dictRead c s = some e := by
  by_cases hb : c < 256
  · exact ⟨_, dictRead_single hb hc⟩
  · rw [dictRead_phrase (by omega) hc]
    exact Option.isSome_iff_exists.1 ((h.dictDom c).2 ⟨by omega, hc⟩)

/-- Every entry is a non-empty string (10_state R32). -/
theorem dictRead_ne_nil (h : BaseInv s) {c : Nat} {e : Str} (hc : dictRead c s = some e) : e ≠ [] := by
  have hlt := dictRead_lt hc
  by_cases hb : c < 256
  · rw [dictRead_single hb hlt] at hc
    simp only [Option.some.injEq] at hc
    simp [← hc]
  · rw [dictRead_phrase (by omega) hlt] at hc
    obtain ⟨p, pre, b, _, _, _, he⟩ := h.dictPhrase c e hc
    simp [he]

theorem wfDict (h : BaseInv s) : Store.wf s.dict = true := by
  have := h.memory
  simp only [Memory.wf, Bool.and_eq_true] at this
  exact this.2

/-- `code_of` answers a code whose entry is the string (44_dictionary R151). -/
theorem codeOf_some (h : BaseInv s) {str : Str} {c : Nat} (hc : codeOf str s = some c) : dictRead c s = some str := by
  have hd := h.dsize
  unfold codeOf at hc
  split at hc
  · rename_i b
    simp only [Option.some.injEq] at hc
    subst hc
    rw [dictRead_single b.isLt (by have := b.isLt; omega)]
    simp
  · obtain ⟨e, he, hec⟩ := Option.map_eq_some_iff.1 hc
    have hmem := List.mem_of_find?_eq_some he
    have hp := List.find?_some he
    simp only [Bool.and_eq_true, decide_eq_true_eq] at hp
    obtain ⟨⟨h1, h2⟩, h3⟩ := hp
    change 256 ≤ e.1 at h1
    rw [← hec, dictRead_phrase h1 h2, Store.read_of_mem h.wfDict (x := e.2) hmem, h3]

end BaseInv

/-- Where `code_of` answers none, no entry is the string (44_dictionary R151). -/
theorem codeOf_none {s : State} {str : Str} (hc : codeOf str s = none) (c : Nat) : dictRead c s ≠ some str := by
  intro hr
  have hlt := dictRead_lt hr
  unfold codeOf at hc
  split at hc
  · simp at hc
  · rename_i hne
    by_cases hb : c < 256
    · rw [dictRead_single hb hlt] at hr
      simp only [Option.some.injEq] at hr
      exact hne _ hr.symm
    · rw [dictRead_phrase (by omega) hlt] at hr
      have := List.find?_eq_none.1 (Option.map_eq_none_iff.1 hc) _ (Store.mem_of_read hr)
      simp only [decide_true, Bool.and_true, Bool.and_eq_true, decide_eq_true_eq, not_and] at this
      exact this (show 256 ≤ c by omega) hlt

/-- `code_of([b]) = b` always (44_dictionary R151). -/
theorem codeOf_single (b : Byte) (s : State) : codeOf [b] s = some b.toNat := rfl

theorem dictGet_some {c : Nat} {s : State} {e : Str} (h : dictRead c s = some e) : dictGet c s = .done e s := by
  simp [dictGet, h]

theorem candCode_some {s : State} {c : Nat} (h : codeOf s.cand s = some c) : candCode s = .done c s := by
  simp [candCode, h]

theorem firstByte_cons (b : Byte) (e : Str) (s : State) : firstByte (b :: e) s = .done b s := rfl

/-! ### Frame of the policies -/

/-- `enc_policy` changes DICT, DSIZE and W only. -/
theorem encPolicy_frame (e : Option Str) (s : State) :
    encPolicy e s = { s with dict := (encPolicy e s).dict, dsize := (encPolicy e s).dsize, w := (encPolicy e s).w } := by
  unfold encPolicy
  split
  · split
    · cases e <;> rfl
    · rfl
  · cases e <;> rfl

/-- `dec_policy` changes DICT, DSIZE and W only. -/
theorem decPolicy_frame (e : Str) (s : State) :
    (decPolicy e s).2 = { s with dict := (decPolicy e s).2.dict, dsize := (decPolicy e s).2.dsize,
                                 w := (decPolicy e s).2.w } := by
  unfold decPolicy
  split
  · split <;> rfl
  · rfl

/-! ### OUT -/

/-- `t` comes from `s` by appending to OUT. -/
structure Emitted (s t : State) : Prop where
  frame : t = { s with out := t.out, outLen := t.outLen }
  grows : s.outLen ≤ t.outLen
  kept : ∀ a, a < s.outLen ∨ t.outLen ≤ a → Store.read t.out a = Store.read s.out a
  dom : (∀ i, (Store.read s.out i).isSome = true ↔ i < s.outLen) → ∀ i, (Store.read t.out i).isSome = true ↔ i < t.outLen
  cap : s.outLen ≤ s.params.outCap.toNat → t.outLen ≤ s.params.outCap.toNat
  wf : Store.wf s.out = true → Store.wf t.out = true
  token : (∀ i x, Store.read s.out i = some x → x.toNat ≤ 0x100) → ∀ i x, Store.read t.out i = some x → x.toNat ≤ 0x100

namespace Emitted

variable {s t u : State}

theorem phase (h : Emitted s t) : t.phase = s.phase := (congrArg (fun u : State => u.phase) h.frame :)
theorem cfg (h : Emitted s t) : t.cfg = s.cfg := (congrArg (fun u : State => u.cfg) h.frame :)
theorem w (h : Emitted s t) : t.w = s.w := (congrArg (fun u : State => u.w) h.frame :)
theorem dsize (h : Emitted s t) : t.dsize = s.dsize := (congrArg (fun u : State => u.dsize) h.frame :)
theorem dict (h : Emitted s t) : t.dict = s.dict := (congrArg (fun u : State => u.dict) h.frame :)
theorem cur (h : Emitted s t) : t.cur = s.cur := (congrArg (fun u : State => u.cur) h.frame :)
theorem params (h : Emitted s t) : t.params = s.params := (congrArg (fun u : State => u.params) h.frame :)

theorem refl (s : State) : Emitted s s := ⟨rfl, le_rfl, fun _ _ => rfl, id, id, id, id⟩

theorem trans (h : Emitted s t) (k : Emitted t u) : Emitted s u where
  frame := by
    have h1 := h.frame
    have h2 := k.frame
    rw [h1] at h2
    exact h2
  grows := h.grows.trans k.grows
  kept a ha := by
    have h1 := h.grows
    have h2 := k.grows
    rw [k.kept a (by omega), h.kept a (by omega)]
  dom hd := k.dom (h.dom hd)
  cap hc := by
    have := k.cap (by rw [h.params]; exact h.cap hc)
    rwa [h.params] at this
  wf hw := k.wf (h.wf hw)
  token ht := k.token (h.token ht)

end Emitted

/-- E_OVF(1) raised after some appends. -/
def OutOverflow (s t : State) : Prop := ∃ u, Emitted s u ∧ t = raise .ovf 1 u

theorem OutOverflow.after {s u t : State} (h : Emitted s u) (k : OutOverflow u t) : OutOverflow s t := by
  obtain ⟨v, hv, ht⟩ := k
  exact ⟨v, h.trans hv, ht⟩

theorem outAppend_post (x : Token) (s : State) (hx : x.toNat ≤ 0x100) :
    Res.Post (fun _ t => Emitted s t) (OutOverflow s) False (outAppend x s) := by
  unfold outAppend
  split
  · exact ⟨s, Emitted.refl s, rfl⟩
  · rename_i hne
    refine ⟨rfl, by simp, fun a ha => ?_, fun hd i => ?_, fun hc => ?_, fun hw => Store.wf_write _ _ _ hw,
      fun hd i y hy => ?_⟩
    · simp only at ha
      exact Store.read_write_other _ _ (by omega)
    · simp only [Store.read_write]
      by_cases hi : s.outLen = i
      · subst hi
        simp
      · rw [if_neg hi, hd i]
        omega
    · simp only
      omega
    · simp only [Store.read_write] at hy
      split at hy
      · simp only [Option.some.injEq] at hy
        exact hy ▸ hx
      · exact hd i y hy

theorem byteToken_le (b : Byte) : (byteToken b).toNat ≤ 0x100 := by
  have := b.isLt
  simp [byteToken]
  omega

theorem emitString_post (str : Str) (s : State) :
    Res.Post (fun _ t => Emitted s t) (OutOverflow s) False (emitString str s) := by
  induction str generalizing s with
  | nil => exact Emitted.refl s
  | cons b rest ih =>
    refine Res.Post.bind (outAppend_post _ s (byteToken_le b)) (fun _ t ht => ?_) (fun _ h => h) id
    exact (ih t).mono (fun _ _ hu => ht.trans hu) (fun _ hr => hr.after ht) id

@[simp] theorem outExtend_nil (s : State) : outExtend [] s = s := rfl

theorem outExtend_append (as bs : List Token) (s : State) :
    outExtend (as ++ bs) s = outExtend bs (outExtend as s) := by
  simp [outExtend, Store.writeAll_append, Nat.add_assoc]

/-- One append: the token is in OUT, or OUT was full (20_memory R43). -/
theorem outAppend_eq (x : Token) (s : State) (h : s.outLen ≤ s.params.outCap.toNat) :
    outAppend x s = if outRoom 1 s then .done () (outExtend [x] s) else .raised (outOverflow [x] s) := by
  unfold outAppend outRoom outOverflow
  by_cases hfull : s.outLen = s.params.outCap.toNat
  · rw [if_pos hfull, if_neg (by omega), show s.params.outCap.toNat - s.outLen = 0 by omega]
    rfl
  · rw [if_neg hfull, if_pos (by omega)]
    rfl

/-- A whole string: its tokens are in OUT, or those that fit (46_decompress R177). -/
theorem emitString_eq (str : Str) (s : State) (h : s.outLen ≤ s.params.outCap.toNat) :
    emitString str s =
      if outRoom str.length s then .done () (outExtend (tokensOf str) s) else .raised (outOverflow (tokensOf str) s) := by
  induction str generalizing s with
  | nil =>
    rw [if_pos (by simpa [outRoom] using h)]
    rfl
  | cons b rest ih =>
    rw [emitString, outAppend_eq _ _ h]
    by_cases h1 : outRoom 1 s
    · have h' : (outExtend [byteToken b] s).outLen ≤ (outExtend [byteToken b] s).params.outCap.toNat := h1
      rw [if_pos h1, Res.bind_done, ih _ h']
      unfold outRoom at h1
      by_cases h2 : outRoom (b :: rest).length s
      · rw [if_pos h2, if_pos (by simp [outRoom, outExtend] at h2 ⊢; omega), ← outExtend_append]
        rfl
      · rw [if_neg h2, if_neg (by simp [outRoom, outExtend] at h2 ⊢; omega)]
        unfold outOverflow
        rw [← outExtend_append]
        congr 3
        simp only [outExtend, List.length_singleton, tokensOf, List.map_cons]
        rw [show s.params.outCap.toNat - s.outLen = (s.params.outCap.toNat - (s.outLen + 1)) + 1 by omega,
          List.take_succ_cons]
        rfl
    · rw [if_neg h1, Res.bind_raised, if_neg (by simp [outRoom] at h1 ⊢; omega)]
      unfold outRoom at h1
      unfold outOverflow
      rw [show s.params.outCap.toNat - s.outLen = 0 by omega]
      rfl

end Sys2Proof.Machine
end

