-- ==== Sys2Proof/Laws/Encoding.lean ====
section
/-!
SUPPORT. The two fields of a command word, and the operand byte, as bit strings (30_encoding R60, R61).
-/

namespace Sys2Proof

theorem opcOf_append (opc : Byte) (opd : Word) : opcOf (opc ++ opd) = opc := by
  refine BitVec.eq_of_getLsbD_eq fun i hi => ?_
  have := BitVec.getLsbD_append (x := opc) (y := opd) (i := 32 + i)
  simp only [opcOf, BitVec.getLsbD_extractLsb', hi, decide_true, Bool.true_and]
  exact this.trans (by simp)

theorem opdOf_append (opc : Byte) (opd : Word) : opdOf (opc ++ opd) = opd := by
  refine BitVec.eq_of_getLsbD_eq fun i hi => ?_
  have := BitVec.getLsbD_append (x := opc) (y := opd) (i := i)
  simp only [opdOf, BitVec.getLsbD_extractLsb', hi, decide_true, Bool.true_and, Nat.zero_add]
  exact this.trans (by simp [hi])

/-- A word is its two fields. -/
theorem fields_append (cmd : Cmd) : opcOf cmd ++ opdOf cmd = cmd := by
  refine BitVec.eq_of_getLsbD_eq fun i hi => ?_
  simp only [opcOf, opdOf, BitVec.getLsbD_append, BitVec.getLsbD_extractLsb', Nat.zero_add]
  split
  · simp [*]
  · simp [show 32 + (i - 32) = i by omega]
    omega

theorem byte_high (b : Byte) : (b.zeroExtend 32).extractLsb' 8 24 = 0 := by
  refine BitVec.eq_of_getLsbD_eq fun i hi => ?_
  simp

theorem byte_low (b : Byte) : (b.zeroExtend 32).extractLsb' 0 8 = b := by
  refine BitVec.eq_of_getLsbD_eq fun i hi => ?_
  simp only [BitVec.getLsbD_extractLsb', hi, decide_true, Nat.zero_add, Bool.true_and, BitVec.truncate_eq_setWidth,
    BitVec.getLsbD_setWidth, decide_eq_true (show i < 32 by omega)]

theorem byte_zext (opd : Word) (h : opd.extractLsb' 8 24 = 0) : (opd.extractLsb' 0 8).zeroExtend 32 = opd := by
  refine BitVec.eq_of_getLsbD_eq fun i hi => ?_
  by_cases h8 : i < 8
  · simp [h8]
    omega
  · have := congrArg (fun x => BitVec.getLsbD x (i - 8)) h
    simp only [BitVec.getLsbD_extractLsb', show 8 + (i - 8) = i by omega] at this
    simp only [decide_eq_true (show i - 8 < 24 by omega), Bool.true_and] at this
    simp [h8, this]

end Sys2Proof
end

