-- ==== Sys2Proof/Laws/Invariant.lean ====
section
/-!
SUPPORT. The invariant: it holds after reset, SRST and BEGIN, and every shared operation keeps it. Everything an
instruction needs is one lemma per operation here; the instructions themselves are one lemma each at the end.
-/

namespace Sys2Proof.Machine

variable {s t u : State}

/-! ### The phase-independent part -/

theorem Memory.wf_iff (s : State) : Memory.wf s = true ↔ Store.wf (α := Byte) s.src = true ∧
    Store.wf (α := Byte) s.snk = true ∧ Store.wf s.out = true ∧ Store.wf s.dict = true := by
  simp [Memory.wf, and_assoc]

namespace BaseInv

theorem wfSrc (h : BaseInv s) : Store.wf (α := Byte) s.src = true := ((Memory.wf_iff s).1 h.memory).1
theorem wfSnk (h : BaseInv s) : Store.wf (α := Byte) s.snk = true := ((Memory.wf_iff s).1 h.memory).2.1
theorem wfOut (h : BaseInv s) : Store.wf s.out = true := ((Memory.wf_iff s).1 h.memory).2.2.1

theorem wrote (h : BaseInv s) (k : Wrote s t) : BaseInv t := by
  have hdom := k.dom h.snkDom
  have hcap := k.cap h.snkLen
  have hwf := k.wf h.wfSnk
  have hprng := k.prngLt
  have hmem : Memory.wf t = true := (Memory.wf_iff t).2 (by
    rw [k.frame]; exact ⟨h.wfSrc, hwf, h.wfOut, h.wfDict⟩)
  rw [k.frame] at hmem ⊢
  exact { h with snkDom := hdom, snkLen := hcap, memory := hmem, prng := fun hp => hprng hp (h.prng hp) }

theorem fetched (h : BaseInv s) (k : Fetched s t) : BaseInv t := by
  have hprng := k.prngLt
  have hpos := k.within.trans (max_le h.srcPosCap h.srcLen)
  rw [k.frame]
  exact { h with srcPosCap := hpos, prng := fun hp => hprng hp (h.prng hp) }

theorem emitted (h : BaseInv s) (k : Emitted s t) : BaseInv t := by
  have hdom := k.dom h.outDom
  have hcap := k.cap h.outLen
  have htok := k.token h.outToken
  have hwf := k.wf h.wfOut
  have hmem : Memory.wf t = true := (Memory.wf_iff t).2 (by
    rw [k.frame]; exact ⟨h.wfSrc, h.wfSnk, hwf, h.wfDict⟩)
  rw [k.frame] at hmem ⊢
  exact { h with outDom := hdom, outLen := hcap, outToken := htok, memory := hmem }

theorem setPhase (h : BaseInv s) (p : Phase) : BaseInv { s with phase := p } := { h with }

theorem setCand (h : BaseInv s) (c : Str) : BaseInv { s with cand := c } := { h with }

end BaseInv

theorem causeCode_ne_zero (c : Cause) : causeCode c ≠ 0 := by cases c <;> decide

theorem causeCode_le (c : Cause) : (causeCode c).toNat ≤ 6 := by cases c <;> decide

/-- Taking a fault anywhere inside a command leaves a state that meets the invariant. -/
theorem BaseInv.raise (h : BaseInv s) (c : Cause) (info : Word) : Inv (raise c info s) where
  toBaseInv := { h with }
  widthActive := by simp [compressing, decompressing]
  dirCompress := by simp [compressing]
  dirDecompress := by simp [decompressing]
  dsizeOpen := by simp [compressing]
  dsizeDecode := by simp [decompressing]
  dictInj := by simp [compressing]
  candKey := by simp [compressing]
  candUnused := by simp
  decoderIdle := by simp [compressing]
  wbufShort := by simp [compressing]
  wbufUnused := by simp
  rbufShort := by simp [decompressing]
  rbufUnused := by simp
  eosUnused := by simp [compressing]
  srcPos := by simp [decompressing]
  errPhase := ⟨fun _ => causeCode_ne_zero c, fun _ => rfl⟩
  errCode := causeCode_le c
  errInfo := fun hz => absurd hz (causeCode_ne_zero c)

theorem SnkOverflow.inv (h : BaseInv s) (k : SnkOverflow s t) : Inv t := by
  obtain ⟨u, hu, ht⟩ := k
  exact ht ▸ (h.wrote hu).raise _ _

theorem BadSymbol.inv (h : BaseInv s) (k : BadSymbol s t) : Inv t := by
  obtain ⟨u, hu, ht⟩ := k
  exact ht ▸ (h.fetched hu).raise _ _

theorem OutOverflow.inv (h : BaseInv s) (k : OutOverflow s t) : Inv t := by
  obtain ⟨u, hu, ht⟩ := k
  exact ht ▸ (h.emitted hu).raise _ _

/-! ### The dictionary -/

theorem pow_bounds {w : Nat} (h : 9 ≤ w) : 512 ≤ 2 ^ w :=
  calc 512 = 2 ^ 9 := by decide
    _ ≤ 2 ^ w := Nat.pow_le_pow_right (by decide) h

theorem wmin_bounds (h : BaseInv s) : 9 ≤ wmin s.cfg ∧ wmin s.cfg ≤ 16 := by
  have := h.fixw
  unfold wmin
  split
  · decide
  · exact this

theorem wmax_le (h : BaseInv s) : wmax s.cfg ≤ 16 := by
  have := h.fixw
  unfold wmax
  split
  · decide
  · exact this.2

theorem wmin_le_wmax (c : Cfg) : wmin c ≤ wmax c := by
  unfold wmin wmax
  split <;> simp [Config.wminVar, Config.wmaxVar]

/-- An insertion of an existing entry extended by one byte, with room at the width. -/
theorem BaseInv.insert (h : BaseInv s) {p : Nat} {pre : Str} (b : Byte) (hp : dictRead p s = some pre)
    (hroom : s.dsize + 1 ≤ 2 ^ s.w - 1) : BaseInv (dictInsert (pre ++ [b]) s) := by
  have hd := h.dsize
  refine { h with dsize := ⟨by simp; omega, by simpa using hroom⟩, dictDom := fun c => ?_,
                  dictPhrase := fun c e hc => ?_, curDefined := fun hr => ?_, memory := ?_ }
  · simp only [dictInsert_dict, dictInsert_dsize, Store.read_write]
    by_cases hc : s.dsize = c
    · subst hc
      simp [hd.1]
    · rw [if_neg hc, h.dictDom c]
      omega
  · simp only [dictInsert_dict, Store.read_write] at hc
    split at hc
    · rename_i heq
      simp only [Option.some.injEq] at hc
      have hlt := dictRead_lt hp
      refine ⟨p, pre, b, by omega, ?_, h.dictRead_ne_nil hp, hc.symm⟩
      rw [dictRead_insert _ _ hd.1, if_neg (by omega), hp]
    · obtain ⟨q, pre', b', hq, hr, hne, he⟩ := h.dictPhrase c e hc
      refine ⟨q, pre', b', hq, ?_, hne, he⟩
      rw [dictRead_insert _ _ hd.1, if_neg (by have := dictRead_lt hr; omega), hr]
  · have := h.curDefined hr
    simp only [dictInsert_cur, dictInsert_dsize]
    omega
  · rw [Memory.wf_iff]
    exact ⟨h.wfSrc, h.wfSnk, h.wfOut, Store.wf_write _ _ _ h.wfDict⟩

theorem BaseInv.grow (h : BaseInv s) (hw : s.w < 16) : BaseInv (growWidth s) := by
  have hd := h.dsize
  have hb := pow_bounds h.width.1
  refine { h with width := ⟨by have := h.width; simp; omega, by simp; omega⟩, dsize := ⟨hd.1, ?_⟩ }
  simp only [growWidth_dsize, growWidth_w, Nat.pow_succ]
  omega

/-- A restart, with the decoder back in PRIME or never out of it. -/
theorem BaseInv.restart (h : BaseInv s) (hp : s.dstate = .prime) : BaseInv (dictRestart s) := by
  have hw := wmin_bounds h
  have hb := pow_bounds hw.1
  refine { h with width := hw, dsize := ⟨by simp [Config.base], ?_⟩, dictDom := fun c => ?_,
                  dictPhrase := fun c e hc => ?_, curDefined := fun hr => ?_, memory := ?_ }
  · simp only [dictRestart_dsize, dictRestart_w, Config.base]
    omega
  · simp only [dictRestart_dict, dictRestart_dsize, Store.read, Config.base, Option.isSome_none]
    constructor
    · simp
    · omega
  · simp [Store.read] at hc
  · simp [hp] at hr
  · rw [Memory.wf_iff]
    exact ⟨h.wfSrc, h.wfSnk, h.wfOut, rfl⟩

theorem dictRestart_inj (s : State) (a b : Nat) (e : Str) (ha : dictRead a (dictRestart s) = some e)
    (hb : dictRead b (dictRestart s) = some e) : a = b := by
  rw [dictRead_restart] at ha hb
  split at ha <;> split at hb <;> simp_all only [Option.some.injEq, reduceCtorEq]
  simp only [← hb, List.cons.injEq, and_true] at ha
  have := congrArg BitVec.toNat ha
  simp only [BitVec.toNat_ofNat] at this
  omega

/-! ### Instructions that only write registers -/

/-- SRST leaves a state that meets the invariant, from any state whose SRC does (40_control R96). -/
theorem softReset_inv (hw : Store.wf (α := Byte) s.src = true)
    (hd : ∀ i, (Store.read (α := Byte) s.src i).isSome = true → i < s.params.srcCap.toNat) : Inv (softReset s) := by
  have e : ∀ c, Store.read (softReset s).dict c = none := fun _ => rfl
  refine
    { fixw := ⟨by simp [State.reset, Config.fixwDefault], by simp [State.reset, Config.fixwDefault]⟩,
      width := by simp [State.reset], dsize := by simp [State.reset, Config.base], dictDom := fun c => ?_,
      dictPhrase := fun c x hc => ?_, curDefined := ?_, curPrime := ?_, srcLen := Nat.zero_le _,
      srcPosCap := Nat.zero_le _, srcDom := hd,
      snkLen := Nat.zero_le _, snkDom := fun i => ?_, outLen := Nat.zero_le _, outDom := fun i => ?_,
      outToken := fun i x hx => ?_, memory := (Memory.wf_iff _).2 ⟨hw, rfl, rfl, rfl⟩, result := fun _ => rfl,
      prng := fun hp => ?_, widthActive := ?_, dirCompress := ?_, dirDecompress := ?_, dsizeOpen := ?_,
      dsizeDecode := ?_, dictInj := ?_, candKey := ?_, candUnused := ?_, decoderIdle := ?_, wbufShort := ?_,
      wbufUnused := ?_, rbufShort := ?_, rbufUnused := ?_, eosUnused := ?_, srcPos := ?_, errPhase := ?_,
      errCode := ?_, errInfo := fun _ => rfl } <;>
    simp_all [State.reset, compressing, decompressing, Store.read, Config.base, prngSeed]

/-- The hardware reset leaves a state that meets the invariant, from any state (10_state R38). -/
theorem hardReset_inv (s : State) : Inv (hardReset s) :=
  softReset_inv (s := { s with src := [], srcEpoch := s.srcEpoch + 1 }) rfl (by simp [Store.read])

/-- What a quiet phase is: the engine waits outside a pass. -/
def quiet (p : Phase) : Prop := p = .idle ∨ p = .done

theorem quiet_iff {p : Phase} : p ∈ [Phase.idle, Phase.done] ↔ quiet p := by simp [quiet]

theorem quiet_not_compressing {p : Phase} (h : quiet p) : ¬ compressing p := by
  rcases h with rfl | rfl <;> simp [compressing]

theorem quiet_not_decompressing {p : Phase} (h : quiet p) : ¬ decompressing p := by
  rcases h with rfl | rfl <;> simp [decompressing]

theorem Inv.setCfg (h : Inv s) (hq : quiet s.phase) (c : Cfg) (hc : 9 ≤ c.fixw.toNat ∧ c.fixw.toNat ≤ 16) :
    Inv { s with cfg := c } := by
  have h1 := quiet_not_compressing hq
  have h2 := quiet_not_decompressing hq
  exact
    { h with
      fixw := hc, widthActive := fun hp => absurd hp (by simp [h1, h2]), dirCompress := fun hp => absurd hp h1,
      dirDecompress := fun hp => absurd hp h2, wbufShort := fun hp => absurd hp h1,
      rbufShort := fun hp => absurd hp h2 }

theorem Inv.setKey (h : Inv s) (k : Word) : Inv { s with key := k } := { h with }

theorem Inv.setSrcLen (h : Inv s) (hq : quiet s.phase) (n : Nat) (hn : n ≤ s.params.srcCap.toNat) :
    Inv { s with srcLen := n } :=
  { h with srcLen := hn, srcPos := fun hp => absurd hp (quiet_not_decompressing hq) }

theorem beginPhase_cases (d : Dir) : (d = .compress ∧ beginPhase d = .cHdr) ∨ (d = .decompress ∧ beginPhase d = .dHdr) := by
  cases d <;> simp [beginPhase]

/-- BEGIN leaves a state that meets the invariant (40_control R95). -/
theorem Inv.begin (h : Inv s) (he : s.phase ≠ .err) : Inv (beginState s) := by
  have hw := wmin_bounds h.toBaseInv
  have hb := pow_bounds hw.1
  have hG := groupSize_bounds s.cfg
  have herr : s.err = 0 := by
    by_contra hne
    exact he (h.errPhase.2 hne)
  have hne : beginPhase s.cfg.dir ≠ .err := by cases s.cfg.dir <;> simp [beginPhase]
  refine
    { fixw := h.fixw, width := hw, dsize := ⟨by simp [Config.base], ?_⟩, dictDom := fun c => ?_,
      dictPhrase := fun c x hc => ?_, curDefined := ?_, curPrime := ?_, srcLen := h.srcLen,
      srcPosCap := Nat.zero_le _, srcDom := h.srcDom,
      snkLen := Nat.zero_le _, snkDom := fun i => ?_, outLen := Nat.zero_le _, outDom := fun i => ?_,
      outToken := fun i x hx => ?_, memory := (Memory.wf_iff _).2 ⟨h.wfSrc, rfl, rfl, rfl⟩, result := ?_,
      prng := fun hp => ?_, widthActive := fun _ => ⟨le_rfl, wmin_le_wmax s.cfg⟩, dirCompress := fun hp => ?_,
      dirDecompress := fun hp => ?_, dsizeOpen := fun _ _ => ?_, dsizeDecode := fun _ => ?_,
      dictInj := fun _ c d e hc hd => ?_, candKey := fun _ => .inl rfl, candUnused := fun _ _ => rfl,
      decoderIdle := fun _ => rfl, wbufShort := fun _ => ?_, wbufUnused := fun _ _ => rfl, rbufShort := fun _ _ => ?_,
      rbufUnused := fun _ _ _ => rfl, eosUnused := fun _ => rfl, srcPos := fun _ => Nat.zero_le _,
      errPhase := ?_, errCode := ?_, errInfo := h.errInfo }
  · simp only [beginState_dsize, beginState_w, Config.base]; omega
  · simp only [beginState_dict, beginState_dsize, Store.read, Config.base, Option.isSome_none]
    constructor
    · simp
    · omega
  · simp [Store.read] at hc
  · simp
  · simp
  · simp [Store.read]
  · simp [Store.read]
  · simp [Store.read] at hx
  · simp
  · simp only [beginState_params] at hp
    simp only [beginState_prng, prngSeed, hp]
    exact s.key.isLt
  · rcases beginPhase_cases s.cfg.dir with ⟨h1, h2⟩ | ⟨h1, h2⟩
    · exact h1
    · simp [compressing, h2] at hp
  · rcases beginPhase_cases s.cfg.dir with ⟨h1, h2⟩ | ⟨h1, h2⟩
    · simp [decompressing, h2] at hp
    · exact h1
  · simp only [beginState_dsize, beginState_w, Config.base]; omega
  · simp only [beginState_dsize, beginState_w, Config.base]; omega
  · exact dictRestart_inj s c d e hc hd
  · simp; omega
  · simp; omega
  · simp [hne, herr]
  · simp [herr]

/-! ### Writing and reading inside a pass -/

theorem Inv.wrote (h : Inv s) (hc : compressing s.phase) (k : Wrote s t) (hw : t.wbuf.length < groupSize s.cfg) :
    Inv t := by
  have hb := h.toBaseInv.wrote k
  rw [k.frame] at hb ⊢
  exact { hb, h with wbufShort := fun _ => hw, wbufUnused := fun hn => absurd hc hn }

/-- Entering the body of a compress pass. -/
theorem Inv.enterBody (h : Inv s) (hc : compressing s.phase) : Inv { s with phase := .cBody } := by
  have hc' : compressing Phase.cBody := .inr rfl
  have hnd : ¬ decompressing Phase.cBody := by simp [decompressing]
  have hne : s.phase ≠ .err := by rcases hc with h | h <;> simp [h]
  have hnd' : ¬ decompressing s.phase := by rcases hc with h | h <;> simp [h, decompressing]
  have herr : s.err = 0 := by
    by_contra hz
    exact hne (h.errPhase.2 hz)
  exact
    { h with
      widthActive := fun _ => h.widthActive (.inl hc), dirCompress := fun _ => h.dirCompress hc,
      dirDecompress := fun hp => absurd hp hnd, dsizeOpen := fun _ => h.dsizeOpen hc,
      dsizeDecode := fun hp => absurd hp hnd, dictInj := fun _ => h.dictInj hc, candKey := fun _ => h.candKey hc,
      candUnused := fun hn => absurd hc' hn, decoderIdle := fun _ => h.decoderIdle hc,
      wbufShort := fun _ => h.wbufShort hc, wbufUnused := fun hn => absurd hc' hn,
      rbufShort := fun hp => absurd hp hnd, rbufUnused := fun _ _ => h.rbufUnused hnd' hne,
      eosUnused := fun _ => h.eosUnused (.inr hc), srcPos := fun hp => absurd hp hnd,
      errPhase := by simp [herr] }

/-- Entering the body of a decompress pass. -/
theorem Inv.enterDecode (h : Inv s) (hd : decompressing s.phase) : Inv { s with phase := .dBody } := by
  have hd' : decompressing Phase.dBody := .inr rfl
  have hnc : ¬ compressing Phase.dBody := by simp [compressing]
  have hne : s.phase ≠ .err := by rcases hd with h | h <;> simp [h]
  have hnc' : ¬ compressing s.phase := by rcases hd with h | h <;> simp [h, compressing]
  have herr : s.err = 0 := by
    by_contra hz
    exact hne (h.errPhase.2 hz)
  exact
    { h with
      widthActive := fun _ => h.widthActive (.inr hd), dirCompress := fun hp => absurd hp hnc,
      dirDecompress := fun _ => h.dirDecompress hd, dsizeOpen := fun hp => absurd hp hnc,
      dsizeDecode := fun _ => h.dsizeDecode hd, dictInj := fun hp => absurd hp hnc, candKey := fun hp => absurd hp hnc,
      candUnused := fun _ _ => h.candUnused hnc' hne, decoderIdle := fun hp => absurd hp hnc,
      wbufShort := fun hp => absurd hp hnc,
      wbufUnused := fun _ _ => h.wbufUnused hnc' hne, rbufShort := fun _ => h.rbufShort hd,
      rbufUnused := fun hn => absurd hd' hn, eosUnused := fun hp => absurd hp (by simp [compressing]),
      srcPos := fun _ => h.srcPos hd, errPhase := by simp [herr] }

theorem Inv.fetched (h : Inv s) (hd : decompressing s.phase) (k : Fetched s t)
    (hr : t.eos = false → t.rbuf.length < groupSize s.cfg) : Inv t := by
  have hb := h.toBaseInv.fetched k
  have hpos := k.within.trans (max_le (h.srcPos hd) le_rfl)
  have hnc : ¬ compressing s.phase := by rcases hd with h | h <;> simp [h, compressing]
  have hni : ¬ s.phase = .idle := by rcases hd with h | h <;> simp [h]
  rw [k.frame] at hb ⊢
  exact
    { hb, h with
      rbufShort := fun _ => hr, rbufUnused := fun hn => absurd hd hn,
      eosUnused := fun hp => absurd hp (by simp [hnc, hni]), srcPos := fun _ => hpos }

theorem Inv.emitted (h : Inv s) (k : Emitted s t) : Inv t := by
  have hb := h.toBaseInv.emitted k
  rw [k.frame] at hb ⊢
  exact { hb, h with }

/-! ### The compress commands -/

theorem codeOf_single_isSome (b : Byte) (s : State) : (codeOf [b] s).isSome = true := rfl

/-- The policy with an entry to insert: `S ++ [C]`, not a key, and then `S <- [C]` (44_dictionary R149). -/
theorem Inv.policyInsert (h : Inv s) (hc : compressing s.phase) {p : Nat} (c : Byte) (hp : codeOf s.cand s = some p)
    (hn : codeOf (s.cand ++ [c]) s = none) :
    Inv { encPolicy (some (s.cand ++ [c])) s with cand := [c] } := by
  have hb := h.toBaseInv
  have hd := h.dsize
  have hpow := pow_bounds h.width.1
  have hread := hb.codeOf_some hp
  have hne : s.phase ≠ .err := by rcases hc with h | h <;> simp [h]
  have hnd : ¬ decompressing s.phase := by rcases hc with h | h <;> simp [h, decompressing]
  have hact := h.widthActive (.inl hc)
  have hfresh := codeOf_none hn
  have hinj := h.dictInj hc
  -- injectivity after the insertion, at whatever width
  have key : ∀ u : State, u.dict = s.dict → u.dsize = s.dsize → ∀ a b e,
      dictRead a (dictInsert (s.cand ++ [c]) u) = some e → dictRead b (dictInsert (s.cand ++ [c]) u) = some e →
        a = b := by
    intro u hu1 hu2 a b e ha hb'
    rw [dictRead_insert _ _ (by omega), dictRead_congr hu1 hu2] at ha hb'
    split at ha <;> split at hb'
    · omega
    · simp only [Option.some.injEq] at ha
      exact absurd (ha ▸ hb') (hfresh b)
    · simp only [Option.some.injEq] at hb'
      exact absurd (hb' ▸ ha) (hfresh a)
    · exact hinj a b e ha hb'
  unfold encPolicy isFullEnc limit
  by_cases hfull : 2 ^ s.w - 1 ≤ s.dsize
  · rw [if_pos (by simpa using hfull)]
    by_cases hgrow : s.w < wmax s.cfg
    · rw [if_pos hgrow]
      have hmax := wmax_le hb
      have hb2 : BaseInv (dictInsert (s.cand ++ [c]) (growWidth s)) := by
        refine BaseInv.insert (hb.grow (by omega)) c (p := p) ?_ ?_
        · rw [← hread]
          exact dictRead_congr rfl rfl p
        · simp only [growWidth_dsize, growWidth_w, Nat.pow_succ]
          omega
      exact
        { hb2.setCand [c], h with
          widthActive := fun _ => ⟨by simp [insertOpt]; omega, by simp [insertOpt]; omega⟩,
          dsizeOpen := by simp, dsizeDecode := fun hp => absurd hp hnd,
          dictInj := fun _ => key (growWidth s) rfl rfl, candKey := fun _ => .inr rfl,
          candUnused := fun hn => absurd hc hn }
    · rw [if_neg hgrow]
      have hw := wmin_bounds hb
      have hpw := pow_bounds hw.1
      have hb2 : BaseInv (dictRestart s) := hb.restart (h.decoderIdle hc)
      exact
        { hb2.setCand [c], h with
          widthActive := fun _ => ⟨le_rfl, wmin_le_wmax s.cfg⟩,
          dsizeOpen := by simp, dsizeDecode := fun hp => absurd hp hnd,
          dictInj := fun _ => dictRestart_inj s, candKey := fun _ => .inr rfl,
          candUnused := fun hn => absurd hc hn }
  · rw [if_neg (by simpa using hfull)]
    have hb2 : BaseInv (dictInsert (s.cand ++ [c]) s) := BaseInv.insert hb c hread (by omega)
    exact
      { hb2.setCand [c], h with
        dsizeOpen := by simp, dsizeDecode := fun hp => absurd hp hnd,
        dictInj := fun _ => key s rfl rfl, candKey := fun _ => .inr rfl, candUnused := fun hn => absurd hc hn }

/-- The policy with nothing to insert, and then `S <- ""` (44_dictionary R149, 45_compress R162). -/
theorem Inv.policyNone (h : Inv s) (hc : compressing s.phase) : Inv { encPolicy none s with cand := [] } := by
  have hb := h.toBaseInv
  have hd := h.dsize
  have hpow := pow_bounds h.width.1
  have hnd : ¬ decompressing s.phase := by rcases hc with h | h <;> simp [h, decompressing]
  have hact := h.widthActive (.inl hc)
  unfold encPolicy isFullEnc limit insertOpt
  by_cases hfull : 2 ^ s.w - 1 ≤ s.dsize
  · rw [if_pos (by simpa using hfull)]
    by_cases hgrow : s.w < wmax s.cfg
    · rw [if_pos hgrow]
      have hmax := wmax_le hb
      have hb2 : BaseInv (growWidth s) := hb.grow (by omega)
      exact
        { hb2.setCand [], h with
          widthActive := fun _ => ⟨by simp; omega, by simp; omega⟩,
          dsizeOpen := fun _ _ => by simp only [growWidth_dsize, growWidth_w, Nat.pow_succ]; omega,
          dsizeDecode := fun hp => absurd hp hnd, candKey := fun _ => .inl rfl, candUnused := fun _ _ => rfl }
    · rw [if_neg hgrow]
      have hw := wmin_bounds hb
      have hpw := pow_bounds hw.1
      have hb2 : BaseInv (dictRestart s) := hb.restart (h.decoderIdle hc)
      exact
        { hb2.setCand [], h with
          widthActive := fun _ => ⟨le_rfl, wmin_le_wmax s.cfg⟩,
          dsizeOpen := fun _ _ => by simp only [dictRestart_dsize, dictRestart_w, Config.base]; omega,
          dsizeDecode := fun hp => absurd hp hnd, dictInj := fun _ => dictRestart_inj s,
          candKey := fun _ => .inl rfl, candUnused := fun _ _ => rfl }
  · rw [if_neg (by simpa using hfull)]
    exact
      { hb.setCand [], h with
        dsizeOpen := fun _ _ => by simp only; omega, dsizeDecode := fun hp => absurd hp hnd,
        candKey := fun _ => .inl rfl, candUnused := fun _ _ => rfl }

/-- What a command body does when the invariant holds: it never stops the model, and it leaves the invariant. -/
abbrev KeepsInv (x : Res Unit) : Prop := Res.Post (fun _ t => Inv t) Inv False x

theorem hdrb_keeps (h : Inv s) (hc : compressing s.phase) (b : Byte) : KeepsInv (wrHdr b s) :=
  (wrHdr_post b s).mono (fun _ _ ht => h.wrote hc ht.1 ht.2) (fun _ hr => hr.inv h.toBaseInv) id

theorem symMiss_keeps (h : Inv s) (hc : compressing s.phase) (c : Byte) (hs : s.cand ≠ [])
    (hn : codeOf (s.cand ++ [c]) s = none) : KeepsInv (symMiss c s) := by
  obtain ⟨p, hp⟩ := Option.isSome_iff_exists.1 ((h.candKey hc).resolve_left hs)
  unfold symMiss
  rw [candCode_some hp, Res.bind_done]
  refine Res.Post.bind (wrCode_post p s.w s) (fun _ t ht => ?_) (fun _ hr => hr.inv h.toBaseInv) id
  have k := ht.1
  refine (h.wrote hc k ht.2).policyInsert (by rw [k.phase]; exact hc) c (p := p) ?_ ?_
  · rw [k.cand, codeOf_congr k.dict k.dsize, hp]
  · rw [k.cand, codeOf_congr k.dict k.dsize, hn]

theorem symBody_keeps (h : Inv s) (hc : compressing s.phase) (c : Byte) : KeepsInv (symBody c s) := by
  have h1 := h.enterBody hc
  have hc1 : compressing Phase.cBody := .inr rfl
  have hnd : ¬ decompressing Phase.cBody := by simp [decompressing]
  unfold symBody
  split
  · exact
      { h1.toBaseInv.setCand [c], h1 with
        dsizeOpen := by simp, candKey := fun _ => .inr rfl, candUnused := fun hn => absurd hc1 hn }
  · split
    · rename_i hk
      exact
        { h1.toBaseInv.setCand (s.cand ++ [c]), h1 with
          dsizeOpen := by simp, candKey := fun _ => .inr hk, candUnused := fun hn => absurd hc1 hn }
    · rename_i hs hk
      exact symMiss_keeps h1 hc1 c hs (Option.not_isSome_iff_eq_none.1 hk)

theorem closeCandidate_keeps (h : Inv s) (hc : compressing s.phase) :
    Res.Post (fun _ t => Inv t ∧ compressing t.phase) Inv False (closeCandidate s) := by
  unfold closeCandidate
  split
  · exact ⟨h, hc⟩
  · rename_i hs
    obtain ⟨p, hp⟩ := Option.isSome_iff_exists.1 ((h.candKey hc).resolve_left hs)
    rw [candCode_some hp, Res.bind_done]
    refine Res.Post.bind (wrCode_post p s.w s) (fun _ t ht => ?_) (fun _ hr => hr.inv h.toBaseInv) id
    have k := ht.1
    have hct : compressing t.phase := by rw [k.phase]; exact hc
    refine ⟨(h.wrote hc k ht.2).policyNone hct, ?_⟩
    rw [encPolicy_frame]
    exact hct

theorem eofileBody_keeps (h : Inv s) (hc : compressing s.phase) : KeepsInv (eofileBody s) := by
  unfold eofileBody
  refine Res.Post.bind (closeCandidate_keeps (h.enterBody hc) (.inr rfl)) (fun _ t ht => ?_) (fun _ h => h) id
  exact (wrCode_post _ _ t).mono (fun _ _ hu => ht.1.wrote ht.2 hu.1 hu.2) (fun _ hr => hr.inv ht.1.toBaseInv) id

theorem finishBody_keeps (h : Inv s) (hc : compressing s.phase) : KeepsInv (finishBody s) := by
  unfold finishBody
  split
  · exact h.toBaseInv.raise _ _
  · rename_i hs
    have hs' : s.cand = [] := by simpa using hs
    have hne : s.phase ≠ .err := by rcases hc with h | h <;> simp [h]
    have hnd : ¬ decompressing s.phase := by rcases hc with h | h <;> simp [h, decompressing]
    have hnc' : ¬ compressing Phase.done := by simp [compressing]
    have hnd' : ¬ decompressing Phase.done := by simp [decompressing]
    have herr : s.err = 0 := by
      by_contra hz
      exact hne (h.errPhase.2 hz)
    refine Res.Post.bind (wrCode_post 0 s.w s) (fun _ t ht => ?_) (fun _ hr => hr.inv h.toBaseInv) id
    refine Res.Post.bind (finalize_post t) (fun _ u hu => ?_)
      (fun _ hr => hr.inv (h.toBaseInv.wrote ht.1)) id
    have k := ht.1.trans hu.1
    have hb := (h.toBaseInv.wrote k).setPhase .done
    have hw := hu.2
    have hrb := h.rbufUnused hnd hne
    rw [k.frame] at hb hw ⊢
    exact
      { hb, h with
        widthActive := fun hp => absurd hp (by simp [hnc', hnd']), dirCompress := fun hp => absurd hp hnc',
        dirDecompress := fun hp => absurd hp hnd', dsizeOpen := fun hp => absurd hp hnc',
        dsizeDecode := fun hp => absurd hp hnd', dictInj := fun hp => absurd hp hnc', candKey := fun hp => absurd hp hnc',
        candUnused := fun _ _ => hs', decoderIdle := fun hp => absurd hp hnc', wbufShort := fun hp => absurd hp hnc',
        wbufUnused := fun _ _ => hw, rbufShort := fun hp => absurd hp hnd', rbufUnused := fun _ _ => hrb,
        eosUnused := fun hp => absurd hp (by simp [hnc']), srcPos := fun hp => absurd hp hnd',
        errPhase := by simp [herr] }

/-! ### The decompress commands -/

/-- Reading a code keeps the invariant, and END has set EOS. -/
theorem rdCode_keeps (h : Inv s) (hd : decompressing s.phase) (w : Nat) (hw : 8 ≤ w) :
    Res.Post (fun v t => Inv t ∧ Fetched s t ∧ (v = none → t.eos = true)) Inv False (rdCode w s) := by
  have hG := groupSize_bounds s.cfg
  cases he : s.eos with
  | true =>
    refine (rdCode_frame w s).mono (fun v t ht => ?_) (fun _ hr => hr.inv h.toBaseInv) id
    have hs := ht.1.sticky he
    exact ⟨h.fetched hd ht.1 (by simp [hs]), ht.1, fun _ => hs⟩
  | false =>
    refine (rdCode_post w s (by have := h.rbufShort hd he; omega)).mono (fun v t ht => ?_)
      (fun _ hr => hr.inv h.toBaseInv) id
    obtain ⟨k, hn, hv⟩ := ht
    refine ⟨h.fetched hd k fun hf => ?_, k, hn⟩
    cases v with
    | none => simp [hn rfl] at hf
    | some x => exact (hv x rfl).2.1

/-- Reading a header byte keeps the invariant. -/
theorem rdHdr_keeps (h : Inv s) (hd : decompressing s.phase) :
    Res.Post (fun _ t => Inv t) Inv False (rdHdr s) := by
  have hG := groupSize_bounds s.cfg
  cases he : s.eos with
  | true =>
    refine (rdHdr_frame s).mono (fun v t ht => ?_) (fun _ hr => hr.inv h.toBaseInv) id
    exact h.fetched hd ht.1 (by simp [ht.1.sticky he])
  | false =>
    refine (rdHdr_post s (by have := h.rbufShort hd he; omega)).mono (fun v t ht => ?_)
      (fun _ hr => hr.inv h.toBaseInv) id
    obtain ⟨k, hn, hv⟩ := ht
    refine h.fetched hd k fun hf => ?_
    cases v with
    | none => simp [hn rfl] at hf
    | some x => exact (hv x rfl).1

theorem resultValid_bit (b : Byte) : (resultValid b).getLsbD 8 = true := by
  revert b; decide

theorem hdrrdBody_keeps (h : Inv s) (hd : decompressing s.phase) : KeepsInv (hdrrdBody s) := by
  unfold hdrrdBody
  refine Res.Post.bind (rdHdr_keeps h hd) (fun b t ht => ?_) (fun _ h => h) id
  cases b with
  | none => exact { ht with result := by simp }
  | some b => exact { ht with result := fun hf => Bool.noConfusion (hf.symm.trans (resultValid_bit b)) }

/-- The end of a decompress pass. -/
theorem Inv.passDone (h : Inv s) (hd : decompressing s.phase) (he : s.eos = true) : Inv { s with phase := .done } := by
  have hnc : ¬ compressing s.phase := by rcases hd with h | h <;> simp [h, compressing]
  have hne : s.phase ≠ .err := by rcases hd with h | h <;> simp [h]
  have hnc' : ¬ compressing Phase.done := by simp [compressing]
  have hnd' : ¬ decompressing Phase.done := by simp [decompressing]
  have herr : s.err = 0 := by
    by_contra hz
    exact hne (h.errPhase.2 hz)
  exact
    { h with
      widthActive := fun hp => absurd hp (by simp [hnc', hnd']), dirCompress := fun hp => absurd hp hnc',
      dirDecompress := fun hp => absurd hp hnd', dsizeOpen := fun hp => absurd hp hnc',
      dsizeDecode := fun hp => absurd hp hnd', dictInj := fun hp => absurd hp hnc', candKey := fun hp => absurd hp hnc',
      candUnused := fun _ _ => h.candUnused hnc hne, decoderIdle := fun hp => absurd hp hnc',
      wbufShort := fun hp => absurd hp hnc', wbufUnused := fun _ _ => h.wbufUnused hnc hne,
      rbufShort := fun hp => absurd hp hnd', rbufUnused := fun _ _ hf => by simp [he] at hf,
      eosUnused := fun hp => absurd hp (by simp [hnc']), srcPos := fun hp => absurd hp hnd',
      errPhase := by simp [herr] }

theorem Inv.setRun (h : Inv s) (hd : decompressing s.phase) {c : Nat} (hc : c < s.dsize) :
    Inv { s with cur := c, dstate := .run } := by
  have hnc : ¬ compressing s.phase := by rcases hd with h | h <;> simp [h, compressing]
  exact { h with curDefined := fun _ => hc, curPrime := by simp, decoderIdle := fun hp => absurd hp hnc }

theorem Inv.setPrime (h : Inv s) : Inv { s with cur := 0, dstate := .prime } :=
  { h with curDefined := by simp, curPrime := fun _ => rfl, decoderIdle := fun _ => rfl }

theorem dstepPrime_keeps (h : Inv s) (hd : decompressing s.phase) : KeepsInv (dstepPrime s) := by
  unfold dstepPrime
  have hw := h.width.1
  refine Res.Post.bind (rdCode_keeps h hd s.w (by omega)) (fun c t ht => ?_) (fun _ h => h) id
  obtain ⟨hi, k, he⟩ := ht
  have hdt : decompressing t.phase := by rw [k.phase]; exact hd
  cases c with
  | none => exact hi.passDone hdt (he rfl)
  | some c =>
    simp only
    split
    · exact (outAppend_post boundaryToken t (by decide)).mono (fun _ _ hu => hi.emitted hu)
        (fun _ hr => hr.inv hi.toBaseInv) id
    · split
      · exact hi.toBaseInv.raise _ _
      · exact hi.setRun hdt (by omega)

/-- Reading a defined entry. -/
theorem dictGet_keeps (h : BaseInv s) {c : Nat} (hc : c < s.dsize) :
    ∃ e b rest, dictRead c s = some e ∧ e = b :: rest ∧ dictGet c s = .done e s := by
  obtain ⟨e, he⟩ := h.dictRead_some hc
  have hne := h.dictRead_ne_nil he
  obtain ⟨b, rest, hbr⟩ := List.exists_cons_of_ne_nil hne
  exact ⟨e, b, rest, he, hbr, dictGet_some he⟩

theorem emitString_keeps (h : Inv s) (str : Str) :
    Res.Post (fun _ t => Inv t ∧ Emitted s t) Inv False (emitString str s) :=
  (emitString_post str s).mono (fun _ _ ht => ⟨h.emitted ht, ht⟩) (fun _ hr => hr.inv h.toBaseInv) id

theorem dstepSentinel_keeps (h : Inv s) (hr : s.dstate = .run) : KeepsInv (dstepSentinel s) := by
  obtain ⟨e, _, _, _, _, hg⟩ := dictGet_keeps h.toBaseInv (h.curDefined hr)
  unfold dstepSentinel
  rw [hg, Res.bind_done]
  refine Res.Post.bind (emitString_keeps h e) (fun _ t ht => ?_) (fun _ h => h) id
  refine Res.Post.bind (outAppend_post boundaryToken t (by decide)) (fun _ u hu => ?_)
    (fun _ hr => hr.inv ht.1.toBaseInv) id
  exact (ht.1.emitted hu).setPrime

/-- The decoder's insertion with room at the width, and then `CUR <- n` (46_decompress R177). -/
theorem Inv.decoderInsert (h : Inv s) (hd : decompressing s.phase) (hr : s.dstate = .run) {p n : Nat} {pre : Str}
    (b : Byte) (hp : dictRead p s = some pre) (hn : n ≤ s.dsize) (hroom : s.dsize + 1 ≤ 2 ^ s.w - 2) :
    Inv { dictInsert (pre ++ [b]) s with cur := n } := by
  have hnc : ¬ compressing s.phase := by rcases hd with h | h <;> simp [h, compressing]
  have hb := h.toBaseInv.insert b hp (by omega)
  have hb' : BaseInv { dictInsert (pre ++ [b]) s with cur := n } :=
    { hb with
      curDefined := fun _ => by simp only [dictInsert_dsize]; omega
      curPrime := fun hq => by rw [show s.dstate = .prime from hq] at hr; cases hr }
  exact
    { hb', h with
      dsizeOpen := fun hp => absurd hp hnc, dsizeDecode := fun _ => hroom, dictInj := fun hp => absurd hp hnc,
      candKey := fun hp => absurd hp hnc }

/-- The decoder's growth arm: one bit wider, then the insertion (44_dictionary R150). -/
theorem Inv.decoderGrow (h : Inv s) (hd : decompressing s.phase) (hw : s.w < wmax s.cfg) : Inv (growWidth s) := by
  have hnc : ¬ compressing s.phase := by rcases hd with h | h <;> simp [h, compressing]
  have hmax := wmax_le h.toBaseInv
  have hb := h.toBaseInv.grow (by omega)
  have hact := h.widthActive (.inr hd)
  have hds := h.dsizeDecode hd
  exact
    { hb, h with
      widthActive := fun _ => ⟨by simp; omega, by simp; omega⟩, dsizeOpen := fun hp => absurd hp hnc,
      dsizeDecode := fun _ => by simp only [growWidth_dsize, growWidth_w, Nat.pow_succ]; omega }

/-- The decoder's reset arm: the table restarts and the decoder primes again (46_decompress R177). -/
theorem Inv.decoderRestart (h : Inv s) (hd : decompressing s.phase) :
    Inv { dictRestart s with cur := 0, dstate := .prime } := by
  have hnc : ¬ compressing s.phase := by rcases hd with h | h <;> simp [h, compressing]
  have h0 := h.setPrime
  have hb := h0.toBaseInv.restart rfl
  have hw := wmin_bounds h.toBaseInv
  have hpw := pow_bounds hw.1
  exact
    { hb, h0 with
      widthActive := fun _ => ⟨le_rfl, wmin_le_wmax s.cfg⟩, dsizeOpen := fun hp => absurd hp hnc,
      dsizeDecode := fun _ => by simp only [dictRestart_dsize, dictRestart_w, Config.base]; omega,
      dictInj := fun hp => absurd hp hnc, candKey := fun hp => absurd hp hnc }

theorem dstepArm_keeps (h : Inv s) (hd : decompressing s.phase) (hr : s.dstate = .run) {n : Nat} {current nxt : Str}
    (b : Byte) (hc : dictRead s.cur s = some current) (hn : n ≤ s.dsize) :
    KeepsInv (dstepArm n nxt (decPolicy (current ++ [b]) s).1 (decPolicy (current ++ [b]) s).2) := by
  have hds := h.dsizeDecode hd
  have hpow := pow_bounds h.width.1
  unfold decPolicy isFullDec limit
  by_cases hfull : 2 ^ s.w - 1 - 1 ≤ s.dsize
  · rw [if_pos (by simpa using hfull)]
    by_cases hgrow : s.w < wmax s.cfg
    · rw [if_pos hgrow]
      refine (h.decoderGrow hd hgrow).decoderInsert hd hr (p := s.cur) b ?_ hn ?_
      · rw [← hc]
        exact dictRead_congr rfl rfl _
      · simp only [growWidth_dsize, growWidth_w, Nat.pow_succ]
        omega
    · rw [if_neg hgrow]
      refine Res.Post.bind (emitString_keeps h nxt) (fun _ t ht => ?_) (fun _ h => h) id
      exact ht.1.decoderRestart (by rw [ht.2.phase]; exact hd)
  · rw [if_neg (by simpa using hfull)]
    exact h.decoderInsert hd hr b hc hn (by omega)

theorem dstepData_keeps (h : Inv s) (hd : decompressing s.phase) (hr : s.dstate = .run) (n : Nat) :
    KeepsInv (dstepData n s) := by
  obtain ⟨current, b, rest, hc, hbr, hg⟩ := dictGet_keeps h.toBaseInv (h.curDefined hr)
  unfold dstepData
  rw [hg, Res.bind_done]
  refine Res.Post.bind (emitString_keeps h current) (fun _ t ht => ?_) (fun _ h => h) id
  obtain ⟨hi, k⟩ := ht
  have hdt : decompressing t.phase := by rw [k.phase]; exact hd
  have hrt : t.dstate = .run := by rw [← hr]; exact (congrArg (fun u : State => u.dstate) k.frame :)
  have hct : dictRead t.cur t = some current := by rw [k.cur, dictRead_congr k.dict k.dsize, hc]
  unfold completingByte nextString
  by_cases h1 : n < t.dsize
  · obtain ⟨e, x, xs, he, hx, hge⟩ := dictGet_keeps hi.toBaseInv h1
    subst hx
    simp only [h1, if_true, hge, Res.bind_done, firstByte_cons]
    exact dstepArm_keeps hi hdt hrt x hct h1.le
  · by_cases h2 : n = t.dsize
    · subst hbr
      simp only [h2, if_true, if_false, Res.bind_done, firstByte_cons, lt_irrefl]
      exact dstepArm_keeps hi hdt hrt b hct le_rfl
    · simp only [h1, h2, if_false, Res.bind_raised]
      exact hi.toBaseInv.raise _ _

theorem dstepRun_keeps (h : Inv s) (hd : decompressing s.phase) (hr : s.dstate = .run) : KeepsInv (dstepRun s) := by
  unfold dstepRun
  have hw := h.width.1
  refine Res.Post.bind (rdCode_keeps h hd s.w (by omega)) (fun n t ht => ?_) (fun _ h => h) id
  obtain ⟨hi, k, he⟩ := ht
  have hdt : decompressing t.phase := by rw [k.phase]; exact hd
  have hrt : t.dstate = .run := by rw [← hr]; exact (congrArg (fun u : State => u.dstate) k.frame :)
  cases n with
  | none => exact hi.passDone hdt (he rfl)
  | some n =>
    simp only
    split
    · exact dstepSentinel_keeps hi hrt
    · exact dstepData_keeps hi hdt hrt n

theorem dstepBody_keeps (h : Inv s) (hd : decompressing s.phase) : KeepsInv (dstepBody s) := by
  unfold dstepBody
  split
  · exact dstepPrime_keeps (h.enterDecode hd) (.inr rfl)
  · rename_i hr
    exact dstepRun_keeps (h.enterDecode hd) (.inr rfl) hr

/-! ### Every command, every host move, every step -/

/-- A command whose body keeps the invariant in its legal phases keeps it everywhere, and answers a next state. -/
theorem accept_keeps {opc : Byte} {legal : List Phase} {body : State → Res Unit} (h : Inv s)
    (hb : s.phase ≠ .err → s.phase ∈ legal → KeepsInv (body s)) :
    ∃ t, accept opc legal body s = .next t ∧ Inv t := by
  by_cases he : s.phase = .err
  · exact ⟨s, accept_err he, h⟩
  · by_cases hl : s.phase ∈ legal
    · rw [accept_legal hl he]
      obtain ⟨t, ht, ⟨_, hi⟩ | hi⟩ := (hb he hl).completes
      · exact ⟨t, ht, hi⟩
      · exact ⟨t, ht, hi⟩
    · exact ⟨_, accept_illegal hl he, h.toBaseInv.raise _ _⟩

theorem mem_compressing {p : Phase} (h : p ∈ [Phase.cHdr, Phase.cBody]) : compressing p := by
  simpa [compressing] using h

theorem mem_decompressing {p : Phase} (h : p ∈ [Phase.dHdr, Phase.dBody]) : decompressing p := by
  simpa [decompressing] using h

theorem cfgOfImage_fixw {opd : Word} {c : Cfg} (h : cfgOfImage opd = some c) :
    9 ≤ c.fixw.toNat ∧ c.fixw.toNat ≤ 16 := by
  unfold cfgOfImage at h
  split at h
  · cases h
  · split at h
    · rename_i hf
      simp only [fixwLegal, Bool.and_eq_true, decide_eq_true_eq] at hf
      cases h
      exact hf
    · cases h

theorem Inv.setPort (h : Inv s) (ms : List HostMove) : Inv { s with port := ms } := { h with }

theorem hostWriteSrc_keeps (h : Inv s) (i : Nat) (b : Byte) : ∀ t, hostWriteSrc i b s = .next t → Inv t := by
  intro t ht
  unfold hostWriteSrc at ht
  split at ht
  · split at ht
    · rename_i hi
      cases ht
      exact
        { h with
          srcDom := fun j hj => by
            simp only [Store.read_write] at hj
            split at hj
            · rename_i hij
              exact hij ▸ hi
            · exact h.srcDom j hj
          memory := (Memory.wf_iff _).2 ⟨Store.wf_write _ _ _ h.wfSrc, h.wfSnk, h.wfOut, h.wfDict⟩ }
    · cases ht
  · cases ht

end Sys2Proof.Machine
end

