-- ==== Sys2Proof/Laws/PerInstr.lean ====
section
/-!
SUPPORT. The family `Fields`: the two fields of a command's word are its opcode and its operand (30_encoding R60).
-/

namespace Sys2Proof.Laws.Fields

/-- The fields of the word of a command. -/
def Statement (i : Instr) : Prop := opcOf (encode i) = i.opc ∧ opdOf (encode i) = i.opd

theorem nop : Statement .nop := ⟨opcOf_append _ _, opdOf_append _ _⟩
theorem setcfg (opd : Word) : Statement (.setcfg opd) := ⟨opcOf_append _ _, opdOf_append _ _⟩
theorem setkey (imm32 : Word) : Statement (.setkey imm32) := ⟨opcOf_append _ _, opdOf_append _ _⟩
theorem setsrclen (imm32 : Word) : Statement (.setsrclen imm32) := ⟨opcOf_append _ _, opdOf_append _ _⟩
theorem beginOp : Statement .beginOp := ⟨opcOf_append _ _, opdOf_append _ _⟩
theorem srst : Statement .srst := ⟨opcOf_append _ _, opdOf_append _ _⟩
theorem hdrb (imm8 : Byte) : Statement (.hdrb imm8) := ⟨opcOf_append _ _, opdOf_append _ _⟩
theorem sym (imm8 : Byte) : Statement (.sym imm8) := ⟨opcOf_append _ _, opdOf_append _ _⟩
theorem eofile : Statement .eofile := ⟨opcOf_append _ _, opdOf_append _ _⟩
theorem finish : Statement .finish := ⟨opcOf_append _ _, opdOf_append _ _⟩
theorem hdrrd : Statement .hdrrd := ⟨opcOf_append _ _, opdOf_append _ _⟩
theorem dstep : Statement .dstep := ⟨opcOf_append _ _, opdOf_append _ _⟩

end Sys2Proof.Laws.Fields
end

