-- ==== Sys2Proof/Laws/Port.lean ====
section
/-!
SUPPORT. The model's own fields beside the 23 elements (notes/assumptions/2.md): no primitive and no command writes
`params`, `srcEpoch` or `port`, and none reads `port`. One lemma per operation for each of the two facts.
-/

namespace Sys2Proof.Machine

variable {α β : Type} {o s t : State}

/-! ### Nothing writes the model's own fields -/

/-- `s` has the model's own fields of `o`. -/
structure SameOwn (o s : State) : Prop where
  params : s.params = o.params
  srcEpoch : s.srcEpoch = o.srcEpoch
  port : s.port = o.port

theorem SameOwn.refl (s : State) : SameOwn s s := ⟨rfl, rfl, rfl⟩

/-- A piece of pseudocode ends with the model's own fields of `o`, however it ends. -/
abbrev KeepsOwn (o : State) (x : Res α) : Prop := Res.Post (fun _ t => SameOwn o t) (SameOwn o) True x

theorem KeepsOwn.done {a : α} (h : SameOwn o s) : KeepsOwn o (.done a s) := h

theorem KeepsOwn.bind {x : Res α} {f : α → State → Res β} (h : KeepsOwn o x)
    (hf : ∀ a t, SameOwn o t → KeepsOwn o (f a t)) : KeepsOwn o (x.bind f) :=
  Res.Post.bind h hf (fun _ k => k) id

theorem snkAppend_own (b : Byte) (h : SameOwn o s) : KeepsOwn o (snkAppend b s) := by
  unfold snkAppend
  split <;> exact ⟨h.params, h.srcEpoch, h.port⟩

theorem outAppend_own (x : Token) (h : SameOwn o s) : KeepsOwn o (outAppend x s) := by
  unfold outAppend
  split <;> exact ⟨h.params, h.srcEpoch, h.port⟩

theorem emitString_own (str : Str) (h : SameOwn o s) : KeepsOwn o (emitString str s) := by
  induction str generalizing s with
  | nil => exact h
  | cons b rest ih => exact (outAppend_own _ h).bind fun _ _ k => ih k

theorem dictGet_own (c : Nat) (h : SameOwn o s) : KeepsOwn o (dictGet c s) := by
  unfold dictGet
  split
  · exact h
  · trivial

theorem firstByte_own (e : Str) (h : SameOwn o s) : KeepsOwn o (firstByte e s) := by
  cases e
  · trivial
  · exact h

theorem candCode_own (h : SameOwn o s) : KeepsOwn o (candCode s) := by
  unfold candCode
  split
  · exact h
  · trivial

theorem emitGroup_own (g : Nat) (h : SameOwn o s) : KeepsOwn o (emitGroup g s) := by
  unfold emitGroup
  split
  · exact snkAppend_own _ h
  · exact (snkAppend_own _ h).bind fun _ _ k => snkAppend_own _ k
  · exact snkAppend_own _ h

theorem fetchSymbol_own (val : Byte → Option Nat) (h : SameOwn o s) : KeepsOwn o (fetchSymbol val s) := by
  unfold fetchSymbol
  split <;> exact ⟨h.params, h.srcEpoch, h.port⟩

theorem fetchGroup_own (h : SameOwn o s) : KeepsOwn o (fetchGroup s) := by
  unfold fetchGroup
  split <;> split
  · exact h
  · exact ⟨h.params, h.srcEpoch, h.port⟩
  · exact h
  · exact (fetchSymbol_own _ h).bind fun _ _ k => (fetchSymbol_own _ k).bind fun _ _ k => k
  · exact h
  · exact (fetchSymbol_own _ h).bind fun _ _ k => k

theorem emitFull_own (rounds : Nat) (h : SameOwn o s) : KeepsOwn o (emitFull rounds s) := by
  induction rounds generalizing s with
  | zero => exact h
  | succ k ih =>
    unfold emitFull
    split
    · refine KeepsOwn.bind (emitGroup_own _ ?_) fun _ _ k => ih k
      exact ⟨h.params, h.srcEpoch, h.port⟩
    · exact h

theorem writeBits_own (v n : Nat) (h : SameOwn o s) : KeepsOwn o (writeBits v n s) := by
  unfold writeBits
  exact emitFull_own _ ⟨h.params, h.srcEpoch, h.port⟩

theorem finalize_own (h : SameOwn o s) : KeepsOwn o (finalize s) := by
  unfold finalize
  split
  · refine KeepsOwn.bind (emitGroup_own _ ?_) fun _ _ k => KeepsOwn.done ⟨k.params, k.srcEpoch, k.port⟩
    exact ⟨h.params, h.srcEpoch, h.port⟩
  · exact h

theorem fillTo_own (n rounds : Nat) (h : SameOwn o s) : KeepsOwn o (fillTo n rounds s) := by
  induction rounds generalizing s with
  | zero => exact h
  | succ k ih =>
    unfold fillTo
    split
    · refine (fetchGroup_own h).bind fun g t k => ?_
      cases g
      · exact ⟨k.params, k.srcEpoch, k.port⟩
      · exact ih ⟨k.params, k.srcEpoch, k.port⟩
    · exact h

theorem readBits_own (n : Nat) (h : SameOwn o s) : KeepsOwn o (readBits n s) := by
  refine (fillTo_own n n h).bind fun filled t k => ?_
  cases filled <;> exact ⟨k.params, k.srcEpoch, k.port⟩

theorem draw_own (h : SameOwn o s) : SameOwn o (draw s).2 := by
  exact ⟨h.params, h.srcEpoch, h.port⟩

theorem wrCode_own (c w : Nat) (h : SameOwn o s) : KeepsOwn o (wrCode c w s) := by
  unfold wrCode
  split
  · exact writeBits_own _ _ (draw_own h)
  · exact writeBits_own _ _ h

theorem wrHdr_own (b : Byte) (h : SameOwn o s) : KeepsOwn o (wrHdr b s) := by
  unfold wrHdr
  split
  · exact writeBits_own _ _ (draw_own h)
  · exact writeBits_own _ _ h

theorem rdCode_own (w : Nat) (h : SameOwn o s) : KeepsOwn o (rdCode w s) := by
  refine (readBits_own w h).bind fun c t k => ?_
  cases c
  · exact k
  · simp only
    split
    · exact draw_own k
    · exact k

theorem rdHdr_own (h : SameOwn o s) : KeepsOwn o (rdHdr s) := by
  refine (readBits_own 8 h).bind fun b t k => ?_
  cases b
  · exact k
  · simp only
    split
    · exact draw_own k
    · exact k

theorem encPolicy_own (e : Option Str) (h : SameOwn o s) : SameOwn o (encPolicy e s) := by
  unfold encPolicy
  cases e <;> split <;> (try split) <;> exact ⟨h.params, h.srcEpoch, h.port⟩

theorem decPolicy_own (e : Str) (h : SameOwn o s) : SameOwn o (decPolicy e s).2 := by
  unfold decPolicy
  split <;> (try split) <;> exact ⟨h.params, h.srcEpoch, h.port⟩

theorem setcfgBody_own (opd : Word) (h : SameOwn o s) : KeepsOwn o (setcfgBody opd s) := by
  unfold setcfgBody
  split <;> exact ⟨h.params, h.srcEpoch, h.port⟩

theorem setsrclenBody_own (n : Word) (h : SameOwn o s) : KeepsOwn o (setsrclenBody n s) := by
  unfold setsrclenBody
  split <;> exact ⟨h.params, h.srcEpoch, h.port⟩

theorem symMiss_own (c : Byte) (h : SameOwn o s) : KeepsOwn o (symMiss c s) := by
  refine (candCode_own h).bind fun code t k => (wrCode_own _ _ k).bind fun _ u k => ?_
  have k := encPolicy_own (some (u.cand ++ [c])) k
  exact ⟨k.params, k.srcEpoch, k.port⟩

theorem symBody_own (c : Byte) (h : SameOwn o s) : KeepsOwn o (symBody c s) := by
  unfold symBody
  split
  · exact ⟨h.params, h.srcEpoch, h.port⟩
  · split
    · exact ⟨h.params, h.srcEpoch, h.port⟩
    · exact symMiss_own c ⟨h.params, h.srcEpoch, h.port⟩

theorem closeCandidate_own (h : SameOwn o s) : KeepsOwn o (closeCandidate s) := by
  unfold closeCandidate
  split
  · exact h
  · refine (candCode_own h).bind fun code t k => (wrCode_own _ _ k).bind fun _ u k => ?_
    have k := encPolicy_own none k
    exact ⟨k.params, k.srcEpoch, k.port⟩

theorem eofileBody_own (h : SameOwn o s) : KeepsOwn o (eofileBody s) := by
  exact (closeCandidate_own (s := { s with phase := .cBody }) ⟨h.params, h.srcEpoch, h.port⟩).bind fun _ _ k => wrCode_own _ _ k

theorem finishBody_own (h : SameOwn o s) : KeepsOwn o (finishBody s) := by
  unfold finishBody
  split
  · exact ⟨h.params, h.srcEpoch, h.port⟩
  · exact (wrCode_own _ _ h).bind fun _ _ k => (finalize_own k).bind fun _ _ k =>
      KeepsOwn.done ⟨k.params, k.srcEpoch, k.port⟩

theorem hdrrdBody_own (h : SameOwn o s) : KeepsOwn o (hdrrdBody s) := by
  refine (rdHdr_own h).bind fun b t k => ?_
  cases b <;> exact ⟨k.params, k.srcEpoch, k.port⟩

theorem dstepPrime_own (h : SameOwn o s) : KeepsOwn o (dstepPrime s) := by
  refine (rdCode_own s.w h).bind fun c t k => ?_
  cases c
  · exact ⟨k.params, k.srcEpoch, k.port⟩
  · simp only
    split
    · exact outAppend_own _ k
    · split <;> exact ⟨k.params, k.srcEpoch, k.port⟩

theorem completingByte_own (n : Nat) (current : Str) (h : SameOwn o s) : KeepsOwn o (completingByte n current s) := by
  unfold completingByte
  split
  · exact (dictGet_own n h).bind fun e _ k => firstByte_own e k
  · split
    · exact firstByte_own current h
    · exact ⟨h.params, h.srcEpoch, h.port⟩

theorem nextString_own (n : Nat) (e : Str) (h : SameOwn o s) : KeepsOwn o (nextString n e s) := by
  unfold nextString
  split
  · exact dictGet_own n h
  · exact h

theorem dstepArm_own (n : Nat) (nxt : Str) (arm : PolicyArm) (h : SameOwn o s) :
    KeepsOwn o (dstepArm n nxt arm s) := by
  cases arm
  · exact ⟨h.params, h.srcEpoch, h.port⟩
  · exact ⟨h.params, h.srcEpoch, h.port⟩
  · exact (emitString_own nxt h).bind fun _ _ k => KeepsOwn.done ⟨k.params, k.srcEpoch, k.port⟩

theorem dstepData_own (n : Nat) (h : SameOwn o s) : KeepsOwn o (dstepData n s) := by
  exact (dictGet_own _ h).bind fun _ _ k => (emitString_own _ k).bind fun _ _ k =>
    (completingByte_own n _ k).bind fun _ _ k => (nextString_own n _ k).bind fun _ _ k =>
    dstepArm_own n _ _ (decPolicy_own _ k)

theorem dstepSentinel_own (h : SameOwn o s) : KeepsOwn o (dstepSentinel s) := by
  exact (dictGet_own _ h).bind fun _ _ k => (emitString_own _ k).bind fun _ _ k =>
    (outAppend_own _ k).bind fun _ _ k => KeepsOwn.done ⟨k.params, k.srcEpoch, k.port⟩

theorem dstepRun_own (h : SameOwn o s) : KeepsOwn o (dstepRun s) := by
  refine (rdCode_own s.w h).bind fun n t k => ?_
  cases n
  · exact ⟨k.params, k.srcEpoch, k.port⟩
  · simp only
    split
    · exact dstepSentinel_own k
    · exact dstepData_own _ k

theorem dstepBody_own (h : SameOwn o s) : KeepsOwn o (dstepBody s) := by
  unfold dstepBody
  split
  · exact dstepPrime_own ⟨h.params, h.srcEpoch, h.port⟩
  · exact dstepRun_own ⟨h.params, h.srcEpoch, h.port⟩

theorem commandBody_own (i : Instr) (h : SameOwn o s) : KeepsOwn o (commandBody i s) := by
  cases i with
  | nop => exact h
  | setcfg opd => exact setcfgBody_own opd h
  | setkey k => exact ⟨h.params, h.srcEpoch, h.port⟩
  | setsrclen n => exact setsrclenBody_own n h
  | beginOp => exact ⟨h.params, h.srcEpoch, h.port⟩
  | srst => exact ⟨h.params, h.srcEpoch, h.port⟩
  | hdrb b => exact wrHdr_own b h
  | sym c => exact symBody_own c h
  | eofile => exact eofileBody_own h
  | finish => exact finishBody_own h
  | hdrrd => exact hdrrdBody_own h
  | dstep => exact dstepBody_own h

/-- Every command keeps the model's own fields. -/
theorem exec_own {i : Instr} (h : exec i s = .next t) : SameOwn s t := by
  rcases exec_cases h (fun _ => commandBody_own i (SameOwn.refl s)) with ⟨_, _, rfl⟩ | ⟨_, _, rfl⟩ | ⟨_, rfl⟩ | ⟨_, _, k⟩
  · exact SameOwn.refl _
  · exact ⟨rfl, rfl, rfl⟩
  · exact ⟨rfl, rfl, rfl⟩
  · exact k.elim id id

/-- No host move changes the parameters, and only the hardware reset counts. -/
theorem applyMove_own (m : HostMove) (h : applyMove m s = .next t) :
    t.params = s.params ∧ t.srcEpoch = epochAfter m s.srcEpoch := by
  cases m with
  | command cmd =>
    simp only [applyMove, acceptWord] at h
    split at h
    · have k := exec_own h
      exact ⟨k.params, k.srcEpoch⟩
    · cases h
      unfold acceptIllegal
      split <;> exact ⟨rfl, rfl⟩
  | writeSrc i b =>
    simp only [applyMove, hostWriteSrc] at h
    split at h
    · split at h
      · cases h
        exact ⟨rfl, rfl⟩
      · cases h
    · cases h
  | hardReset =>
    cases h
    exact ⟨rfl, rfl⟩

/-! ### Nothing reads the host's moves still to come -/

/-- `s` with other host moves still to come. -/
def State.withPort (ms : List HostMove) (s : State) : State := { s with port := ms }

variable (ms : List HostMove)

@[simp] theorem State.withPort_phase : (s.withPort ms).phase = s.phase := rfl
@[simp] theorem State.withPort_cfg : (s.withPort ms).cfg = s.cfg := rfl
@[simp] theorem State.withPort_key : (s.withPort ms).key = s.key := rfl
@[simp] theorem State.withPort_srcLen : (s.withPort ms).srcLen = s.srcLen := rfl
@[simp] theorem State.withPort_w : (s.withPort ms).w = s.w := rfl
@[simp] theorem State.withPort_dsize : (s.withPort ms).dsize = s.dsize := rfl
@[simp] theorem State.withPort_dict : (s.withPort ms).dict = s.dict := rfl
@[simp] theorem State.withPort_cand : (s.withPort ms).cand = s.cand := rfl
@[simp] theorem State.withPort_dstate : (s.withPort ms).dstate = s.dstate := rfl
@[simp] theorem State.withPort_cur : (s.withPort ms).cur = s.cur := rfl
@[simp] theorem State.withPort_wbuf : (s.withPort ms).wbuf = s.wbuf := rfl
@[simp] theorem State.withPort_rbuf : (s.withPort ms).rbuf = s.rbuf := rfl
@[simp] theorem State.withPort_prng : (s.withPort ms).prng = s.prng := rfl
@[simp] theorem State.withPort_eos : (s.withPort ms).eos = s.eos := rfl
@[simp] theorem State.withPort_srcPos : (s.withPort ms).srcPos = s.srcPos := rfl
@[simp] theorem State.withPort_snkLen : (s.withPort ms).snkLen = s.snkLen := rfl
@[simp] theorem State.withPort_outLen : (s.withPort ms).outLen = s.outLen := rfl
@[simp] theorem State.withPort_result : (s.withPort ms).result = s.result := rfl
@[simp] theorem State.withPort_err : (s.withPort ms).err = s.err := rfl
@[simp] theorem State.withPort_errinfo : (s.withPort ms).errinfo = s.errinfo := rfl
@[simp] theorem State.withPort_src : (s.withPort ms).src = s.src := rfl
@[simp] theorem State.withPort_snk : (s.withPort ms).snk = s.snk := rfl
@[simp] theorem State.withPort_out : (s.withPort ms).out = s.out := rfl
@[simp] theorem State.withPort_params : (s.withPort ms).params = s.params := rfl
@[simp] theorem State.withPort_srcEpoch : (s.withPort ms).srcEpoch = s.srcEpoch := rfl
@[simp] theorem State.withPort_port : (s.withPort ms).port = ms := rfl

/-- The end of a piece of pseudocode, with other host moves still to come. -/
def Res.withPort (x : Res α) : Res α :=
  match x with
  | .done a s => .done a (s.withPort ms)
  | .raised s => .raised (s.withPort ms)
  | .stop r => .stop r

/-- A piece of pseudocode does the same whatever host moves are still to come. -/
def PortFree (f : State → Res α) : Prop := ∀ ms s, f (s.withPort ms) = (f s).withPort ms

theorem PortFree.bind {f : State → Res α} {g : α → State → Res β} (hf : PortFree f) (hg : ∀ a, PortFree (g a)) :
    PortFree fun s => (f s).bind g := by
  intro ms s
  simp only [hf ms s]
  cases f s with
  | done a t => exact hg a ms t
  | raised t => rfl
  | stop r => rfl

theorem PortFree.done (a : α) : PortFree fun s => .done a s := fun _ _ => rfl

/-- A choice by a condition that does not look at the port. -/
theorem PortFree.ite {c : State → Prop} [∀ s, Decidable (c s)] {f g : State → Res α} (hf : PortFree f)
    (hg : PortFree g) (hc : ∀ ms s, c (s.withPort ms) ↔ c s := by exact fun _ _ => Iff.rfl) :
    PortFree fun s => if c s then f s else g s := by
  intro ms s
  by_cases h : c s
  · simpa only [if_pos h, if_pos ((hc ms s).2 h)] using hf ms s
  · simpa only [if_neg h, if_neg (mt (hc ms s).1 h)] using hg ms s

/-- A piece of pseudocode that takes an argument from the state, which is not the port. -/
theorem PortFree.arg {γ : Type} {f : γ → State → Res α} (hf : ∀ x, PortFree (f x)) {u : State → γ}
    (hu : ∀ ms s, u (s.withPort ms) = u s := by exact fun _ _ => rfl) : PortFree fun s => f (u s) s :=
  fun ms s => (congrArg (fun x => f x (s.withPort ms)) (hu ms s)).trans (hf (u s) ms s)

theorem snkAppend_port (b : Byte) : PortFree (snkAppend b) :=
  PortFree.ite (fun _ _ => rfl) (fun _ _ => rfl)

theorem outAppend_port (x : Token) : PortFree (outAppend x) :=
  PortFree.ite (fun _ _ => rfl) (fun _ _ => rfl)

theorem emitString_port (str : Str) : PortFree (emitString str) := by
  induction str with
  | nil => exact fun _ _ => rfl
  | cons b rest ih => exact (outAppend_port _).bind fun _ => ih

theorem dictGet_port (c : Nat) : PortFree (dictGet c) := by
  refine PortFree.arg (f := fun (e : Option Str) s => match e with
    | some e => .done e s
    | none => .stop .dictUndefined) (u := dictRead c) fun e => ?_
  cases e <;> exact fun _ _ => rfl

theorem firstByte_port (e : Str) : PortFree (firstByte e) := by
  cases e <;> exact fun _ _ => rfl

theorem candCode_port : PortFree candCode := by
  refine PortFree.arg (f := fun (c : Option Nat) s => match c with
    | some c => .done c s
    | none => .stop .candidateNotKey) (u := fun s => codeOf s.cand s) fun e => ?_
  cases e <;> exact fun _ _ => rfl

theorem emitGroup_port (g : Nat) : PortFree (emitGroup g) := by
  intro ms s
  simp only [emitGroup, State.withPort_cfg]
  split
  · exact snkAppend_port _ ms s
  · exact ((snkAppend_port _).bind fun _ => snkAppend_port _) ms s
  · exact snkAppend_port _ ms s

theorem fetchSymbol_port (val : Byte → Option Nat) : PortFree (fetchSymbol val) := by
  intro ms s
  simp only [fetchSymbol, show srcByte (s.withPort ms).srcPos (s.withPort ms) = srcByte s.srcPos s from rfl]
  split <;> rfl

theorem fetchGroup_port : PortFree fetchGroup := by
  intro ms s
  simp only [fetchGroup, State.withPort_cfg]
  split
  · exact (PortFree.ite (c := fun s => s.srcLen ≤ s.srcPos) (f := fun s => .done none s)
      (g := fun s => .done (some (srcByte s.srcPos s).toNat) { s with srcPos := s.srcPos + 1 }) (fun _ _ => rfl)
      (fun _ _ => rfl)) ms s
  · exact (PortFree.ite (c := fun s => s.srcLen ≤ s.srcPos + 1) (fun _ _ => rfl)
      ((fetchSymbol_port _).bind fun hi => (fetchSymbol_port _).bind fun lo => PortFree.done _)) ms s
  · exact (PortFree.ite (c := fun s => s.srcLen ≤ s.srcPos) (fun _ _ => rfl)
      ((fetchSymbol_port _).bind fun v => PortFree.done _)) ms s

theorem emitFull_port (rounds : Nat) : PortFree (emitFull rounds) := by
  induction rounds with
  | zero => exact fun _ _ => rfl
  | succ k ih =>
    refine PortFree.ite (c := fun s => groupSize s.cfg ≤ s.wbuf.length) (PortFree.bind (f := fun s =>
      emitGroup (valMSB (s.wbuf.take (groupSize s.cfg))) { s with wbuf := s.wbuf.drop (groupSize s.cfg) }) ?_
      fun _ => ih) (fun _ _ => rfl)
    exact fun ms s => emitGroup_port _ ms { s with wbuf := s.wbuf.drop (groupSize s.cfg) }

theorem writeBits_port (v n : Nat) : PortFree (writeBits v n) :=
  fun ms s => emitFull_port _ ms { s with wbuf := s.wbuf ++ bitsMSB (v % 2 ^ n) n }

theorem finalize_port : PortFree finalize := by
  refine PortFree.ite (c := fun s => 0 < s.wbuf.length) (PortFree.bind (f := fun s =>
    emitGroup (valMSB (s.wbuf ++ List.replicate (groupSize s.cfg - s.wbuf.length) false))
      { s with wbuf := s.wbuf ++ List.replicate (groupSize s.cfg - s.wbuf.length) false }) ?_
      fun _ => fun _ _ => rfl) (fun _ _ => rfl)
  exact fun ms s => emitGroup_port _ ms
    { s with wbuf := s.wbuf ++ List.replicate (groupSize s.cfg - s.wbuf.length) false }

theorem fillTo_port (n rounds : Nat) : PortFree (fillTo n rounds) := by
  induction rounds with
  | zero => exact fun _ _ => rfl
  | succ k ih =>
    refine PortFree.ite (c := fun s => s.rbuf.length < n) (fetchGroup_port.bind fun g => ?_) (fun _ _ => rfl)
    cases g with
    | none => exact fun _ _ => rfl
    | some g => exact fun ms t => ih ms { t with rbuf := t.rbuf ++ bitsMSB g (groupSize t.cfg) }

theorem readBits_port (n : Nat) : PortFree (readBits n) := by
  refine (fillTo_port n n).bind fun filled => ?_
  cases filled <;> exact fun _ _ => rfl

theorem wrCode_port (c w : Nat) : PortFree (wrCode c w) :=
  PortFree.ite (c := fun s => s.cfg.ciph = true) (fun ms s => writeBits_port _ _ ms (draw s).2) (writeBits_port c w)

theorem wrHdr_port (b : Byte) : PortFree (wrHdr b) :=
  PortFree.ite (c := fun s => (s.cfg.ciph && inHdrRange s.params.hdr b.toNat) = true)
    (fun ms s => writeBits_port _ _ ms (draw s).2) (writeBits_port b.toNat 8)

theorem rdCode_port (w : Nat) : PortFree (rdCode w) := by
  refine (readBits_port w).bind fun c => ?_
  cases c with
  | none => exact fun _ _ => rfl
  | some c => exact PortFree.ite (c := fun s => s.cfg.ciph = true) (fun _ _ => rfl) (fun _ _ => rfl)

theorem rdHdr_port : PortFree rdHdr := by
  refine (readBits_port 8).bind fun b => ?_
  cases b with
  | none => exact fun _ _ => rfl
  | some b =>
    exact PortFree.ite (c := fun s => (s.cfg.ciph && inHdrRange s.params.hdr b) = true) (fun _ _ => rfl)
      (fun _ _ => rfl)

theorem encPolicy_withPort (e : Option Str) : encPolicy e (s.withPort ms) = (encPolicy e s).withPort ms := by
  have hi : insertOpt e (s.withPort ms) = (insertOpt e s).withPort ms := by cases e <;> rfl
  have hg : insertOpt e (growWidth (s.withPort ms)) = (insertOpt e (growWidth s)).withPort ms := by cases e <;> rfl
  simp only [encPolicy, show isFullEnc (s.withPort ms) = isFullEnc s from rfl, hi, hg]
  by_cases h : s.w < wmax s.cfg
  · have h' : (s.withPort ms).w < wmax (s.withPort ms).cfg := h
    cases isFullEnc s <;> simp only [if_pos h, if_pos h', if_true, Bool.false_eq_true, if_false]
  · have h' : ¬ (s.withPort ms).w < wmax (s.withPort ms).cfg := h
    cases isFullEnc s <;> simp only [if_neg h, if_neg h', if_true, Bool.false_eq_true, if_false]
    rfl

theorem decPolicy_withPort (e : Str) :
    decPolicy e (s.withPort ms) = ((decPolicy e s).1, (decPolicy e s).2.withPort ms) := by
  simp only [decPolicy, show isFullDec (s.withPort ms) = isFullDec s from rfl]
  by_cases h : s.w < wmax s.cfg
  · have h' : (s.withPort ms).w < wmax (s.withPort ms).cfg := h
    cases isFullDec s <;> simp only [if_pos h, if_pos h', if_true, Bool.false_eq_true, if_false] <;> rfl
  · have h' : ¬ (s.withPort ms).w < wmax (s.withPort ms).cfg := h
    cases isFullDec s <;> simp only [if_neg h, if_neg h', if_true, Bool.false_eq_true, if_false]
    rfl

theorem setcfgBody_port (opd : Word) : PortFree (setcfgBody opd) := by
  intro ms s
  unfold setcfgBody
  split <;> rfl

theorem setsrclenBody_port (n : Word) : PortFree (setsrclenBody n) :=
  PortFree.ite (c := fun s => s.params.srcCap.toNat < n.toNat) (fun _ _ => rfl) (fun _ _ => rfl)

theorem symMiss_port (c : Byte) : PortFree (symMiss c) := by
  refine candCode_port.bind fun code => PortFree.bind (f := fun s => wrCode code s.w s) ?_ fun _ ms s => ?_
  · exact PortFree.arg fun w => wrCode_port code w
  · simp only [encPolicy_withPort]
    rfl

theorem symBody_port (c : Byte) : PortFree (symBody c) := by
  refine PortFree.ite (c := fun s => s.cand = []) (fun _ _ => rfl)
    (PortFree.ite (c := fun s => (codeOf (s.cand ++ [c]) s).isSome = true) (fun _ _ => rfl) ?_)
  exact fun ms s => symMiss_port c ms { s with phase := .cBody }

theorem closeCandidate_port : PortFree closeCandidate := by
  refine PortFree.ite (c := fun s => s.cand = []) (fun _ _ => rfl)
    (candCode_port.bind fun code => PortFree.bind (f := fun s => wrCode code s.w s) ?_ fun _ ms s => ?_)
  · exact PortFree.arg fun w => wrCode_port code w
  · simp only [encPolicy_withPort]
    rfl

theorem eofileBody_port : PortFree eofileBody := by
  refine PortFree.bind (f := fun s => closeCandidate { s with phase := .cBody })
    (fun ms s => closeCandidate_port ms { s with phase := .cBody }) fun _ ms s => ?_
  exact wrCode_port (sentinel s.w) s.w ms s

theorem finishBody_port : PortFree finishBody := by
  refine PortFree.ite (c := fun s => s.cand ≠ []) (fun _ _ => rfl) (PortFree.bind (f := fun s => wrCode 0 s.w s) ?_
    fun _ => finalize_port.bind fun _ => fun _ _ => rfl)
  exact PortFree.arg fun w => wrCode_port 0 w

theorem hdrrdBody_port : PortFree hdrrdBody := by
  refine rdHdr_port.bind fun b => ?_
  cases b <;> exact fun _ _ => rfl

theorem dstepPrime_port : PortFree dstepPrime := by
  refine PortFree.bind (f := fun s => rdCode s.w s) (PortFree.arg rdCode_port) fun c => ?_
  cases c with
  | none => exact fun _ _ => rfl
  | some c =>
    exact PortFree.ite (c := fun s => c = sentinel s.w) (outAppend_port _)
      (PortFree.ite (c := fun s => s.dsize ≤ c) (fun _ _ => rfl) (fun _ _ => rfl))

theorem completingByte_port (n : Nat) (current : Str) : PortFree (completingByte n current) :=
  PortFree.ite (c := fun s => n < s.dsize) ((dictGet_port n).bind firstByte_port)
    (PortFree.ite (c := fun s => n = s.dsize) (firstByte_port current) (fun _ _ => rfl))

theorem nextString_port (n : Nat) (e : Str) : PortFree (nextString n e) :=
  PortFree.ite (c := fun s => n < s.dsize) (dictGet_port n) (fun _ _ => rfl)

theorem dstepArm_port (n : Nat) (nxt : Str) (arm : PolicyArm) : PortFree (dstepArm n nxt arm) := by
  cases arm
  · exact fun _ _ => rfl
  · exact fun _ _ => rfl
  · exact (emitString_port nxt).bind fun _ => fun _ _ => rfl

theorem dstepData_port (n : Nat) : PortFree (dstepData n) := by
  refine PortFree.bind (f := fun s => dictGet s.cur s) (PortFree.arg dictGet_port) fun current =>
    (emitString_port current).bind fun _ => (completingByte_port n current).bind fun t =>
    (nextString_port n (current ++ [t])).bind fun nxt => fun ms u => ?_
  simp only [decPolicy_withPort]
  exact dstepArm_port n nxt _ ms _

theorem dstepSentinel_port : PortFree dstepSentinel :=
  PortFree.bind (f := fun s => dictGet s.cur s) (PortFree.arg dictGet_port) fun current =>
    (emitString_port current).bind fun _ => (outAppend_port boundaryToken).bind fun _ => fun _ _ => rfl

theorem dstepRun_port : PortFree dstepRun := by
  refine PortFree.bind (f := fun s => rdCode s.w s) (PortFree.arg rdCode_port) fun n => ?_
  cases n with
  | none => exact fun _ _ => rfl
  | some n => exact PortFree.ite (c := fun s => n = sentinel s.w) dstepSentinel_port (dstepData_port n)

theorem dstepBody_port : PortFree dstepBody := by
  intro ms s
  simp only [dstepBody, State.withPort_dstate]
  split
  · exact dstepPrime_port ms { s with phase := .dBody }
  · exact dstepRun_port ms { s with phase := .dBody }

/-- The outcome of a step or a command, with other host moves still to come. -/
def withPortOutcome (x : Host.Outcome State Fault Refusal) : Host.Outcome State Fault Refusal :=
  match x with
  | .next t => .next (t.withPort ms)
  | .fault r => .fault r
  | .refused r => .refused r

theorem commandBody_port (i : Instr) : PortFree (commandBody i) := by
  cases i with
  | nop => exact fun _ _ => rfl
  | setcfg opd => exact setcfgBody_port opd
  | setkey k => exact fun _ _ => rfl
  | setsrclen n => exact setsrclenBody_port n
  | beginOp => exact fun _ _ => rfl
  | srst => exact fun _ _ => rfl
  | hdrb b => exact wrHdr_port b
  | sym c => exact symBody_port c
  | eofile => exact eofileBody_port
  | finish => exact finishBody_port
  | hdrrd => exact hdrrdBody_port
  | dstep => exact dstepBody_port

/-- Every command does the same whatever host moves are still to come. -/
theorem exec_port (i : Instr) : exec i (s.withPort ms) = withPortOutcome ms (exec i s) := by
  by_cases hl : s.phase ∈ legalPhases i
  · rw [exec_legal hl, exec_legal (s := s.withPort ms) hl, commandBody_port i ms s]
    cases commandBody i s <;> rfl
  · by_cases hi : i = .srst
    · subst hi
      rfl
    · by_cases he : s.phase = .err
      · rw [exec_err hi he, exec_err (s := s.withPort ms) hi he]
        rfl
      · rw [exec_illegal he hl, exec_illegal (s := s.withPort ms) he hl]
        rfl

/-- Every host move does the same whatever host moves follow it. -/
theorem applyMove_port (m : HostMove) :
    applyMove m (s.withPort ms) = withPortOutcome ms (applyMove m s) := by
  cases m with
  | command cmd =>
    simp only [applyMove, acceptWord]
    split
    · exact exec_port _ _
    · by_cases he : s.phase = .err
      · rw [acceptIllegal, acceptIllegal, if_pos he, if_pos (show (s.withPort ms).phase = .err from he)]
        rfl
      · rw [acceptIllegal, acceptIllegal, if_neg he, if_neg (show ¬ (s.withPort ms).phase = .err from he)]
        rfl
  | writeSrc i b =>
    simp only [applyMove, hostWriteSrc]
    by_cases hp : s.phase = .idle ∨ s.phase = .done
    · have hp' : (s.withPort ms).phase = .idle ∨ (s.withPort ms).phase = .done := hp
      by_cases hi : i < s.params.srcCap.toNat
      · have hi' : i < (s.withPort ms).params.srcCap.toNat := hi
        simp only [if_pos hp, if_pos hp', if_pos hi, if_pos hi']
        rfl
      · have hi' : ¬ i < (s.withPort ms).params.srcCap.toNat := hi
        simp only [if_pos hp, if_pos hp', if_neg hi, if_neg hi']
        rfl
    · have hp' : ¬ ((s.withPort ms).phase = .idle ∨ (s.withPort ms).phase = .done) := hp
      simp only [if_neg hp, if_neg hp']
      rfl
  | hardReset => rfl

end Sys2Proof.Machine
end

