-- ==== Sys2Proof/Laws/Views.lean ====
section
/-!
SUPPORT. What the views of Safety.lean leave unchanged: one lemma per field per view, true by unfolding.
-/

namespace Sys2Proof.Machine

variable (s : State)

@[simp] theorem snkExtend_phase (bytes : List Byte) : (snkExtend bytes s).phase = s.phase := rfl
@[simp] theorem snkExtend_cfg (bytes : List Byte) : (snkExtend bytes s).cfg = s.cfg := rfl
@[simp] theorem snkExtend_key (bytes : List Byte) : (snkExtend bytes s).key = s.key := rfl
@[simp] theorem snkExtend_srcLen (bytes : List Byte) : (snkExtend bytes s).srcLen = s.srcLen := rfl
@[simp] theorem snkExtend_w (bytes : List Byte) : (snkExtend bytes s).w = s.w := rfl
@[simp] theorem snkExtend_dsize (bytes : List Byte) : (snkExtend bytes s).dsize = s.dsize := rfl
@[simp] theorem snkExtend_dict (bytes : List Byte) : (snkExtend bytes s).dict = s.dict := rfl
@[simp] theorem snkExtend_cand (bytes : List Byte) : (snkExtend bytes s).cand = s.cand := rfl
@[simp] theorem snkExtend_dstate (bytes : List Byte) : (snkExtend bytes s).dstate = s.dstate := rfl
@[simp] theorem snkExtend_cur (bytes : List Byte) : (snkExtend bytes s).cur = s.cur := rfl
@[simp] theorem snkExtend_wbuf (bytes : List Byte) : (snkExtend bytes s).wbuf = s.wbuf := rfl
@[simp] theorem snkExtend_rbuf (bytes : List Byte) : (snkExtend bytes s).rbuf = s.rbuf := rfl
@[simp] theorem snkExtend_prng (bytes : List Byte) : (snkExtend bytes s).prng = s.prng := rfl
@[simp] theorem snkExtend_eos (bytes : List Byte) : (snkExtend bytes s).eos = s.eos := rfl
@[simp] theorem snkExtend_srcPos (bytes : List Byte) : (snkExtend bytes s).srcPos = s.srcPos := rfl
@[simp] theorem snkExtend_outLen (bytes : List Byte) : (snkExtend bytes s).outLen = s.outLen := rfl
@[simp] theorem snkExtend_result (bytes : List Byte) : (snkExtend bytes s).result = s.result := rfl
@[simp] theorem snkExtend_err (bytes : List Byte) : (snkExtend bytes s).err = s.err := rfl
@[simp] theorem snkExtend_errinfo (bytes : List Byte) : (snkExtend bytes s).errinfo = s.errinfo := rfl
@[simp] theorem snkExtend_src (bytes : List Byte) : (snkExtend bytes s).src = s.src := rfl
@[simp] theorem snkExtend_out (bytes : List Byte) : (snkExtend bytes s).out = s.out := rfl
@[simp] theorem snkExtend_params (bytes : List Byte) : (snkExtend bytes s).params = s.params := rfl
@[simp] theorem snkExtend_srcEpoch (bytes : List Byte) : (snkExtend bytes s).srcEpoch = s.srcEpoch := rfl
@[simp] theorem snkExtend_port (bytes : List Byte) : (snkExtend bytes s).port = s.port := rfl

@[simp] theorem outExtend_phase (tokens : List Token) : (outExtend tokens s).phase = s.phase := rfl
@[simp] theorem outExtend_cfg (tokens : List Token) : (outExtend tokens s).cfg = s.cfg := rfl
@[simp] theorem outExtend_key (tokens : List Token) : (outExtend tokens s).key = s.key := rfl
@[simp] theorem outExtend_srcLen (tokens : List Token) : (outExtend tokens s).srcLen = s.srcLen := rfl
@[simp] theorem outExtend_w (tokens : List Token) : (outExtend tokens s).w = s.w := rfl
@[simp] theorem outExtend_dsize (tokens : List Token) : (outExtend tokens s).dsize = s.dsize := rfl
@[simp] theorem outExtend_dict (tokens : List Token) : (outExtend tokens s).dict = s.dict := rfl
@[simp] theorem outExtend_cand (tokens : List Token) : (outExtend tokens s).cand = s.cand := rfl
@[simp] theorem outExtend_dstate (tokens : List Token) : (outExtend tokens s).dstate = s.dstate := rfl
@[simp] theorem outExtend_cur (tokens : List Token) : (outExtend tokens s).cur = s.cur := rfl
@[simp] theorem outExtend_wbuf (tokens : List Token) : (outExtend tokens s).wbuf = s.wbuf := rfl
@[simp] theorem outExtend_rbuf (tokens : List Token) : (outExtend tokens s).rbuf = s.rbuf := rfl
@[simp] theorem outExtend_prng (tokens : List Token) : (outExtend tokens s).prng = s.prng := rfl
@[simp] theorem outExtend_eos (tokens : List Token) : (outExtend tokens s).eos = s.eos := rfl
@[simp] theorem outExtend_srcPos (tokens : List Token) : (outExtend tokens s).srcPos = s.srcPos := rfl
@[simp] theorem outExtend_snkLen (tokens : List Token) : (outExtend tokens s).snkLen = s.snkLen := rfl
@[simp] theorem outExtend_result (tokens : List Token) : (outExtend tokens s).result = s.result := rfl
@[simp] theorem outExtend_err (tokens : List Token) : (outExtend tokens s).err = s.err := rfl
@[simp] theorem outExtend_errinfo (tokens : List Token) : (outExtend tokens s).errinfo = s.errinfo := rfl
@[simp] theorem outExtend_src (tokens : List Token) : (outExtend tokens s).src = s.src := rfl
@[simp] theorem outExtend_snk (tokens : List Token) : (outExtend tokens s).snk = s.snk := rfl
@[simp] theorem outExtend_params (tokens : List Token) : (outExtend tokens s).params = s.params := rfl
@[simp] theorem outExtend_srcEpoch (tokens : List Token) : (outExtend tokens s).srcEpoch = s.srcEpoch := rfl
@[simp] theorem outExtend_port (tokens : List Token) : (outExtend tokens s).port = s.port := rfl

@[simp] theorem pushBits_phase (bits : Bits) : (pushBits bits s).phase = s.phase := rfl
@[simp] theorem pushBits_cfg (bits : Bits) : (pushBits bits s).cfg = s.cfg := rfl
@[simp] theorem pushBits_key (bits : Bits) : (pushBits bits s).key = s.key := rfl
@[simp] theorem pushBits_srcLen (bits : Bits) : (pushBits bits s).srcLen = s.srcLen := rfl
@[simp] theorem pushBits_w (bits : Bits) : (pushBits bits s).w = s.w := rfl
@[simp] theorem pushBits_dsize (bits : Bits) : (pushBits bits s).dsize = s.dsize := rfl
@[simp] theorem pushBits_dict (bits : Bits) : (pushBits bits s).dict = s.dict := rfl
@[simp] theorem pushBits_cand (bits : Bits) : (pushBits bits s).cand = s.cand := rfl
@[simp] theorem pushBits_dstate (bits : Bits) : (pushBits bits s).dstate = s.dstate := rfl
@[simp] theorem pushBits_cur (bits : Bits) : (pushBits bits s).cur = s.cur := rfl
@[simp] theorem pushBits_rbuf (bits : Bits) : (pushBits bits s).rbuf = s.rbuf := rfl
@[simp] theorem pushBits_prng (bits : Bits) : (pushBits bits s).prng = s.prng := rfl
@[simp] theorem pushBits_eos (bits : Bits) : (pushBits bits s).eos = s.eos := rfl
@[simp] theorem pushBits_srcPos (bits : Bits) : (pushBits bits s).srcPos = s.srcPos := rfl
@[simp] theorem pushBits_outLen (bits : Bits) : (pushBits bits s).outLen = s.outLen := rfl
@[simp] theorem pushBits_result (bits : Bits) : (pushBits bits s).result = s.result := rfl
@[simp] theorem pushBits_err (bits : Bits) : (pushBits bits s).err = s.err := rfl
@[simp] theorem pushBits_errinfo (bits : Bits) : (pushBits bits s).errinfo = s.errinfo := rfl
@[simp] theorem pushBits_src (bits : Bits) : (pushBits bits s).src = s.src := rfl
@[simp] theorem pushBits_out (bits : Bits) : (pushBits bits s).out = s.out := rfl
@[simp] theorem pushBits_params (bits : Bits) : (pushBits bits s).params = s.params := rfl
@[simp] theorem pushBits_srcEpoch (bits : Bits) : (pushBits bits s).srcEpoch = s.srcEpoch := rfl
@[simp] theorem pushBits_port (bits : Bits) : (pushBits bits s).port = s.port := rfl

@[simp] theorem codeWritten_phase (c w : Nat) : (codeWritten c w s).phase = s.phase := rfl
@[simp] theorem codeWritten_cfg (c w : Nat) : (codeWritten c w s).cfg = s.cfg := rfl
@[simp] theorem codeWritten_key (c w : Nat) : (codeWritten c w s).key = s.key := rfl
@[simp] theorem codeWritten_srcLen (c w : Nat) : (codeWritten c w s).srcLen = s.srcLen := rfl
@[simp] theorem codeWritten_w (c w : Nat) : (codeWritten c w s).w = s.w := rfl
@[simp] theorem codeWritten_dsize (c w : Nat) : (codeWritten c w s).dsize = s.dsize := rfl
@[simp] theorem codeWritten_dict (c w : Nat) : (codeWritten c w s).dict = s.dict := rfl
@[simp] theorem codeWritten_cand (c w : Nat) : (codeWritten c w s).cand = s.cand := rfl
@[simp] theorem codeWritten_dstate (c w : Nat) : (codeWritten c w s).dstate = s.dstate := rfl
@[simp] theorem codeWritten_cur (c w : Nat) : (codeWritten c w s).cur = s.cur := rfl
@[simp] theorem codeWritten_rbuf (c w : Nat) : (codeWritten c w s).rbuf = s.rbuf := rfl
@[simp] theorem codeWritten_eos (c w : Nat) : (codeWritten c w s).eos = s.eos := rfl
@[simp] theorem codeWritten_srcPos (c w : Nat) : (codeWritten c w s).srcPos = s.srcPos := rfl
@[simp] theorem codeWritten_outLen (c w : Nat) : (codeWritten c w s).outLen = s.outLen := rfl
@[simp] theorem codeWritten_result (c w : Nat) : (codeWritten c w s).result = s.result := rfl
@[simp] theorem codeWritten_err (c w : Nat) : (codeWritten c w s).err = s.err := rfl
@[simp] theorem codeWritten_errinfo (c w : Nat) : (codeWritten c w s).errinfo = s.errinfo := rfl
@[simp] theorem codeWritten_src (c w : Nat) : (codeWritten c w s).src = s.src := rfl
@[simp] theorem codeWritten_out (c w : Nat) : (codeWritten c w s).out = s.out := rfl
@[simp] theorem codeWritten_params (c w : Nat) : (codeWritten c w s).params = s.params := rfl
@[simp] theorem codeWritten_srcEpoch (c w : Nat) : (codeWritten c w s).srcEpoch = s.srcEpoch := rfl
@[simp] theorem codeWritten_port (c w : Nat) : (codeWritten c w s).port = s.port := rfl

@[simp] theorem hdrWritten_phase (b : Byte) : (hdrWritten b s).phase = s.phase := rfl
@[simp] theorem hdrWritten_cfg (b : Byte) : (hdrWritten b s).cfg = s.cfg := rfl
@[simp] theorem hdrWritten_key (b : Byte) : (hdrWritten b s).key = s.key := rfl
@[simp] theorem hdrWritten_srcLen (b : Byte) : (hdrWritten b s).srcLen = s.srcLen := rfl
@[simp] theorem hdrWritten_w (b : Byte) : (hdrWritten b s).w = s.w := rfl
@[simp] theorem hdrWritten_dsize (b : Byte) : (hdrWritten b s).dsize = s.dsize := rfl
@[simp] theorem hdrWritten_dict (b : Byte) : (hdrWritten b s).dict = s.dict := rfl
@[simp] theorem hdrWritten_cand (b : Byte) : (hdrWritten b s).cand = s.cand := rfl
@[simp] theorem hdrWritten_dstate (b : Byte) : (hdrWritten b s).dstate = s.dstate := rfl
@[simp] theorem hdrWritten_cur (b : Byte) : (hdrWritten b s).cur = s.cur := rfl
@[simp] theorem hdrWritten_rbuf (b : Byte) : (hdrWritten b s).rbuf = s.rbuf := rfl
@[simp] theorem hdrWritten_eos (b : Byte) : (hdrWritten b s).eos = s.eos := rfl
@[simp] theorem hdrWritten_srcPos (b : Byte) : (hdrWritten b s).srcPos = s.srcPos := rfl
@[simp] theorem hdrWritten_outLen (b : Byte) : (hdrWritten b s).outLen = s.outLen := rfl
@[simp] theorem hdrWritten_result (b : Byte) : (hdrWritten b s).result = s.result := rfl
@[simp] theorem hdrWritten_err (b : Byte) : (hdrWritten b s).err = s.err := rfl
@[simp] theorem hdrWritten_errinfo (b : Byte) : (hdrWritten b s).errinfo = s.errinfo := rfl
@[simp] theorem hdrWritten_src (b : Byte) : (hdrWritten b s).src = s.src := rfl
@[simp] theorem hdrWritten_out (b : Byte) : (hdrWritten b s).out = s.out := rfl
@[simp] theorem hdrWritten_params (b : Byte) : (hdrWritten b s).params = s.params := rfl
@[simp] theorem hdrWritten_srcEpoch (b : Byte) : (hdrWritten b s).srcEpoch = s.srcEpoch := rfl
@[simp] theorem hdrWritten_port (b : Byte) : (hdrWritten b s).port = s.port := rfl

@[simp] theorem pullBits_phase (n : Nat) : (pullBits n s).phase = s.phase := rfl
@[simp] theorem pullBits_cfg (n : Nat) : (pullBits n s).cfg = s.cfg := rfl
@[simp] theorem pullBits_key (n : Nat) : (pullBits n s).key = s.key := rfl
@[simp] theorem pullBits_srcLen (n : Nat) : (pullBits n s).srcLen = s.srcLen := rfl
@[simp] theorem pullBits_w (n : Nat) : (pullBits n s).w = s.w := rfl
@[simp] theorem pullBits_dsize (n : Nat) : (pullBits n s).dsize = s.dsize := rfl
@[simp] theorem pullBits_dict (n : Nat) : (pullBits n s).dict = s.dict := rfl
@[simp] theorem pullBits_cand (n : Nat) : (pullBits n s).cand = s.cand := rfl
@[simp] theorem pullBits_dstate (n : Nat) : (pullBits n s).dstate = s.dstate := rfl
@[simp] theorem pullBits_cur (n : Nat) : (pullBits n s).cur = s.cur := rfl
@[simp] theorem pullBits_wbuf (n : Nat) : (pullBits n s).wbuf = s.wbuf := rfl
@[simp] theorem pullBits_prng (n : Nat) : (pullBits n s).prng = s.prng := rfl
@[simp] theorem pullBits_eos (n : Nat) : (pullBits n s).eos = s.eos := rfl
@[simp] theorem pullBits_snkLen (n : Nat) : (pullBits n s).snkLen = s.snkLen := rfl
@[simp] theorem pullBits_outLen (n : Nat) : (pullBits n s).outLen = s.outLen := rfl
@[simp] theorem pullBits_result (n : Nat) : (pullBits n s).result = s.result := rfl
@[simp] theorem pullBits_err (n : Nat) : (pullBits n s).err = s.err := rfl
@[simp] theorem pullBits_errinfo (n : Nat) : (pullBits n s).errinfo = s.errinfo := rfl
@[simp] theorem pullBits_src (n : Nat) : (pullBits n s).src = s.src := rfl
@[simp] theorem pullBits_snk (n : Nat) : (pullBits n s).snk = s.snk := rfl
@[simp] theorem pullBits_out (n : Nat) : (pullBits n s).out = s.out := rfl
@[simp] theorem pullBits_params (n : Nat) : (pullBits n s).params = s.params := rfl
@[simp] theorem pullBits_srcEpoch (n : Nat) : (pullBits n s).srcEpoch = s.srcEpoch := rfl
@[simp] theorem pullBits_port (n : Nat) : (pullBits n s).port = s.port := rfl

@[simp] theorem pullEnd_phase : (pullEnd s).phase = s.phase := rfl
@[simp] theorem pullEnd_cfg : (pullEnd s).cfg = s.cfg := rfl
@[simp] theorem pullEnd_key : (pullEnd s).key = s.key := rfl
@[simp] theorem pullEnd_srcLen : (pullEnd s).srcLen = s.srcLen := rfl
@[simp] theorem pullEnd_w : (pullEnd s).w = s.w := rfl
@[simp] theorem pullEnd_dsize : (pullEnd s).dsize = s.dsize := rfl
@[simp] theorem pullEnd_dict : (pullEnd s).dict = s.dict := rfl
@[simp] theorem pullEnd_cand : (pullEnd s).cand = s.cand := rfl
@[simp] theorem pullEnd_dstate : (pullEnd s).dstate = s.dstate := rfl
@[simp] theorem pullEnd_cur : (pullEnd s).cur = s.cur := rfl
@[simp] theorem pullEnd_wbuf : (pullEnd s).wbuf = s.wbuf := rfl
@[simp] theorem pullEnd_prng : (pullEnd s).prng = s.prng := rfl
@[simp] theorem pullEnd_snkLen : (pullEnd s).snkLen = s.snkLen := rfl
@[simp] theorem pullEnd_outLen : (pullEnd s).outLen = s.outLen := rfl
@[simp] theorem pullEnd_result : (pullEnd s).result = s.result := rfl
@[simp] theorem pullEnd_err : (pullEnd s).err = s.err := rfl
@[simp] theorem pullEnd_errinfo : (pullEnd s).errinfo = s.errinfo := rfl
@[simp] theorem pullEnd_src : (pullEnd s).src = s.src := rfl
@[simp] theorem pullEnd_snk : (pullEnd s).snk = s.snk := rfl
@[simp] theorem pullEnd_out : (pullEnd s).out = s.out := rfl
@[simp] theorem pullEnd_params : (pullEnd s).params = s.params := rfl
@[simp] theorem pullEnd_srcEpoch : (pullEnd s).srcEpoch = s.srcEpoch := rfl
@[simp] theorem pullEnd_port : (pullEnd s).port = s.port := rfl

@[simp] theorem codeRead_phase : (codeRead s).phase = s.phase := rfl
@[simp] theorem codeRead_cfg : (codeRead s).cfg = s.cfg := rfl
@[simp] theorem codeRead_key : (codeRead s).key = s.key := rfl
@[simp] theorem codeRead_srcLen : (codeRead s).srcLen = s.srcLen := rfl
@[simp] theorem codeRead_w : (codeRead s).w = s.w := rfl
@[simp] theorem codeRead_dsize : (codeRead s).dsize = s.dsize := rfl
@[simp] theorem codeRead_dict : (codeRead s).dict = s.dict := rfl
@[simp] theorem codeRead_cand : (codeRead s).cand = s.cand := rfl
@[simp] theorem codeRead_dstate : (codeRead s).dstate = s.dstate := rfl
@[simp] theorem codeRead_cur : (codeRead s).cur = s.cur := rfl
@[simp] theorem codeRead_wbuf : (codeRead s).wbuf = s.wbuf := rfl
@[simp] theorem codeRead_eos : (codeRead s).eos = s.eos := rfl
@[simp] theorem codeRead_snkLen : (codeRead s).snkLen = s.snkLen := rfl
@[simp] theorem codeRead_outLen : (codeRead s).outLen = s.outLen := rfl
@[simp] theorem codeRead_result : (codeRead s).result = s.result := rfl
@[simp] theorem codeRead_err : (codeRead s).err = s.err := rfl
@[simp] theorem codeRead_errinfo : (codeRead s).errinfo = s.errinfo := rfl
@[simp] theorem codeRead_src : (codeRead s).src = s.src := rfl
@[simp] theorem codeRead_snk : (codeRead s).snk = s.snk := rfl
@[simp] theorem codeRead_out : (codeRead s).out = s.out := rfl
@[simp] theorem codeRead_params : (codeRead s).params = s.params := rfl
@[simp] theorem codeRead_srcEpoch : (codeRead s).srcEpoch = s.srcEpoch := rfl
@[simp] theorem codeRead_port : (codeRead s).port = s.port := rfl

@[simp] theorem hdrRead_phase : (hdrRead s).phase = s.phase := rfl
@[simp] theorem hdrRead_cfg : (hdrRead s).cfg = s.cfg := rfl
@[simp] theorem hdrRead_key : (hdrRead s).key = s.key := rfl
@[simp] theorem hdrRead_srcLen : (hdrRead s).srcLen = s.srcLen := rfl
@[simp] theorem hdrRead_w : (hdrRead s).w = s.w := rfl
@[simp] theorem hdrRead_dsize : (hdrRead s).dsize = s.dsize := rfl
@[simp] theorem hdrRead_dict : (hdrRead s).dict = s.dict := rfl
@[simp] theorem hdrRead_cand : (hdrRead s).cand = s.cand := rfl
@[simp] theorem hdrRead_dstate : (hdrRead s).dstate = s.dstate := rfl
@[simp] theorem hdrRead_cur : (hdrRead s).cur = s.cur := rfl
@[simp] theorem hdrRead_wbuf : (hdrRead s).wbuf = s.wbuf := rfl
@[simp] theorem hdrRead_eos : (hdrRead s).eos = s.eos := rfl
@[simp] theorem hdrRead_snkLen : (hdrRead s).snkLen = s.snkLen := rfl
@[simp] theorem hdrRead_outLen : (hdrRead s).outLen = s.outLen := rfl
@[simp] theorem hdrRead_result : (hdrRead s).result = s.result := rfl
@[simp] theorem hdrRead_err : (hdrRead s).err = s.err := rfl
@[simp] theorem hdrRead_errinfo : (hdrRead s).errinfo = s.errinfo := rfl
@[simp] theorem hdrRead_src : (hdrRead s).src = s.src := rfl
@[simp] theorem hdrRead_snk : (hdrRead s).snk = s.snk := rfl
@[simp] theorem hdrRead_out : (hdrRead s).out = s.out := rfl
@[simp] theorem hdrRead_params : (hdrRead s).params = s.params := rfl
@[simp] theorem hdrRead_srcEpoch : (hdrRead s).srcEpoch = s.srcEpoch := rfl
@[simp] theorem hdrRead_port : (hdrRead s).port = s.port := rfl

@[simp] theorem snkExtend_snkLen (bytes : List Byte) : (snkExtend bytes s).snkLen = s.snkLen + bytes.length := rfl
@[simp] theorem outExtend_outLen (tokens : List Token) : (outExtend tokens s).outLen = s.outLen + tokens.length := rfl
@[simp] theorem pushBits_wbuf (bits : Bits) : (pushBits bits s).wbuf = packRest s.cfg (s.wbuf ++ bits) := rfl
@[simp] theorem codeWritten_prng (c w : Nat) : (codeWritten c w s).prng = prngAfterCode s := rfl
@[simp] theorem hdrWritten_prng (b : Byte) : (hdrWritten b s).prng = prngAfterHdr b.toNat s := rfl
@[simp] theorem codeRead_prng : (codeRead s).prng = prngAfterCode s := rfl
@[simp] theorem hdrRead_prng : (hdrRead s).prng = prngAfterHdrAhead s := rfl
@[simp] theorem pullEnd_eos : (pullEnd s).eos = true := rfl

end Sys2Proof.Machine
end

