-- ==== Sys2Proof/Tests/Slice0.lean ====
section
/-!
SUPPORT. The model's own tests. Expected values come from the spec's worked examples (60_exceptions R206,
95_test_vectors V1 to V9, and the examples inside the command rules), never from the model. The second half holds, for
each statement with hypotheses, a theorem that concrete states and operands meet them.
-/

namespace Sys2Proof.Tests

open Sys2Proof Sys2Proof.Machine

/-! ### Helpers -/

/-- The next state, where there is one. -/
def next? (i : Instr) (s : State) : Option State :=
  match exec i s with
  | .next t => some t
  | _ => none

/-- A list of bytes as cells from index 0 on. -/
def cells (bytes : Str) : List Host.Cell := bytes.zipIdx.map fun p => (p.2, p.1)

/-- In a compress pass after BEGIN with the reset configuration, fixed 12. -/
def inHdr : State := { State.reset with phase := .cHdr }

/-- In the body of a compress pass, with a candidate. -/
def inBody (cand : Str) : State := { State.reset with phase := .cBody, cand := cand }

/-- The configuration 0x00000C01: fixed 12, no text mode, no cipher, decompress. -/
def cfgDec : Cfg := { State.reset.cfg with dir := .decompress }

/-- In a decompress pass after BEGIN, with bytes in SRC. -/
def inDec (bytes : Str) : State :=
  { State.reset with phase := .dHdr, cfg := cfgDec, src := cells bytes, srcLen := bytes.length }

/-- In the body of a decompress pass, holding a CURRENT code. -/
def inRun (bytes : Str) (cur : Nat) : State := { inDec bytes with phase := .dBody, dstate := .run, cur := cur }

/-- In phase ERR after E_SEQ. -/
def inErr : State := { State.reset with phase := .err, err := 2, errinfo := 0x11 }

/-- A state whose SNK and OUT hold at most `k` elements. -/
def small (k : Word) (s : State) : State := { s with params := { s.params with snkCap := k, outCap := k } }

/-- ERR, ERRINFO and PHASE, where a fault is seen. -/
def faultView (s : State) : Nat × Nat × Phase := (s.err.toNat, s.errinfo.toNat, s.phase)

/-! ### WellFormed: each check refuses -/

theorem test_wf_setcfg_bit13 : (Instr.setcfg 0x00002C00).wf = false := by decide
theorem test_wf_setcfg_bit31 : (Instr.setcfg 0x80000C00).wf = false := by decide
theorem test_wf_setcfg_bit5 : (Instr.setcfg 0x00000C20).wf = false := by decide
theorem test_wf_setcfg_bit7 : (Instr.setcfg 0x00000C80).wf = false := by decide
theorem test_wf_setcfg_legal : (Instr.setcfg 0x00001F1F).wf = true := by decide

/-! ### Decode: words written out from 30_encoding R60 to R62 (95_test_vectors V1) -/

theorem test_decode_nop : decode 0b00000000_00000000_00000000_00000000_00000000 = .ok .nop := by rfl
theorem test_decode_setcfg : decode 0b00000001_00000000_00000000_00001100_00010110 = .ok (.setcfg 0x00000C16) := by rfl
theorem test_decode_setkey : decode 0b00000010_11111111_11111111_11111111_11111110 = .ok (.setkey 0xFFFFFFFE) := by rfl
theorem test_decode_setsrclen : decode 0b00000011_00000000_00000000_00000000_00010000 = .ok (.setsrclen 16) := by rfl
theorem test_decode_begin : decode 0b00000100_00000000_00000000_00000000_00000000 = .ok .beginOp := by rfl
theorem test_decode_srst : decode 0b00000101_00000000_00000000_00000000_00000000 = .ok .srst := by rfl
theorem test_decode_hdrb : decode 0b00010000_00000000_00000000_00000000_01100001 = .ok (.hdrb 0x61) := by rfl
theorem test_decode_sym : decode 0b00010001_00000000_00000000_00000000_11111111 = .ok (.sym 0xFF) := by rfl
theorem test_decode_eofile : decode 0b00010010_00000000_00000000_00000000_00000000 = .ok .eofile := by rfl
theorem test_decode_finish : decode 0b00010011_00000000_00000000_00000000_00000000 = .ok .finish := by rfl
theorem test_decode_hdrrd : decode 0b00100000_00000000_00000000_00000000_00000000 = .ok .hdrrd := by rfl
theorem test_decode_dstep : decode 0b00100001_00000000_00000000_00000000_00000000 = .ok .dstep := by rfl

/-- V1.2, V1.4, V1.5, V1.10, V1.12, V1.14: the words that match no row. -/
theorem test_decode_illegal :
    decode 0x0000000001 = .error (.reservedBits 0x00) ∧ decode 0x0100002C00 = .error (.reservedBits 0x01) ∧
      decode 0x0100000C20 = .error (.reservedBits 0x01) ∧ decode 0x0600000000 = .error (.unknownOpcode 0x06) ∧
      decode 0x1400000000 = .error (.unknownOpcode 0x14) ∧ decode 0xFF00000000 = .error (.unknownOpcode 0xFF) ∧
      decode 0x1100000100 = .error (.reservedBits 0x11) ∧ decode 0x2100000001 = .error (.reservedBits 0x21) :=
  ⟨rfl, rfl, rfl, rfl, rfl, rfl, rfl, rfl⟩

/-- The bits of the opcode table are the bits of the word. -/
theorem test_decodeTableWord : decodeTableWord 40 0x1100000041 = some (.sym 0x41) := by decide

/-! ### One step of each command -/

/-- V2.10: NOP in C_BODY changes nothing. -/
theorem test_nop : next? .nop (inBody [0x41]) = some (inBody [0x41]) := by decide

/-- V2.1: fixed 9, base64, decompress; W stays 12 until BEGIN. -/
theorem test_setcfg : (next? (.setcfg 0x00000909) State.reset).map (fun t => (readReg 0 t, readReg 3 t)) =
    some (0x00000909, 0x00000C00) := by decide

/-- V2.2 and R206 example 4: FIXW = 17. -/
theorem test_setcfg_illegal : (next? (.setcfg 0x00001100) State.reset).map (fun t => (faultView t, readReg 0 t)) =
    some ((1, 0x1100, .err), 0x00000C00) := by decide

/-- R93: SETKEY does not seed PRNG. -/
theorem test_setkey : (next? (.setkey 0x00C0FFEE) State.reset).map (fun t => (readReg 1 t, t.prng)) =
    some (0x00C0FFEE, 0) := by decide

/-- V2.7: SETKEY in C_BODY. -/
theorem test_setkey_in_pass : (next? (.setkey 1) (inBody [])).map (fun t => (faultView t, t.key)) =
    some ((2, 0x02, .err), 0) := by decide

theorem test_setsrclen : (next? (.setsrclen 16) State.reset).map (readReg 2) = some 16 := by decide

/-- R94: above the capacity. -/
theorem test_setsrclen_above :
    (next? (.setsrclen 17) { State.reset with params := { Config.defaultParams with srcCap := 16 } }).map faultView =
      some (1, 17, .err) := by decide

/-- V2.5: variable, hex, cipher. -/
theorem test_begin :
    ((next? (.setcfg 0x00000C16) { State.reset with key := 0x00C0FFEE }).bind (next? .beginOp)).map
      (fun t => (t.prng, t.w, readReg 3 t)) = some (0x00C0FFEE, 9, 0x00000901) := by decide

/-- R206 example 11: BEGIN in a pass. -/
theorem test_begin_in_pass : (next? .beginOp inHdr).map faultView = some (2, 0x04, .err) := by decide

/-- R206 example 9: SRST leaves ERR. -/
theorem test_srst : (next? .srst inErr).map (fun t => (faultView t, readReg 0 t)) = some ((0, 0, .idle), 0x00000C00) := by
  decide

/-- R160: the first header byte of the example. -/
theorem test_hdrb : (next? (.hdrb 0x61) inHdr).map (fun t => (t.snk, t.phase)) = some ([(0, 0x61)], .cHdr) := by decide

/-- V5.2: with the cipher and key 0x00C0FFEE, 'a' is stored as 0x26. -/
theorem test_hdrb_cipher :
    (next? (.hdrb 0x61) { inHdr with cfg := { inHdr.cfg with ciph := true }, prng := 0x00C0FFEE }).map (fun t => t.snk) =
      some [(0, 0x26)] := by decide

/-- R161: the second 'A' misses "AA": code 65 goes out, 256 = "AA" is inserted. -/
theorem test_sym_miss :
    (next? (.sym 0x41) (inBody [0x41])).map (fun t => (snkBytes t, t.wbuf)) =
        some ([0x04], [false, false, false, true]) ∧
      (next? (.sym 0x41) (inBody [0x41])).map (fun t => (t.dict, t.cand)) = some ([(256, [0x41, 0x41])], [0x41]) := by
  decide

/-- V9.1: SNK is full: the group that did not fit is gone, the policy has not run, S is unchanged. -/
theorem test_sym_overflow :
    (next? (.sym 0x41) (small 4 { inBody [0x41, 0x41, 0x41] with
        snk := cells [0x0A, 0x04, 0x11, 0x00], snkLen := 4, dsize := 258
        dict := [(256, [0x41, 0x41]), (257, [0x41, 0x41, 0x41])] })).map
      (fun t => (faultView t, t.wbuf, t.cand, t.dsize)) =
      some ((6, 0, .err), [false, false, false, true], [0x41, 0x41, 0x41], 258) := by decide

/-- V7.3: an empty file is the sentinel alone. -/
theorem test_eofile_empty : (next? .eofile (inBody [])).map (fun t => (t.snk, t.wbuf)) =
    some ([(0, 0xFF)], [true, true, true, true]) := by decide

/-- V7.5: the end of the file "Z": codes 90 and 4095. -/
theorem test_eofile : (next? .eofile (inBody [0x5A])).map (fun t => (t.snk, t.wbuf, t.cand, t.dsize)) =
    some ([(0, 0x05), (1, 0xAF), (2, 0xFF)], [], [], 256) := by decide

/-- V7.4: BEGIN, FINISH at fixed 12: SNK = 00 00. -/
theorem test_finish : (next? .finish inHdr).map (fun t => (t.snk, t.wbuf, t.phase)) =
    some ([(0, 0x00), (1, 0x00)], [], .done) := by decide

/-- R206 example 10: FINISH with a file open. -/
theorem test_finish_open : (next? .finish (inBody [0x41])).map (fun t => (faultView t, t.snkLen)) =
    some ((2, 0x13, .err), 0) := by decide

/-- R175: 0x61 is delivered as 0x161. -/
theorem test_hdrrd : (next? .hdrrd (inDec [0x61, 0x2E])).map (fun t => (t.result, t.srcPos)) = some (0x161, 1) := by
  decide

/-- R206 example 7, its second HDRRD: hex, SRC = "0aZ1", the bad symbol at index 2. -/
theorem test_hdrrd_badsym :
    (next? .hdrrd { inDec [0x30, 0x61, 0x5A, 0x31] with cfg := { cfgDec with text := .hex }, srcPos := 2 }).map
      (fun t => (faultView t, t.srcPos)) = some ((5, 2, .err), 2) := by decide

/-- R177 example 1, step 2: NEXT = 256 is not registered yet. -/
theorem test_dstep_run :
    (next? .dstep (inRun [0x10, 0x01] 65)).map (fun t => (t.out, t.dict, t.cur, t.dsize)) =
      some ([(0, 0x041)], [(256, [0x41, 0x41])], 256, 257) := by decide

/-- R206 example 5: in PRIME the code 512 is unknown. -/
theorem test_dstep_prime_unknown :
    (next? .dstep (inDec [0x20, 0x00])).map (fun t => (faultView t, t.srcPos, t.outLen)) =
      some ((4, 0x000C0200, .err), 2, 0) := by decide

/-! ### The step, and parts of the commands -/

/-- R206 example 2: a word with an unknown opcode, as a step. -/
theorem test_step_illegal :
    (match step { State.reset with port := [.command 0x7700000000] } with
      | .next t => some (faultView t)
      | _ => none) = some (3, 0x77, .err) := by decide

/-- The presented word runs at the next step. -/
theorem test_withFetchWord :
    (match step (State.reset.withFetchWord 40 0x0400000000) with
      | .next t => some (t.phase, readReg 3 t)
      | _ => none) = some (.cHdr, 0x00000C01) := by decide

/-- V6.3, V6.4: the growth arm of the compressor's policy, with and without an entry. -/
theorem test_encPolicy_grow :
    (let s : State := { State.reset with cfg := { State.reset.cfg with var := true }, w := 9, dsize := 511 }
     let t := encPolicy (some [0x78, 0x79]) s
     let u := encPolicy none s
     (t.w, t.dsize, t.dict, u.w, u.dsize)) = (10, 512, [(511, [0x78, 0x79])], 10, 511) := by decide

/-- V6.5: the reset arm. -/
theorem test_encPolicy_reset :
    (let t := encPolicy (some [0x78, 0x79]) { State.reset with dsize := 4095 }
     (t.w, t.dsize, t.dict)) = (12, 256, []) := by decide

/-- V6.10, V6.11: the decoder tests one entry earlier. -/
theorem test_decPolicy :
    (let s : State := { State.reset with cfg := { State.reset.cfg with var := true }, w := 9, dsize := 510 }
     let t := decPolicy [0x78, 0x79] s
     (t.1, t.2.w, t.2.dsize, (decPolicy [0x78, 0x79] { State.reset with dsize := 4094 }).1)) =
      (.grown, 10, 511, .reset) := by decide

/-- V5.1: the first draw for key 1. -/
theorem test_lcg : prngNext Config.defaultParams 1 = (0x3C88, 0x3C88596C) := by decide

/-- V5.4: width 16, raw value 1. -/
theorem test_code_cipher : addMod 65535 1 65536 = 0 ∧ subMod 0 1 65536 = 65535 := by decide

/-- V4.11: group values in hex and base64. -/
theorem test_groups : groupText .hex 0xAB = [0x61, 0x62] ∧
    [0, 25, 26, 51, 52, 61, 62, 63].flatMap (groupText .base64) = [0x41, 0x5A, 0x61, 0x7A, 0x30, 0x39, 0x2B, 0x2F] := by
  decide

/-! ### Witnesses: concrete states and operands that meet the hypotheses of the statements -/

/-- The word matches no row. -/
def rejected (cmd : Cmd) : Bool :=
  match decode cmd with
  | .error _ => true
  | .ok _ => false

theorem no_decode {cmd : Cmd} (h : rejected cmd = true) : ∀ i, decode cmd ≠ .ok i := by
  intro i hi
  simp [rejected, hi] at h

theorem next_of_map {β : Type} {i : Instr} {s : State} {f : State → β} {v : β} (h : (next? i s).map f = some v) :
    ∃ t, exec i s = .next t ∧ f t = v := by
  unfold next? at h
  split at h
  · rename_i t ht
    exact ⟨t, ht, by simpa using h⟩
  · simp at h

theorem next_of_isSome {i : Instr} {s : State} (h : (next? i s).isSome = true) : ∃ t, exec i s = .next t := by
  obtain ⟨t, ht⟩ := Option.isSome_iff_exists.1 h
  obtain ⟨u, hu, _⟩ := next_of_map (f := id) (v := t) (by simpa using ht)
  exact ⟨u, hu⟩

theorem readable_of_none {n : Nat} {s : State} (h : s.cfg.text = .none) : readable n s := by
  intro i _
  simp [symbolLegal, h]

/-- An idle state with bytes in SRC, reached by resets and host writes. -/
def loaded (bytes : Str) : State := softReset { State.reset with src := cells bytes, srcEpoch := 1 }

/-- An idle state with SRC empty. -/
def idle : State := loaded []

/-- `loaded` with the configuration 0x00000C01 and SRC_LEN set. -/
def loadedDec (bytes : Str) : State := { loaded bytes with cfg := cfgDec, srcLen := bytes.length }

theorem idle_inv : Inv idle := softReset_inv rfl (fun i h => by simp [Store.read, cells] at h)

/-- The two bytes of the code 65 and of four bits more. -/
def code65 : Str := [0x04, 0x11]

theorem code65_dom (i : Nat) (h : (Store.read (α := Byte) (cells code65) i).isSome = true) : i < 2 := by
  simp only [cells, code65, List.zipIdx_cons, List.zipIdx_nil, List.map_cons, List.map_nil, Store.read] at h
  by_contra hi
  rw [if_neg (by omega), if_neg (by omega)] at h
  simp at h

theorem loadedDec_inv : Inv (loadedDec code65) := by
  have h0 : Inv (loaded code65) :=
    softReset_inv rfl (fun i h => (code65_dom i h).trans (by simp [State.reset, Config.defaultParams]))
  have h1 := h0.setCfg (.inl rfl) cfgDec (by decide)
  exact h1.setSrcLen (.inl rfl) 2 (by simp [loaded, softReset, State.reset, Config.defaultParams])

/-- After BEGIN of a compress pass. -/
def begunHdr : State := beginState idle

theorem begunHdr_inv : Inv begunHdr := idle_inv.begin (by decide)

/-- After BEGIN of a decompress pass. -/
def begunDec : State := beginState (loadedDec code65)

theorem begunDec_inv : Inv begunDec := loadedDec_inv.begin (by decide)

theorem test_hyp_DecodeEncode : (Instr.setcfg 0x00001F1F).wf = true ∧ (Instr.sym 0xFF).wf = true := by decide

theorem test_hyp_EncodeDecode : decode 0x0100001F1F = .ok (.setcfg 0x00001F1F) ∧ decode 0x10000000FF = .ok (.hdrb 0xFF) :=
  ⟨rfl, rfl⟩

theorem test_hyp_OpcodeTable : decode 0x11000000FF = .ok (.sym 0xFF) ∧ Instr.row (.sym 0) ∈ opcodeRows ∧
    selects 0x11000000FF (Instr.row (.sym 0)) :=
  ⟨rfl, by decide, by unfold selects; decide⟩

theorem test_hyp_IllegalWords :
    ((∀ i, decode 0x7700000000 ≠ .ok i) ∧ State.reset.phase ≠ .err ∧ inErr.phase = .err) ∧
      ((State.reset.phase = .idle ∨ State.reset.phase = .done) ∧
        ((Instr.setcfg 0x00000C0C).wf = true ∧ ((0x00000C0C : Word).extractLsb' 2 2).toNat = 3) ∧
        ((Instr.setcfg 0x00000800).wf = true ∧ ((0x00000800 : Word).extractLsb' 8 5).toNat < 9) ∧
        ((Instr.setcfg 0x00001100).wf = true ∧ 16 < ((0x00001100 : Word).extractLsb' 8 5).toNat)) ∧
      ({ Config.defaultParams with srcCap := 16 } : Params).srcCap.toNat < (17 : Word).toNat :=
  ⟨⟨no_decode (by decide), by decide, by decide⟩, by decide, by decide⟩

theorem test_hyp_AcceptanceSequence :
    (inErr.phase = .err ∧ decode 0x0500000000 = .ok .srst) ∧ (inErr.phase = .err ∧ decode 0x0500000001 ≠ .ok .srst) ∧
      (inHdr.phase ≠ .err ∧ ∀ i, decode 0x0500000001 ≠ .ok i) ∧
      (inHdr.phase ≠ .err ∧ decode 0x0400000000 = .ok .beginOp ∧ inHdr.phase ∉ legalPhases .beginOp) ∧
      (State.reset.phase ≠ .err ∧ decode 0x0400000000 = .ok .beginOp ∧ State.reset.phase ∈ legalPhases .beginOp) :=
  ⟨⟨rfl, rfl⟩, ⟨rfl, no_decode (by decide) _⟩, ⟨by decide, no_decode (by decide)⟩, ⟨by decide, rfl, by decide⟩,
    ⟨by decide, rfl, by decide⟩⟩

theorem test_hyp_StepRunsCommand :
    (({ State.reset with port := [.command 0x1100000041, .hardReset] } : State).port =
        .command 0x1100000041 :: [.hardReset] ∧ (Instr.sym 0x41).wf = true ∧ decode 0x1100000041 = .ok (.sym 0x41)) ∧
      (0x1100000041 < 2 ^ 40 ∧ decode (BitVec.ofNat 40 0x1100000041) = .ok (.sym 0x41)) :=
  ⟨⟨rfl, by decide, rfl⟩, by decide, rfl⟩

/-- A state with one host move to come and a SRC of 16 bytes. -/
def withMove (m : HostMove) (p : Phase) : State :=
  { State.reset with port := [m], phase := p, params := { Config.defaultParams with srcCap := 16 } }

theorem test_hyp_StepServesHost :
    State.reset.port = [] ∧
      ((withMove (.writeSrc 15 0x41) .done).port = .writeSrc 15 0x41 :: [] ∧
        ((withMove (.writeSrc 15 0x41) .done).phase = .idle ∨ (withMove (.writeSrc 15 0x41) .done).phase = .done) ∧
        15 < (withMove (.writeSrc 15 0x41) .done).params.srcCap.toNat) ∧
      ((withMove (.writeSrc 0 0x41) .dHdr).port = .writeSrc 0 0x41 :: [] ∧
        (withMove (.writeSrc 0 0x41) .dHdr).phase ≠ .idle ∧ (withMove (.writeSrc 0 0x41) .dHdr).phase ≠ .done) ∧
      ((withMove (.writeSrc 16 0x41) .idle).port = .writeSrc 16 0x41 :: [] ∧
        (withMove (.writeSrc 16 0x41) .idle).params.srcCap.toNat ≤ 16) ∧
      (withMove .hardReset .err).port = .hardReset :: [] := by
  decide

/-- For each opcode with reserved operand bits, a word that `illcmdFault` speaks of. -/
theorem test_hyp_illcmdFault :
    ([(0x00, 0x0000000001), (0x01, 0x0100002C00), (0x04, 0x0400000001), (0x05, 0x0500000001),
        (0x10, 0x1000000100), (0x11, 0x1100000100), (0x12, 0x1280000000), (0x13, 0x1300000001), (0x20, 0x2000000001),
        (0x21, 0x2100000001)] : List (Byte × Cmd)).all
      (fun p => decide (opcOf p.2 = p.1) && rejected p.2 && decide (inHdr.phase ≠ .err)) = true := by
  decide

/-- For each command with a phase in which it is not legal, a state that `seqFault` speaks of. -/
theorem test_hyp_seqFault :
    [(Instr.setcfg 0x00000C00, inHdr), (.setkey 1, inHdr), (.setsrclen 0, inBody []), (.beginOp, inHdr),
        (.hdrb 0x61, inBody []), (.sym 0x41, State.reset), (.eofile, inDec []), (.finish, State.reset),
        (.hdrrd, inRun [] 65), (.dstep, inHdr)].all
      (fun p => decide (p.2.phase ≠ .err) && decide (p.2.phase ∉ legalPhases p.1)) = true := by
  decide

theorem test_hyp_SetcfgRule :
    (State.reset.phase = .idle ∨ State.reset.phase = .done) ∧
      (∀ opd ∈ ([0x00000900, 0x00001000, 0x00000C1B] : List Word), (Instr.setcfg opd).wf = true ∧
        (opd.extractLsb' 2 2).toNat ≠ 3 ∧ 9 ≤ (opd.extractLsb' 8 5).toNat ∧ (opd.extractLsb' 8 5).toNat ≤ 16) ∧
      (∀ opd ∈ ([0x00000C0C, 0x00000800, 0x00001100] : List Word), (opd.extractLsb' 2 2).toNat = 3 ∨
        (opd.extractLsb' 8 5).toNat < 9 ∨ 16 < (opd.extractLsb' 8 5).toNat) := by
  refine ⟨by decide, fun opd h => ?_, fun opd h => ?_⟩ <;> fin_cases h <;> decide

/-- SETKEY, BEGIN: the phases. -/
theorem test_hyp_SetkeyRule_BeginRule :
    (State.reset.phase = .idle ∨ State.reset.phase = .done) ∧
      (({ State.reset with phase := .done } : State).phase = .idle ∨
        ({ State.reset with phase := .done } : State).phase = .done) := by
  decide

theorem test_hyp_SetsrclenRule :
    ((withMove .hardReset .done).phase = .idle ∨ (withMove .hardReset .done).phase = .done) ∧
      (16 : Word).toNat ≤ (withMove .hardReset .done).params.srcCap.toNat ∧
      (withMove .hardReset .done).params.srcCap.toNat < (17 : Word).toNat := by
  decide

theorem test_hyp_SrstRule : opcOf 0x0500000001 = 0x05 ∧ opdOf 0x0500000001 ≠ 0 ∧ inErr.phase = .err := by decide

/-- Every command completes somewhere: the premise of PhaseTransitions, of the frames and of the rules over all
commands. -/
theorem test_hyp_exec :
    ∀ p ∈ [(Instr.nop, State.reset), (.setcfg 0x00000C16, State.reset), (.setkey 1, State.reset),
        (.setsrclen 1, State.reset), (.beginOp, State.reset), (.srst, State.reset), (.hdrb 0x61, inHdr),
        (.sym 0x41, inHdr), (.eofile, inBody [0x5A]), (.finish, inHdr), (.hdrrd, inDec [0x61]), (.dstep, inDec code65)],
      p.2.phase ≠ .err ∧ ∃ t, exec p.1 p.2 = .next t := by
  have h : ∀ p ∈ [(Instr.nop, State.reset), (.setcfg 0x00000C16, State.reset), (.setkey 1, State.reset),
        (.setsrclen 1, State.reset), (.beginOp, State.reset), (.srst, State.reset), (.hdrb 0x61, inHdr),
        (.sym 0x41, inHdr), (.eofile, inBody [0x5A]), (.finish, inHdr), (.hdrrd, inDec [0x61]), (.dstep, inDec code65)],
      p.2.phase ≠ .err ∧ (next? p.1 p.2).isSome = true := by
    decide
  exact fun p hp => ⟨(h p hp).1, next_of_isSome (h p hp).2⟩

theorem test_hyp_HdrbRule :
    (inHdr.phase = .cHdr ∧ snkRoom (unitCost 8 inHdr) inHdr) ∧
      ((small 0 inHdr).phase = .cHdr ∧ (small 0 inHdr).snkLen ≤ (small 0 inHdr).params.snkCap.toNat ∧
        ¬ snkRoom (unitCost 8 (small 0 inHdr)) (small 0 inHdr)) := by
  decide

/-- In the body, with "AA" in the dictionary as 256. -/
def learnt (cand : Str) : State := { inBody cand with dsize := 257, dict := [(256, [0x41, 0x41])] }

theorem test_hyp_SymRule :
    (inHdr.phase = .cHdr ∨ inHdr.phase = .cBody) ∧ inHdr.cand = [] ∧
      ((learnt [0x41]).cand ≠ [] ∧ codeOf ((learnt [0x41]).cand ++ [0x41]) (learnt [0x41]) = some 256) ∧
      ((learnt [0x41, 0x41]).cand ≠ [] ∧
        codeOf ((learnt [0x41, 0x41]).cand ++ [0x42]) (learnt [0x41, 0x41]) = none ∧
        codeOf (learnt [0x41, 0x41]).cand (learnt [0x41, 0x41]) = some 256 ∧
        snkRoom (unitCost (learnt [0x41, 0x41]).w (learnt [0x41, 0x41])) (learnt [0x41, 0x41])) ∧
      ((small 0 (learnt [0x41, 0x41])).snkLen ≤ (small 0 (learnt [0x41, 0x41])).params.snkCap.toNat ∧
        ¬ snkRoom (unitCost 12 (small 0 (learnt [0x41, 0x41]))) (small 0 (learnt [0x41, 0x41]))) := by
  refine ⟨?_, ?_, ?_, ?_, ?_⟩
  · decide
  · decide
  · decide
  · decide
  · decide

/-- The state `v` of EofileRule, after the last code of the file "Z". -/
def lastCode (s : State) : State := { encPolicy none (codeWritten 0x5A s.w { s with phase := .cBody }) with cand := [] }

theorem test_hyp_EofileRule :
    ((inBody []).cand = [] ∧ snkRoom (unitCost 12 (inBody [])) (inBody []) ∧
        ¬ snkRoom (unitCost 12 (small 0 (inBody []))) (small 0 (inBody []))) ∧
      ((inBody [0x5A]).cand ≠ [] ∧ codeOf (inBody [0x5A]).cand (inBody [0x5A]) = some 0x5A ∧
        ¬ snkRoom (unitCost 12 (small 0 (inBody [0x5A]))) (small 0 (inBody [0x5A]))) ∧
      (snkRoom (unitCost 12 (inBody [0x5A])) (inBody [0x5A]) ∧
        snkRoom (unitCost (lastCode (inBody [0x5A])).w (lastCode (inBody [0x5A]))) (lastCode (inBody [0x5A]))) ∧
      (snkRoom (unitCost 12 (small 2 (inBody [0x5A]))) (small 2 (inBody [0x5A])) ∧
        ¬ snkRoom (unitCost (lastCode (small 2 (inBody [0x5A]))).w (lastCode (small 2 (inBody [0x5A]))))
          (lastCode (small 2 (inBody [0x5A])))) := by
  refine ⟨?_, ?_, ?_, ?_⟩
  · decide
  · decide
  · decide
  · decide

/-- The bytes of the flush of FinishRule. -/
def flush (s : State) : List Byte :=
  packText (codeWritten 0 s.w s).cfg ((codeWritten 0 s.w s).wbuf ++ padding (codeWritten 0 s.w s).cfg (codeWritten 0 s.w s).wbuf)

theorem test_hyp_FinishRule :
    (inBody [0x41]).cand ≠ [] ∧
      (inHdr.cand = [] ∧ (small 0 inHdr).snkLen ≤ (small 0 inHdr).params.snkCap.toNat ∧
        ¬ snkRoom (unitCost 12 (small 0 inHdr)) (small 0 inHdr)) ∧
      (snkRoom (unitCost 12 inHdr) inHdr ∧ snkRoom (flush inHdr).length (codeWritten 0 12 inHdr)) ∧
      (snkRoom (unitCost 12 (small 1 inHdr)) (small 1 inHdr) ∧
        ¬ snkRoom (flush (small 1 inHdr)).length (codeWritten 0 12 (small 1 inHdr))) := by
  decide

/-- Hex characters with an illegal symbol at index 1. -/
def badHex : State := { inDec [0x30, 0x5A, 0x30, 0x30] with cfg := { cfgDec with text := .hex } }

theorem test_hyp_HdrrdRule :
    ((inDec [0x61]).phase = .dHdr ∧ readable 8 (inDec [0x61]) ∧ hdrAhead (inDec [0x61]) = some 0x61) ∧
      (readable 8 (inDec []) ∧ hdrAhead (inDec []) = none) ∧ (badHex.phase = .dHdr ∧ firstBad 8 1 badHex) :=
  ⟨⟨rfl, readable_of_none rfl, by decide⟩, ⟨readable_of_none rfl, by decide⟩, rfl, by unfold firstBad; decide⟩

theorem test_hyp_DstepPrimeRule :
    (((inDec []).phase = .dHdr ∨ (inDec []).phase = .dBody) ∧ (inDec []).dstate = .prime ∧
        readable (inDec []).w (inDec []) ∧ codeAhead (inDec []) = none) ∧
      (readable 12 (inDec [0xFF, 0xF0]) ∧ codeAhead (inDec [0xFF, 0xF0]) = some (2 ^ 12 - 1) ∧
        outRoom 1 (inDec [0xFF, 0xF0]) ∧
        (small 0 (inDec [0xFF, 0xF0])).outLen = (small 0 (inDec [0xFF, 0xF0])).params.outCap.toNat) ∧
      (codeAhead (inDec [0x0F, 0xF0]) = some 255 ∧ 255 < (inDec []).dsize ∧
        codeAhead (inDec [0x10, 0x00]) = some 256 ∧ (inDec []).dsize ≤ 256) ∧
      (badHex.dstate = .prime ∧ firstBad badHex.w 1 badHex) :=
  ⟨⟨.inl rfl, rfl, readable_of_none rfl, by decide⟩, ⟨readable_of_none rfl, by decide, by decide, by decide⟩,
    by decide, rfl, by unfold firstBad; decide⟩

theorem test_hyp_DstepRunEnds :
    (((inRun [] 65).phase = .dHdr ∨ (inRun [] 65).phase = .dBody) ∧ (inRun [] 65).dstate = .run ∧
        readable 12 (inRun [] 65) ∧ codeAhead (inRun [] 65) = none) ∧
      (readable 12 (inRun [0xFF, 0xF0] 65) ∧ codeAhead (inRun [0xFF, 0xF0] 65) = some (2 ^ 12 - 1) ∧
        dictRead 65 (inRun [0xFF, 0xF0] 65) = some [0x41] ∧ outRoom 2 (inRun [0xFF, 0xF0] 65) ∧
        ¬ outRoom 2 (small 1 (inRun [0xFF, 0xF0] 65))) ∧
      firstBad 12 1 { badHex with dstate := .run } :=
  ⟨⟨.inr rfl, rfl, readable_of_none rfl, by decide⟩, ⟨readable_of_none rfl, by decide⟩, by unfold firstBad; decide⟩

/-- Width 9, DSIZE 510, NEXT = 65: the next code makes the decoder grow (VAR = 1) or reset (VAR = 0). -/
def atLimit (var : Bool) : State :=
  { inRun [0x20, 0x80] 65 with cfg := { cfgDec with var := var, fixw := 9 }, w := 9, dsize := 510 }

theorem test_hyp_DstepRunData :
    (codeAhead (inRun [0x04, 0x20] 65) = some 66 ∧ dictRead 65 (inRun [0x04, 0x20] 65) = some [0x41] ∧
        ¬ outRoom 1 (small 0 (inRun [0x04, 0x20] 65))) ∧
      (codeAhead (inRun [0x10, 0x10] 65) = some 257 ∧ outRoom 1 (inRun [0x10, 0x10] 65) ∧
        (inRun [0x10, 0x10] 65).dsize < 257) ∧
      ((66 < (inRun [0x04, 0x20] 65).dsize ∧ dictRead 66 (inRun [0x04, 0x20] 65) = some [0x42]) ∧
        (codeAhead (inRun [0x10, 0x00] 65) = some 256 ∧ 256 = (inRun [0x10, 0x00] 65).dsize) ∧
        (inRun [0x04, 0x20] 65).dsize < 2 ^ 12 - 2) ∧
      (codeAhead (atLimit true) = some 65 ∧ 2 ^ 9 - 2 ≤ (atLimit true).dsize ∧ 9 < wmax (atLimit true).cfg) ∧
      (codeAhead (atLimit false) = some 65 ∧ wmax (atLimit false).cfg ≤ 9 ∧ outRoom 2 (atLimit false) ∧
        outRoom 1 (small 1 (atLimit false)) ∧ ¬ outRoom 2 (small 1 (atLimit false))) ∧
      readable 12 (inRun [0x04, 0x20] 65) ∧ readable 9 (atLimit true) :=
  ⟨by decide, by decide, by decide, by decide, by decide, readable_of_none rfl, readable_of_none rfl⟩

theorem test_hyp_ConfigFixedInPass :
    inHdr.phase ≠ .idle ∧ inHdr.phase ≠ .done ∧ ∃ t, exec (.hdrb 0x61) inHdr = .next t :=
  ⟨by decide, by decide, next_of_isSome (by decide)⟩

/-- In a decompress pass that has met END. -/
def ended : State := { inDec [] with eos := true }

theorem test_hyp_EosSticky : ended.eos = true ∧ ∃ t, exec .hdrrd ended = .next t :=
  ⟨rfl, next_of_isSome (by decide)⟩

theorem test_hyp_NoCipherNoDraw_AppendedStable :
    inHdr.cfg.ciph = false ∧ ∃ t, exec (.hdrb 0x61) inHdr = .next t ∧ t.snkLen = 1 :=
  ⟨rfl, next_of_map (by decide)⟩

theorem test_hyp_DiscardedInErr :
    inErr.phase = .err ∧ decode 0x0400000000 ≠ .ok .srst ∧ decode 0x0500000000 = .ok .srst :=
  ⟨rfl, fun h => by injection test_decode_begin.symm.trans h with h; injection h, rfl⟩

theorem test_hyp_DsizeGrowth :
    256 ≤ (inBody [0x41]).dsize ∧ ∃ t, exec (.sym 0x41) (inBody [0x41]) = .next t ∧ t.dsize = 257 :=
  ⟨by decide, next_of_map (by decide)⟩

theorem test_hyp_SnkGrowth : Inv begunHdr ∧ (∃ t, exec (.hdrb 0x61) begunHdr = .next t) ∧
    (∃ t, exec (.sym 0x41) begunHdr = .next t) ∧ (∃ t, exec .eofile begunHdr = .next t) ∧
    ∃ t, exec .finish begunHdr = .next t :=
  ⟨begunHdr_inv, next_of_isSome (by decide), next_of_isSome (by decide), next_of_isSome (by decide),
    next_of_isSome (by decide)⟩

theorem test_hyp_InvStep_CommandsComplete :
    Inv { idle with port := [.command 0x0400000000] } ∧
      ∃ t, step { idle with port := [.command 0x0400000000] } = .next t :=
  ⟨idle_inv.setPort _, next_of_isSome (i := .beginOp) (s := idle) (by decide)⟩

theorem test_hyp_ResetValues : (∃ t, applyMove .hardReset inErr = .next t) ∧ ∃ t, exec .srst inErr = .next t :=
  ⟨⟨_, rfl⟩, ⟨_, rfl⟩⟩

theorem test_hyp_StatusFields : State.reset.w < 32 := by decide

theorem test_hyp_ReadPort :
    10 < 11 ∧ ((Instr.setcfg 0x00000C16).wf = true ∧
        ∃ t, exec (.setcfg 0x00000C16) State.reset = .next t ∧ t.phase = .idle) ∧
      (∃ t, exec (.setkey 7) State.reset = .next t ∧ t.phase = .idle) ∧
      ∃ t, exec (.setsrclen 12) State.reset = .next t ∧ t.phase = .idle :=
  ⟨by decide, ⟨by decide, next_of_map (by decide)⟩, next_of_map (by decide), next_of_map (by decide)⟩

/-- RegistersExact: in a decompress pass, and in DONE with SRC_POS above SRC_LEN, as a SETSRCLEN after the pass leaves
it. -/
theorem test_hyp_RegistersExact : Inv begunDec ∧ begunDec.phase = .dHdr ∧
    ∃ s, Inv s ∧ s.phase = .done ∧ s.srcPos = 2 ∧ s.srcLen = 1 := by
  have h : Inv { begunDec with srcPos := 2, eos := true } :=
    { begunDec_inv with
      srcPosCap := by decide, srcPos := fun _ => by decide, rbufShort := by simp, rbufUnused := by simp
      eosUnused := by decide }
  exact ⟨begunDec_inv, rfl, _, (h.passDone (.inl rfl) rfl).setSrcLen (.inr rfl) 1 (by decide), rfl, rfl, rfl⟩

/-- EncPolicyRule: the three arms, at the boundary of the table. -/
theorem test_hyp_EncPolicyRule :
    (let s : State := { State.reset with cfg := { State.reset.cfg with var := true }, w := 9, dsize := 511 }
     256 ≤ s.dsize ∧ 2 ^ s.w - 1 ≤ s.dsize ∧ s.w < wmax s.cfg) ∧
      (let s : State := { State.reset with dsize := 4095 }
       2 ^ s.w - 1 ≤ s.dsize ∧ wmax s.cfg ≤ s.w) ∧
      (let s : State := { State.reset with dsize := 4094 }
       s.dsize < 2 ^ s.w - 1) := by
  decide

/-- DecPolicyRule: the three arms, one entry earlier. -/
theorem test_hyp_DecPolicyRule :
    (let s : State := { State.reset with cfg := { State.reset.cfg with var := true }, w := 9, dsize := 510 }
     256 ≤ s.dsize ∧ 2 ^ s.w - 2 ≤ s.dsize ∧ s.w < wmax s.cfg) ∧
      (let s : State := { State.reset with dsize := 4094 }
       2 ^ s.w - 2 ≤ s.dsize ∧ wmax s.cfg ≤ s.w) ∧
      (let s : State := { State.reset with dsize := 4093 }
       s.dsize < 2 ^ s.w - 2) := by
  decide

theorem test_hyp_CodeOfRule_SentinelNotEntry : Inv begunHdr ∧ (begunHdr.phase = .cHdr ∨ begunHdr.phase = .cBody) :=
  ⟨begunHdr_inv, .inl rfl⟩

theorem test_hyp_Lcg32 : Config.defaultParams.prng = .lcg32 := rfl

theorem test_hyp_CodeCipherInverse : 511 < 2 ^ 9 ∧ 0 < 2 ^ 16 := by decide

theorem test_hyp_HeaderCipher :
    inHdrRange Config.defaultParams.hdr 0x20 = true ∧ inHdrRange Config.defaultParams.hdr 0x7E = true ∧
      inHdrRange State.reset.params.hdr (0x0A : Byte).toNat = false ∧
      inHdrRange State.reset.params.hdr (0x7F : Byte).toNat = false := by
  decide

/-- HexAlphabet: the ends of the ranges of `hexval`. -/
theorem test_hyp_HexAlphabet :
    15 < 16 ∧ (0x30 ≤ (0x30 : Byte).toNat ∧ (0x39 : Byte).toNat ≤ 0x39) ∧
      (0x61 ≤ (0x61 : Byte).toNat ∧ (0x66 : Byte).toNat ≤ 0x66) ∧
      (0x41 ≤ (0x41 : Byte).toNat ∧ (0x46 : Byte).toNat ≤ 0x46) ∧
      ((0x2F : Byte).toNat < 0x30 ∧ (0x39 < (0x3A : Byte).toNat ∧ (0x40 : Byte).toNat < 0x41) ∧
        (0x46 < (0x47 : Byte).toNat ∧ (0x60 : Byte).toNat < 0x61) ∧ 0x66 < (0x67 : Byte).toNat) := by
  decide

theorem test_hyp_Base64Alphabet : 63 < 64 ∧ b64Val 0x2F = some 63 := by decide

/-- V7.5: a header of one line feed and the file "Z". -/
def container : Str := [0x0A, 0x05, 0xAF, 0xFF, 0x00, 0x00]

/-- The state a chain of units leaves. -/
def doneState? (x : Res Unit) : Option State :=
  match x with
  | .done _ s => some s
  | _ => none

theorem done_of_map {β : Type} {x : Res Unit} {f : State → β} {v : β} (h : (doneState? x).map f = some v) :
    ∃ t, x = .done () t ∧ f t = v := by
  unfold doneState? at h
  split at h
  · exact ⟨_, rfl, by simpa using h⟩
  · simp at h

/-- SNK of `t` is SRC of `r`. -/
def handedOver (r t : State) : Bool :=
  decide (r.srcLen = t.snkLen) && decide (∀ i < t.snkLen, readSnk i t = some (srcByte i r))

/-- The units of V7.5. -/
def unitsZ : List StreamUnit := [.hdr 0x0A, .code 90 12, .code 4095 12, .code 0 12]

theorem test_hyp_StreamRoundTrip :
    (∀ u ∈ unitsZ, u.legal) ∧ inHdr.wbuf = [] ∧ inHdr.snkLen = 0 ∧
      (∃ t, ((writeUnits unitsZ inHdr).bind fun _ s => finalize s) = .done () t ∧
        handedOver (inDec container) t = true) ∧
      (inDec container).cfg.text = inHdr.cfg.text ∧ (inDec container).cfg.ciph = inHdr.cfg.ciph ∧
      (inDec container).params = inHdr.params ∧ (inDec container).prng = inHdr.prng ∧ (inDec container).rbuf = [] ∧
      (inDec container).srcPos = 0 := by
  refine ⟨?_, rfl, rfl, done_of_map (by decide), rfl, rfl, rfl, rfl, rfl, rfl⟩
  intro u hu
  fin_cases hu <;> simp [StreamUnit.legal]

theorem test_hyp_BeginForgets :
    (idle.phase = .idle ∨ idle.phase = .done) ∧ Inv idle ∧
      ∃ s', Inv s' ∧ s'.phase = .done ∧ s'.snkLen = 2 ∧ s'.cfg = idle.cfg ∧ s'.key = idle.key ∧ s'.srcLen = idle.srcLen ∧
        s'.src = idle.src ∧ s'.srcEpoch = idle.srcEpoch ∧ s'.params = idle.params ∧ s'.port = idle.port := by
  refine ⟨.inl rfl, idle_inv, ?_⟩
  obtain ⟨t, ht, hi⟩ := accept_keeps (opc := 0x13) (legal := [.cHdr, .cBody]) begunHdr_inv
    (fun _ h => finishBody_keeps begunHdr_inv (mem_compressing h))
  obtain ⟨u, hu, hv⟩ := next_of_map (i := .finish) (s := begunHdr)
    (f := fun s' => decide (s'.phase = .done ∧ s'.snkLen = 2 ∧ s'.cfg = idle.cfg ∧ s'.key = idle.key ∧
      s'.srcLen = idle.srcLen ∧ s'.src = idle.src ∧ s'.srcEpoch = idle.srcEpoch ∧ s'.params = idle.params ∧
      s'.port = idle.port)) (v := true) (by decide)
  have e : t = u := by
    have : exec .finish begunHdr = .next t := ht
    rw [hu] at this
    cases this
    rfl
  subst e
  exact ⟨t, hi, of_decide_eq_true hv⟩

theorem test_hyp_CompressIgnoresSrc :
    (∃ t, exec (.hdrb 0x61) inHdr = .next t) ∧ (∃ t, exec (.sym 0x41) (inBody [0x41]) = .next t) ∧
      (∃ t, exec .eofile (inBody [0x41]) = .next t) ∧ ∃ t, exec .finish inHdr = .next t :=
  ⟨next_of_isSome (by decide), next_of_isSome (by decide), next_of_isSome (by decide), next_of_isSome (by decide)⟩

theorem test_hyp_DstepConsumes : Inv begunDec ∧ (begunDec.phase = .dHdr ∨ begunDec.phase = .dBody) ∧
    ∃ t, exec .dstep begunDec = .next t ∧ t.phase = .dBody :=
  ⟨begunDec_inv, .inl rfl, next_of_map (by decide)⟩

theorem test_hyp_DrunTerminates : (Inv begunDec ∧ (begunDec.phase = .dHdr ∨ begunDec.phase = .dBody)) ∧
    ∃ t, exec .beginOp (loadedDec code65) = .next t ∧ t.phase = .dHdr :=
  ⟨⟨begunDec_inv, .inl rfl⟩, next_of_map (by decide)⟩

theorem container_dom (i : Nat) (h : (Store.read (α := Byte) (cells container) i).isSome = true) : i < 6 := by
  simp only [cells, container, List.zipIdx_cons, List.zipIdx_nil, List.map_cons, List.map_nil, Store.read] at h
  by_contra hi
  rw [if_neg (by omega), if_neg (by omega), if_neg (by omega), if_neg (by omega), if_neg (by omega),
    if_neg (by omega)] at h
  simp at h

/-- The outcome of commands, where it is a next state. -/
def after? (is : List Instr) (s : State) : Option State :=
  match runCommands is s with
  | .next t => some t
  | _ => none

theorem after_of_map {β : Type} {is : List Instr} {s : State} {f : State → β} {v : β}
    (h : (after? is s).map f = some v) : ∃ t, runCommands is s = .next t ∧ f t = v := by
  unfold after? at h
  split at h
  · rename_i t ht
    exact ⟨t, ht, by simpa using h⟩
  · simp at h

/-- RoundTrip: the header of one line feed and the file "Z" (V7.5, V8.4). -/
theorem test_hyp_RoundTrip :
    (Inv idle ∧ (idle.phase = .idle ∨ idle.phase = .done) ∧ idle.cfg.dir = .compress) ∧
      (∃ t, runCommands (compressPass [0x0A] [[0x5A]]) idle = .next t ∧
        (t.phase = .done ∧ handedOver (loadedDec container) t = true)) ∧
      Inv (loadedDec container) ∧
      ((loadedDec container).phase = .idle ∨ (loadedDec container).phase = .done) ∧
      (loadedDec container).cfg = { idle.cfg with dir := .decompress } ∧ (loadedDec container).key = idle.key ∧
      (loadedDec container).params = idle.params ∧
      (fileTokens [[0x5A]]).length ≤ (loadedDec container).params.outCap.toNat := by
  refine ⟨⟨idle_inv, .inl rfl, rfl⟩, ?_, ?_, .inl rfl, rfl, rfl, rfl, by decide⟩
  · obtain ⟨t, ht, hv⟩ := after_of_map (is := compressPass [0x0A] [[0x5A]]) (s := idle)
      (f := fun t => decide (t.phase = .done ∧ handedOver (loadedDec container) t = true)) (v := true) (by decide)
    exact ⟨t, ht, of_decide_eq_true hv⟩
  · have h0 : Inv (loaded container) :=
      softReset_inv rfl (fun i h => (container_dom i h).trans (by simp [State.reset, Config.defaultParams]))
    have h1 := h0.setCfg (.inl rfl) cfgDec (by decide)
    exact h1.setSrcLen (.inl rfl) 6 (by simp [loaded, softReset, State.reset, Config.defaultParams])

/-- StepOfElements: a state with each kind of host move next. -/
theorem test_hyp_StepOfElements :
    (presentNext 0x0000000000 State.reset).port = .command 0 :: [] ∧
      ({ State.reset with port := [.writeSrc 0 0x41, .hardReset] } : State).port = .writeSrc 0 0x41 :: [.hardReset] ∧
      ({ State.reset with port := [.hardReset] } : State).port = .hardReset :: [] :=
  ⟨rfl, rfl, rfl⟩

/-! ### The notation of commands (30_encoding R72) -/

/-- `SYM 'A'` is 0x1100000041 (R72's own example), a comment may follow after a blank, and a blank is a literal too. -/
theorem test_assemble_literal :
    assemble ['S', 'Y', 'M', ' ', quoteChar, 'A', quoteChar] = some 0x1100000041 ∧
      assemble ['S', 'Y', 'M', ' ', quoteChar, 'A', quoteChar, ' ', ';', ' ', 'x'] = some 0x1100000041 ∧
      assemble ['S', 'Y', 'M', ' ', quoteChar, ' ', quoteChar, ' '] = some 0x1100000020 ∧
      assemble ['S', 'Y', 'M', ' ', quoteChar, ';', quoteChar, ';'] = some 0x110000003B := by
  decide

/-- The keyword form of SETCFG: an omitted field has its reset default (R72); with every field omitted it is no command
(the model's choice, notes/assumptions/12.md). -/
theorem test_assemble_setcfg :
    assemble ['S', 'E', 'T', 'C', 'F', 'G', ' ', 'd', 'i', 'r', '=', 'd'] = some 0x0100000C01 ∧
      assemble ['S', 'E', 'T', 'C', 'F', 'G'] = none := by
  decide

/-- No word holds a literal and more, and a lone apostrophe is no literal. -/
theorem test_assemble_no_literal :
    assemble ['S', 'Y', 'M', ' ', quoteChar, 'A', quoteChar, 'B'] = none ∧
      assemble ['S', 'Y', 'M', ' ', quoteChar, 'A'] = none ∧ assemble ['S', 'Y', 'M', ' ', quoteChar] = none := by
  decide

end Sys2Proof.Tests
end

section
/-!
SUPPORT. Every command word, every host move and every step keeps the invariant (10_state R37), and the state after
reset meets it.
-/

namespace Sys2Proof.Machine

variable {s t : State}

/-- In a phase the command is legal in, its pseudocode keeps the invariant and does not stop the model
(40_control R97). -/
theorem commandBody_keeps (h : Inv s) (i : Instr) (he : s.phase ≠ .err) (hl : s.phase ∈ legalPhases i) :
    KeepsInv (commandBody i s) := by
  cases i with
  | nop => exact h
  | setcfg opd =>
    simp only [commandBody, setcfgBody]
    split
    · exact h.toBaseInv.raise _ _
    · rename_i c hc
      exact h.setCfg (quiet_iff.1 hl) c (cfgOfImage_fixw hc)
  | setkey k => exact h.setKey k
  | setsrclen n =>
    simp only [commandBody, setsrclenBody]
    split
    · exact h.toBaseInv.raise _ _
    · exact h.setSrcLen (quiet_iff.1 hl) _ (by omega)
  | beginOp => exact h.begin he
  | srst => exact softReset_inv h.wfSrc h.srcDom
  | hdrb b => exact hdrb_keeps h (.inl (by simpa [legalPhases] using hl)) b
  | sym c => exact symBody_keeps h (mem_compressing hl) c
  | eofile => exact eofileBody_keeps h (mem_compressing hl)
  | finish => exact finishBody_keeps h (mem_compressing hl)
  | hdrrd => exact hdrrdBody_keeps h (.inl (by simpa [legalPhases] using hl))
  | dstep => exact dstepBody_keeps h (mem_decompressing hl)

/-- Under the invariant every command answers a next state, which meets the invariant. -/
theorem exec_keeps (h : Inv s) (i : Instr) : ∃ t, exec i s = .next t ∧ Inv t := by
  by_cases hi : i = .srst
  · subst hi
    exact ⟨_, exec_srst s, softReset_inv h.wfSrc h.srcDom⟩
  · rw [exec_eq hi]
    exact accept_keeps h (commandBody_keeps h i)

theorem acceptIllegal_keeps (h : Inv s) (opc : Byte) : Inv (acceptIllegal opc s) := by
  unfold acceptIllegal
  split
  · exact h
  · exact h.toBaseInv.raise _ _

/-- Under the invariant every command word answers a next state, which meets the invariant. -/
theorem acceptWord_keeps (h : Inv s) (cmd : Cmd) : ∃ t, acceptWord cmd s = .next t ∧ Inv t := by
  unfold acceptWord
  split
  · exact exec_keeps h _
  · exact ⟨_, rfl, acceptIllegal_keeps h _⟩

theorem applyMove_keeps (h : Inv s) (m : HostMove) (ht : applyMove m s = .next t) : Inv t := by
  cases m with
  | command cmd =>
    obtain ⟨u, hu, hi⟩ := acceptWord_keeps h cmd
    cases ht.symm.trans hu
    exact hi
  | writeSrc index byte => exact hostWriteSrc_keeps h index byte t ht
  | hardReset =>
    cases ht
    exact hardReset_inv s

/-- With no host move to serve the engine holds its state (60_exceptions R205). -/
theorem step_of_port_nil (hp : s.port = []) : step s = .next s := by
  simp [step, serve, hp]

theorem step_of_port_cons {m : HostMove} {rest : List HostMove} (hp : s.port = m :: rest) :
    step s = applyMove m { s with port := rest } := by
  simp [step, serve, hp]

/-- Settles O37: a step serves one host move, and every host move keeps the invariant. -/
theorem invStep : Obligations.InvStep := by
  unfold Obligations.InvStep
  intro s t h ht
  cases hp : s.port with
  | nil =>
    rw [step_of_port_nil hp] at ht
    cases ht
    exact h
  | cons m rest =>
    rw [step_of_port_cons hp] at ht
    exact applyMove_keeps (h.setPort rest) m ht

/-- Settles O38: every command word is a command that keeps the invariant, or E_ILLCMD. -/
theorem commandsComplete : Obligations.CommandsComplete := by
  unfold Obligations.CommandsComplete
  exact fun _ cmd h => acceptWord_keeps h cmd

/-- Settles O36: the state after reset is the one a soft reset of it leaves, since LCG32 seeded with key 0 is 0. -/
theorem invReset : Obligations.InvReset := by
  unfold Obligations.InvReset
  have h : Inv (softReset State.reset) := softReset_inv rfl (by simp [State.reset, Store.read])
  exact h

end Sys2Proof.Machine
end

section
/-!
SUPPORT. Progress: what every command but BEGIN and SRST keeps, from any state and however it ends. SNK and OUT only
grow, EOS stays 1, and the dictionary gains at most one entry (10_state R12, R19, R34, R35).
-/

namespace Sys2Proof.Machine

variable {α β : Type} {s t u : State} {j k : Nat}

/-! ### What a command keeps -/

/-- `t` comes from `s` within an operation: what was appended to SNK and OUT is still there, EOS has not gone back to 0,
and at most `k` entries have joined the dictionary since it had DSIZE, or the 256 of a reset (10_state R12, R19, R34,
R35). -/
structure Progress (k : Nat) (s t : State) : Prop where
  snkLen : s.snkLen ≤ t.snkLen
  snk : ∀ a < s.snkLen, Store.read (α := Byte) t.snk a = Store.read (α := Byte) s.snk a
  outLen : s.outLen ≤ t.outLen
  out : ∀ a < s.outLen, Store.read t.out a = Store.read s.out a
  eos : s.eos = true → t.eos = true
  dsize : t.dsize ≤ max 256 s.dsize + k

/-- Progress that leaves CFG, KEY and SRC_LEN, as every command of a pass does (40_control R95). -/
structure PassProgress (k : Nat) (s t : State) : Prop extends Progress k s t where
  cfg : t.cfg = s.cfg
  key : t.key = s.key
  srcLen : t.srcLen = s.srcLen

namespace PassProgress

theorem refl (s : State) : PassProgress 0 s s :=
  ⟨⟨le_rfl, fun _ _ => rfl, le_rfl, fun _ _ => rfl, id, by omega⟩, rfl, rfl, rfl⟩

theorem mono (h : PassProgress j s t) (hjk : j ≤ k) : PassProgress k s t :=
  { h with dsize := h.dsize.trans (by omega) }

theorem trans (h : PassProgress j s t) (h' : PassProgress k t u) : PassProgress (j + k) s u where
  snkLen := h.snkLen.trans h'.snkLen
  snk a ha := (h'.snk a (ha.trans_le h.snkLen)).trans (h.snk a ha)
  outLen := h.outLen.trans h'.outLen
  out a ha := (h'.out a (ha.trans_le h.outLen)).trans (h.out a ha)
  eos he := h'.eos (h.eos he)
  dsize := by
    have h1 := h.dsize
    have h2 := h'.dsize
    omega
  cfg := h'.cfg.trans h.cfg
  key := h'.key.trans h.key
  srcLen := h'.srcLen.trans h.srcLen

/-- A fault is recorded in ERR, ERRINFO and PHASE and nowhere else (60_exceptions R192). -/
theorem raise (h : PassProgress k s t) (c : Cause) (info : Word) : PassProgress k s (raise c info t) := { h with }

end PassProgress

theorem Wrote.passProgress (h : Wrote s t) : PassProgress 0 s t := by
  have hg := h.grows
  have hk := h.kept
  rw [h.frame] at hk ⊢
  exact { PassProgress.refl s with snkLen := hg, snk := fun a ha => hk a (.inl ha) }

theorem Fetched.passProgress (h : Fetched s t) : PassProgress 0 s t := by
  have he := h.sticky
  rw [h.frame]
  exact { PassProgress.refl s with eos := he }

theorem Emitted.passProgress (h : Emitted s t) : PassProgress 0 s t := by
  have hg := h.grows
  have hk := h.kept
  rw [h.frame] at hk ⊢
  exact { PassProgress.refl s with outLen := hg, out := fun a ha => hk a (.inl ha) }

theorem dictRestart_passProgress (s : State) : PassProgress 0 s (dictRestart s) :=
  { PassProgress.refl s with dsize := by simp [Config.base] }

theorem insertOpt_dsize_le (e : Option Str) (s : State) : (insertOpt e s).dsize ≤ s.dsize + 1 := by
  cases e <;> simp [insertOpt]

/-- `enc_policy` inserts at most one entry (44_dictionary R149). -/
theorem encPolicy_passProgress (e : Option Str) (s : State) : PassProgress 1 s (encPolicy e s) := by
  have hd : (encPolicy e s).dsize ≤ max 256 s.dsize + 1 := by
    unfold encPolicy
    split
    · split
      · exact (insertOpt_dsize_le e (growWidth s)).trans (by simp)
      · simp [Config.base]
    · exact (insertOpt_dsize_le e s).trans (by simp)
  rw [encPolicy_frame]
  exact { PassProgress.refl s with dsize := hd }

/-- `dec_policy` inserts at most one entry (44_dictionary R150). -/
theorem decPolicy_passProgress (e : Str) (s : State) : PassProgress 1 s (decPolicy e s).2 := by
  have hd : (decPolicy e s).2.dsize ≤ max 256 s.dsize + 1 := by
    unfold decPolicy
    split
    · split
      · simp
      · simp only; omega
    · simp
  rw [decPolicy_frame]
  exact { PassProgress.refl s with dsize := hd }

/-! ### A piece of pseudocode that makes progress, however it ends -/

/-- A piece of pseudocode run from `s` makes progress, whether it ends or raises a fault. -/
abbrev Progresses (k : Nat) (s : State) (x : Res α) : Prop :=
  Res.Post (fun _ t => PassProgress k s t) (PassProgress k s) True x

/-- Progress made before a piece of pseudocode that makes progress. -/
theorem Progresses.after {x : Res α} (hx : Progresses k t x) (h : PassProgress j s t) : Progresses (j + k) s x :=
  hx.mono (fun _ _ hu => h.trans hu) (fun _ hu => h.trans hu) id

/-- Sequencing: the entries that the two parts insert add up. -/
theorem Progresses.bind_add {x : Res α} {f : α → State → Res β} (h : Progresses j s x)
    (hf : ∀ a t, Progresses k t (f a t)) : Progresses (j + k) s (x.bind f) :=
  Res.Post.bind h (fun a t ht => (hf a t).after ht) (fun _ hr => hr.mono (by omega)) id

/-- Sequencing after a part that inserts no entry. -/
theorem Progresses.bind {x : Res α} {f : α → State → Res β} (h : Progresses 0 s x)
    (hf : ∀ a t, Progresses k t (f a t)) : Progresses k s (x.bind f) := by
  simpa only [Nat.zero_add] using h.bind_add hf

theorem Progresses.weaken {x : Res α} (h : Progresses j s x) (hjk : j ≤ k) : Progresses k s x :=
  h.mono (fun _ _ ht => ht.mono hjk) (fun _ ht => ht.mono hjk) id

theorem WritePost.progresses {P : State → Prop} {x : Res Unit} (h : WritePost s P x) : Progresses 0 s x :=
  h.mono (fun _ _ ht => ht.1.passProgress) (fun _ ⟨_, hu, ht⟩ => ht ▸ hu.passProgress.raise _ _) False.elim

theorem ReadPost.progresses {P : α → State → Prop} {x : Res α} (h : ReadPost s P x) : Progresses 0 s x :=
  h.mono (fun _ _ ht => ht.1.passProgress) (fun _ ⟨_, hu, ht⟩ => ht ▸ hu.passProgress.raise _ _) False.elim

theorem progresses_of_emitted {x : Res α} (h : Res.Post (fun _ t => Emitted s t) (OutOverflow s) False x) :
    Progresses 0 s x :=
  h.mono (fun _ _ ht => ht.passProgress) (fun _ ⟨_, hu, ht⟩ => ht ▸ hu.passProgress.raise _ _) False.elim

theorem emitString_progresses (str : Str) (s : State) : Progresses 0 s (emitString str s) :=
  progresses_of_emitted (emitString_post str s)

theorem boundary_progresses (s : State) : Progresses 0 s (outAppend boundaryToken s) :=
  progresses_of_emitted (outAppend_post _ s (by decide))

theorem dictGet_progresses (c : Nat) (s : State) : Progresses 0 s (dictGet c s) := by
  unfold dictGet
  split
  · exact PassProgress.refl s
  · trivial

theorem firstByte_progresses (e : Str) (s : State) : Progresses 0 s (firstByte e s) := by
  unfold firstByte
  split
  · exact PassProgress.refl s
  · trivial

theorem candCode_progresses (s : State) : Progresses 0 s (candCode s) := by
  unfold candCode
  split
  · exact PassProgress.refl s
  · trivial

/-! ### The compress commands -/

theorem symMiss_progresses (c : Byte) (s : State) : Progresses 1 s (symMiss c s) :=
  (candCode_progresses s).bind fun code t =>
    (wrCode_post code t.w t).progresses.bind fun _ u =>
      { encPolicy_passProgress (some (u.cand ++ [c])) u with }

theorem symBody_progresses (c : Byte) (s : State) : Progresses 1 s (symBody c s) := by
  have h0 : PassProgress 0 s { s with phase := .cBody } := { PassProgress.refl s with }
  have h1 := h0.mono (k := 1) (by decide)
  unfold symBody
  split
  · exact { h1 with }
  · split
    · exact { h1 with }
    · exact (symMiss_progresses c _).after h0

theorem closeCandidate_progresses (s : State) : Progresses 1 s (closeCandidate s) := by
  unfold closeCandidate
  split
  · exact (PassProgress.refl s).mono (by decide)
  · exact (candCode_progresses s).bind fun code t =>
      (wrCode_post code t.w t).progresses.bind fun _ u => { encPolicy_passProgress none u with }

theorem eofileBody_progresses (s : State) : Progresses 1 s (eofileBody s) := by
  have h0 : PassProgress 0 s { s with phase := .cBody } := { PassProgress.refl s with }
  exact ((closeCandidate_progresses _).after h0).bind_add fun _ t => (wrCode_post _ t.w t).progresses

theorem finishBody_progresses (s : State) : Progresses 0 s (finishBody s) := by
  unfold finishBody
  split
  · exact (PassProgress.refl s).raise _ _
  · exact (wrCode_post 0 s.w s).progresses.bind fun _ t =>
      (finalize_post t).progresses.bind fun _ u => { PassProgress.refl u with }

/-! ### The decompress commands -/

theorem hdrrdBody_progresses (s : State) : Progresses 0 s (hdrrdBody s) :=
  (rdHdr_frame s).progresses.bind fun b t => by
    cases b with
    | none => exact { PassProgress.refl t with }
    | some b => exact { PassProgress.refl t with }

theorem dstepPrime_progresses (s : State) : Progresses 0 s (dstepPrime s) := by
  refine (rdCode_frame s.w s).progresses.bind fun c t => ?_
  cases c with
  | none => exact { PassProgress.refl t with }
  | some c =>
    simp only
    split
    · exact boundary_progresses t
    · split
      · exact (PassProgress.refl t).raise _ _
      · exact { PassProgress.refl t with }

theorem completingByte_progresses (n : Nat) (current : Str) (s : State) :
    Progresses 0 s (completingByte n current s) := by
  unfold completingByte
  split
  · exact (dictGet_progresses n s).bind firstByte_progresses
  · split
    · exact firstByte_progresses current s
    · exact (PassProgress.refl s).raise _ _

theorem nextString_progresses (n : Nat) (e : Str) (s : State) : Progresses 0 s (nextString n e s) := by
  unfold nextString
  split
  · exact dictGet_progresses n s
  · exact PassProgress.refl s

theorem dstepArm_progresses (n : Nat) (nxt : Str) (arm : PolicyArm) (s : State) :
    Progresses 0 s (dstepArm n nxt arm s) := by
  cases arm with
  | inserted => exact { PassProgress.refl s with }
  | grown => exact { PassProgress.refl s with }
  | reset => exact (emitString_progresses nxt s).bind fun _ t => { dictRestart_passProgress t with }

theorem dstepData_progresses (n : Nat) (s : State) : Progresses 1 s (dstepData n s) :=
  (dictGet_progresses s.cur s).bind fun current t =>
    (emitString_progresses current t).bind fun _ u =>
      (completingByte_progresses n current u).bind fun b v =>
        (nextString_progresses n (current ++ [b]) v).bind fun nxt x =>
          (dstepArm_progresses n nxt _ _).after (decPolicy_passProgress (current ++ [b]) x)

theorem dstepSentinel_progresses (s : State) : Progresses 0 s (dstepSentinel s) :=
  (dictGet_progresses s.cur s).bind fun current t =>
    (emitString_progresses current t).bind fun _ u =>
      (boundary_progresses u).bind fun _ v => { PassProgress.refl v with }

theorem dstepRun_progresses (s : State) : Progresses 1 s (dstepRun s) := by
  refine (rdCode_frame s.w s).progresses.bind fun n t => ?_
  cases n with
  | none => exact { (PassProgress.refl t).mono (k := 1) (by decide) with }
  | some n =>
    simp only
    split
    · exact (dstepSentinel_progresses t).weaken (by decide)
    · exact dstepData_progresses n t

theorem dstepBody_progresses (s : State) : Progresses 1 s (dstepBody s) := by
  have h0 : PassProgress 0 s { s with phase := .dBody } := { PassProgress.refl s with }
  unfold dstepBody
  split
  · exact ((dstepPrime_progresses _).after h0).weaken (by decide)
  · exact (dstepRun_progresses _).after h0

/-! ### Every command -/

/-- A command of a pass, or NOP, makes progress and leaves CFG, KEY and SRC_LEN. -/
theorem passBody_progresses {i : Instr} (hset : ∀ opd, i ≠ .setcfg opd) (hkey : ∀ k, i ≠ .setkey k)
    (hlen : ∀ n, i ≠ .setsrclen n) (hbegin : i ≠ .beginOp) (hsrst : i ≠ .srst) (s : State) :
    Progresses 1 s (commandBody i s) := by
  cases i with
  | nop => exact (PassProgress.refl s).mono (by decide)
  | setcfg opd => exact absurd rfl (hset opd)
  | setkey k => exact absurd rfl (hkey k)
  | setsrclen n => exact absurd rfl (hlen n)
  | beginOp => exact absurd rfl hbegin
  | srst => exact absurd rfl hsrst
  | hdrb b => exact (wrHdr_post b s).progresses.weaken (by decide)
  | sym c => exact symBody_progresses c s
  | eofile => exact eofileBody_progresses s
  | finish => exact (finishBody_progresses s).weaken (by decide)
  | hdrrd => exact (hdrrdBody_progresses s).weaken (by decide)
  | dstep => exact dstepBody_progresses s

theorem setcfgBody_cases (opd : Word) (s : State) :
    Res.Post (fun _ t => ∃ c, cfgOfImage opd = some c ∧ t = { s with cfg := c }) (fun t => t = raise .cfg opd s) False
      (setcfgBody opd s) := by
  unfold setcfgBody
  split
  · rfl
  · exact ⟨_, ‹_›, rfl⟩

theorem setsrclenBody_cases (n : Word) (s : State) :
    Res.Post (fun _ t => t = { s with srcLen := n.toNat }) (fun t => t = raise .cfg n s) False (setsrclenBody n s) := by
  unfold setsrclenBody
  split
  · rfl
  · rfl

/-- Every command but BEGIN and SRST makes progress. -/
theorem commandBody_progress {i : Instr} (hbegin : i ≠ .beginOp) (hsrst : i ≠ .srst) (s : State) :
    Res.Post (fun _ t => Progress 1 s t) (Progress 1 s) True (commandBody i s) := by
  have h0 := (PassProgress.refl s).mono (k := 1) (by decide)
  have hpass : (∀ opd, i ≠ .setcfg opd) → (∀ k, i ≠ .setkey k) → (∀ n, i ≠ .setsrclen n) →
      Res.Post (fun _ t => Progress 1 s t) (Progress 1 s) True (commandBody i s) := fun h1 h2 h3 =>
    (passBody_progresses h1 h2 h3 hbegin hsrst s).mono (fun _ _ h => h.toProgress) (fun _ h => h.toProgress) id
  cases i with
  | setcfg opd =>
    refine (setcfgBody_cases opd s).mono (fun _ t ht => ?_) (fun t ht => ?_) False.elim
    · obtain ⟨c, _, rfl⟩ := ht
      exact { h0 with }
    · exact ht ▸ (h0.raise _ _).toProgress
  | setkey k => exact { h0 with }
  | setsrclen n =>
    refine (setsrclenBody_cases n s).mono (fun _ t ht => ?_) (fun t ht => ?_) False.elim
    · subst ht
      exact { h0 with }
    · exact ht ▸ (h0.raise _ _).toProgress
  | beginOp => exact absurd rfl hbegin
  | srst => exact absurd rfl hsrst
  | _ => exact hpass (by simp) (by simp) (by simp)

theorem exec_progress {i : Instr} (hbegin : i ≠ .beginOp) (hsrst : i ≠ .srst) (h : exec i s = .next t) :
    Progress 1 s t := by
  have h0 := (PassProgress.refl s).mono (k := 1) (by decide)
  rcases exec_cases h (fun _ => commandBody_progress hbegin hsrst s) with
    ⟨_, _, rfl⟩ | ⟨_, _, rfl⟩ | ⟨hi, _⟩ | ⟨_, _, k⟩
  · exact h0.toProgress
  · exact (h0.raise _ _).toProgress
  · exact absurd hi hsrst
  · exact k.elim id id

/-- Settles O30: every command but BEGIN and SRST makes progress, which keeps what SNK and OUT hold. -/
theorem appendedStable : Obligations.AppendedStable := by
  unfold Obligations.AppendedStable
  intro i s t hbegin hsrst h
  have k := exec_progress hbegin hsrst h
  refine ⟨fun a ha => ?_, fun a ha => ?_⟩
  · rw [readSnk, readSnk, if_pos ha, if_pos (ha.trans_le k.snkLen), k.snk a ha]
  · rw [readOut, readOut, if_pos ha, if_pos (ha.trans_le k.outLen), k.out a ha]

/-- Settles O31: every command but BEGIN and SRST makes progress, which keeps EOS. -/
theorem eosSticky : Obligations.EosSticky := by
  unfold Obligations.EosSticky
  exact fun i s t hbegin hsrst he h => (exec_progress hbegin hsrst h).eos he

/-- BEGIN leaves the baseline dictionary, or changes nothing of it where it is turned away. -/
theorem exec_begin_dsize (h : exec .beginOp s = .next t) : t.dsize = 256 ∨ t.dsize = s.dsize := by
  have hb : Res.Post (fun _ t => t = beginState s) (fun _ => False) False (commandBody .beginOp s) := rfl
  rcases exec_cases h (fun _ => hb) with ⟨_, _, rfl⟩ | ⟨_, _, rfl⟩ | ⟨hi, _⟩ | ⟨_, _, rfl | hf⟩
  · exact .inr rfl
  · exact .inr rfl
  · cases hi
  · exact .inl rfl
  · exact hf.elim

/-- Settles O34: progress adds at most one entry, and BEGIN and SRST leave the 256 of the baseline or add nothing. -/
theorem dsizeGrowth : Obligations.DsizeGrowth := by
  unfold Obligations.DsizeGrowth
  intro i s t hd h
  by_cases hsrst : i = .srst
  · subst hsrst
    cases h
    exact hd.trans (Nat.le_succ _)
  · by_cases hbegin : i = .beginOp
    · subst hbegin
      have := exec_begin_dsize h
      omega
    · have := (exec_progress hbegin hsrst h).dsize
      omega

end Sys2Proof.Machine
end

section
/-!
SUPPORT. The step as a function of the 23 elements, the parameters, the number of hardware resets and the host move
(10_state R10).
-/

namespace Sys2Proof.Machine

variable {s t : State}

/-! ### What a step does to the three fields beside the elements -/

theorem State.withPort_self (s : State) : s.withPort s.port = s := rfl

/-- No host move writes the list of the moves after it: none reads it, so each leaves it as it found it. -/
theorem applyMove_port_eq {m : HostMove} (h : applyMove m s = .next t) : t.port = s.port := by
  have hp := applyMove_port (s := s) s.port m
  rw [State.withPort_self, h] at hp
  simp only [withPortOutcome, Host.Outcome.next.injEq] at hp
  exact (congrArg (fun u : State => u.port) hp :)

/-- A host move served with others after it does to the elements what `stepAt` says. -/
theorem stepAt_eq (m : HostMove) (s : State) :
    stepAt s.params s.srcEpoch m s.toElements =
      match applyMove m s with
      | .next t => .next t.toElements
      | .fault r => .fault r
      | .refused r => .refused r := by
  have hp := applyMove_port (s := s) [] m
  simp only [stepAt]
  rw [show ({ toElements := s.toElements, params := s.params, srcEpoch := s.srcEpoch, port := [] } : State) =
    s.withPort [] from rfl, hp]
  cases applyMove m s <;> rfl

/-- Settles O58: a host move neither reads nor writes the moves after it, keeps the parameters, and counts a hardware
reset. -/
theorem stepOfElements : Obligations.StepOfElements := by
  unfold Obligations.StepOfElements
  intro s m rest hp
  have he := stepAt_eq m { s with port := rest }
  simp only at he
  rw [step_of_port_cons hp, he]
  cases h : applyMove m { s with port := rest } with
  | next t =>
    obtain ⟨hparams, hepoch⟩ := applyMove_own m h
    have hport := applyMove_port_eq h
    simp only at hparams hepoch hport
    simp only [← hparams, ← hepoch, ← hport]
  | fault r => rfl
  | refused r => rfl

end Sys2Proof.Machine
end

section
/-!
SUPPORT. The compress commands neither read nor change SRC and SRC_LEN (10_state R22, R33): each primitive of the write
side commutes with putting other contents there.
-/

namespace Sys2Proof.Machine

variable {α β : Type} {s t : State}

/-! ### Pseudocode that commutes with a change of the state -/

/-- The end of a piece of pseudocode, with the state changed by `g`. -/
def Res.mapState (g : State → State) (x : Res α) : Res α :=
  match x with
  | .done a s => .done a (g s)
  | .raised s => .raised (g s)
  | .stop r => .stop r

/-- The pseudocode `f` neither reads nor writes what `g` changes: it may be changed before or after. -/
def Commutes (g : State → State) (f : State → Res α) : Prop := ∀ s, f (g s) = (f s).mapState g

namespace Commutes

variable {g : State → State}

theorem bind {f : State → Res α} {f' : α → State → Res β} (hf : Commutes g f) (hf' : ∀ a, Commutes g (f' a)) :
    Commutes g fun s => (f s).bind f' := by
  intro s
  simp only [hf s]
  cases f s with
  | done a t => exact hf' a t
  | raised t => rfl
  | stop r => rfl

/-- A choice by a condition that does not look at what `g` changes. -/
theorem ite {c : State → Prop} [∀ s, Decidable (c s)] {f f' : State → Res α} (hf : Commutes g f)
    (hf' : Commutes g f') (hc : ∀ s, c (g s) ↔ c s) : Commutes g fun s => if c s then f s else f' s := by
  intro s
  by_cases h : c s
  · simpa only [if_pos h, if_pos ((hc s).2 h)] using hf s
  · simpa only [if_neg h, if_neg (mt (hc s).1 h)] using hf' s

/-- A piece of pseudocode that takes an argument from the state, which does not depend on what `g` changes. -/
theorem arg {γ : Type} {f : γ → State → Res α} {u : State → γ} (hf : ∀ x, Commutes g (f x))
    (hu : ∀ s, u (g s) = u s) : Commutes g fun s => f (u s) s := by
  intro s
  simp only [hu s]
  exact hf (u s) s

/-- A piece of pseudocode run in a state that an update `u` leaves. -/
theorem comp {f : State → Res α} {u : State → State} (hf : Commutes g f) (hu : ∀ s, u (g s) = g (u s)) :
    Commutes g fun s => f (u s) := by
  intro s
  simp only [hu s]
  exact hf (u s)

end Commutes

/-! ### The write side and SRC -/

/-- `s` with other contents of SRC and another SRC_LEN (10_state R22, R33). -/
def State.withSrc (src : List Host.Cell) (n : Nat) (s : State) : State := { s with src := src, srcLen := n }

/-- A piece of pseudocode does the same whatever SRC and SRC_LEN hold, and leaves them. -/
abbrev SrcFree (f : State → Res α) : Prop := ∀ src n, Commutes (State.withSrc src n) f

theorem snkAppend_srcFree (b : Byte) : SrcFree (snkAppend b) := fun _ _ =>
  .ite (fun _ => rfl) (fun _ => rfl) fun _ => Iff.rfl

theorem candCode_srcFree : SrcFree candCode := by
  intro src n s
  simp only [candCode, show codeOf (s.withSrc src n).cand (s.withSrc src n) = codeOf s.cand s from rfl]
  cases codeOf s.cand s <;> rfl

theorem emitGroup_srcFree (g : Nat) : SrcFree (emitGroup g) := by
  intro src n s
  simp only [emitGroup, show (s.withSrc src n).cfg = s.cfg from rfl]
  cases s.cfg.text with
  | none => exact snkAppend_srcFree _ src n s
  | hex => exact (snkAppend_srcFree _ src n).bind (fun _ => snkAppend_srcFree _ src n) s
  | base64 => exact snkAppend_srcFree _ src n s

/-- Emitting a group that the state gives, after an update of WBUF. -/
theorem emitGroup_update_srcFree {v : State → Nat} {u : State → State} (hv : ∀ src n s, v (s.withSrc src n) = v s)
    (hu : ∀ src n s, u (s.withSrc src n) = (u s).withSrc src n) : SrcFree fun s => emitGroup (v s) (u s) :=
  fun src n => .arg (f := fun g s => emitGroup g (u s)) (fun g => (emitGroup_srcFree g src n).comp (hu src n)) (hv src n)

theorem emitFull_srcFree (rounds : Nat) : SrcFree (emitFull rounds) := by
  intro src n
  induction rounds with
  | zero => exact fun _ => rfl
  | succ k ih =>
    exact .ite ((emitGroup_update_srcFree (fun _ _ _ => rfl) (fun _ _ _ => rfl) src n).bind fun _ => ih)
      (fun _ => rfl) fun _ => Iff.rfl

theorem writeBits_srcFree (v m : Nat) : SrcFree (writeBits v m) := fun src n =>
  .arg (f := fun rounds s => emitFull rounds { s with wbuf := s.wbuf ++ bitsMSB (v % 2 ^ m) m })
    (fun rounds => (emitFull_srcFree rounds src n).comp fun _ => rfl) fun _ => rfl

theorem finalize_srcFree : SrcFree finalize := fun src n =>
  .ite ((emitGroup_update_srcFree (fun _ _ _ => rfl) (fun _ _ _ => rfl) src n).bind fun _ _ => rfl) (fun _ => rfl)
    fun _ => Iff.rfl

/-- Writing bits that may depend on a draw, after the draw. -/
theorem writeBits_draw_srcFree (v : Nat → Nat) (m : Nat) : SrcFree fun s => writeBits (v (draw s).1) m (draw s).2 :=
  fun src n => .arg (f := fun r s => writeBits (v r) m (draw s).2)
    (fun r => (writeBits_srcFree (v r) m src n).comp fun _ => rfl) fun _ => rfl

theorem wrCode_srcFree (c w : Nat) : SrcFree (wrCode c w) := fun src n =>
  .ite (writeBits_draw_srcFree (addMod c · (2 ^ w)) w src n) (writeBits_srcFree c w src n) fun _ => Iff.rfl

theorem wrHdr_srcFree (b : Byte) : SrcFree (wrHdr b) := fun src n =>
  .ite (.arg (f := fun h s => writeBits (hdrEncipher h b.toNat (draw s).1) 8 (draw s).2)
    (fun h => writeBits_draw_srcFree (hdrEncipher h b.toNat) 8 src n) fun _ => rfl)
    (writeBits_srcFree b.toNat 8 src n) fun _ => Iff.rfl

/-- Writing a code at the width in force. -/
theorem wrCode_width_srcFree (c : State → Nat) (hc : ∀ src n s, c (s.withSrc src n) = c s) :
    SrcFree fun s => wrCode (c s) s.w s := fun src n =>
  .arg (f := fun (p : Nat × Nat) s => wrCode p.1 p.2 s) (u := fun s => (c s, s.w))
    (fun p => wrCode_srcFree p.1 p.2 src n) fun s => by rw [hc]; rfl

/-! ### The compress commands and SRC -/

theorem encPolicy_withSrc (src : List Host.Cell) (n : Nat) (e : Option Str) (s : State) :
    encPolicy e (s.withSrc src n) = (encPolicy e s).withSrc src n := by
  have hi : ∀ s : State, insertOpt e (s.withSrc src n) = (insertOpt e s).withSrc src n := by
    intro s
    cases e <;> rfl
  unfold encPolicy
  rw [apply_ite (State.withSrc src n), apply_ite (State.withSrc src n), ← hi, ← hi]
  rfl

theorem symMiss_srcFree (c : Byte) : SrcFree (symMiss c) := fun src n =>
  (candCode_srcFree src n).bind fun code =>
    (wrCode_width_srcFree (fun _ => code) (fun _ _ _ => rfl) src n).bind fun _ s => by
      simp only [encPolicy_withSrc]
      rfl

theorem symBody_srcFree (c : Byte) : SrcFree (symBody c) := fun src n =>
  .ite (fun _ => rfl)
    (.ite (fun _ => rfl) ((symMiss_srcFree c src n).comp fun _ => rfl) fun _ => Iff.rfl) fun _ => Iff.rfl

theorem closeCandidate_srcFree : SrcFree closeCandidate := fun src n =>
  .ite (fun _ => rfl)
    ((candCode_srcFree src n).bind fun code =>
      (wrCode_width_srcFree (fun _ => code) (fun _ _ _ => rfl) src n).bind fun _ s => by
        simp only [encPolicy_withSrc]
        rfl)
    fun _ => Iff.rfl

theorem eofileBody_srcFree : SrcFree eofileBody := fun src n =>
  ((closeCandidate_srcFree src n).comp (u := fun s => { s with phase := .cBody }) fun _ => rfl).bind fun _ =>
    wrCode_width_srcFree (fun s => sentinel s.w) (fun _ _ _ => rfl) src n

theorem finishBody_srcFree : SrcFree finishBody := fun src n =>
  .ite (fun _ => rfl)
    ((wrCode_width_srcFree (fun _ => 0) (fun _ _ _ => rfl) src n).bind fun _ =>
      (finalize_srcFree src n).bind fun _ _ => rfl)
    fun _ => Iff.rfl

/-- A command whose pseudocode does not look at SRC does not look at it when it is turned away either. -/
theorem accept_withSrc {opc : Byte} {legal : List Phase} {body : State → Res Unit} (hb : SrcFree body)
    (src : List Host.Cell) (n : Nat) (h : accept opc legal body s = .next t) :
    accept opc legal body (s.withSrc src n) = .next (t.withSrc src n) := by
  by_cases he : s.phase = .err
  · rw [accept_err he] at h
    cases h
    exact accept_err he
  · by_cases hl : s.phase ∈ legal
    · rw [accept_legal hl he] at h
      rw [accept_legal (s := s.withSrc src n) hl he, hb src n s]
      cases hx : body s with
      | done a u => rw [hx] at h; cases h; rfl
      | raised u => rw [hx] at h; cases h; rfl
      | stop r => rw [hx] at h; cases h
    · rw [accept_illegal hl he] at h
      cases h
      exact accept_illegal hl he

/-- Settles O54: the four pseudocodes do the same whatever SRC and SRC_LEN hold. -/
theorem compressIgnoresSrc : Obligations.CompressIgnoresSrc := by
  unfold Obligations.CompressIgnoresSrc
  rintro i s t src n (⟨b, rfl⟩ | ⟨c, rfl⟩ | rfl | rfl) h
  · exact accept_withSrc (wrHdr_srcFree b) src n h
  · exact accept_withSrc (symBody_srcFree c) src n h
  · exact accept_withSrc eofileBody_srcFree src n h
  · exact accept_withSrc finishBody_srcFree src n h

end Sys2Proof.Machine
end

section
/-!
SUPPORT. The registers of the read port (10_state R20 to R30), the reset table (10_state R38) and the image of a
configuration (30_encoding R64).
-/

namespace Sys2Proof.Machine
variable {s t : State}

/-! ### STATUS (10_state R23) -/

theorem dstateBit_iff (d : DState) : dstateBit d = true ↔ d = .run := by cases d <;> decide

theorem sne_iff (s : State) : sne s = true ↔ s.cand ≠ [] := by simp [sne]

theorem statusWord_phase (s : State) : (statusWord s).extractLsb' 0 3 = phaseCode s.phase := by
  rw [statusWord, BitVec.extractLsb'_setWidth_of_le (by decide), BitVec.extractLsb'_append_eq_of_add_le (by decide),
    BitVec.extractLsb'_eq_self]

theorem statusWord_dstate (s : State) : (statusWord s).getLsbD 3 = dstateBit s.dstate := by
  simp [statusWord, BitVec.getElem_append, -Nat.reduceAdd]

theorem statusWord_eos (s : State) : (statusWord s).getLsbD 4 = s.eos := by
  simp [statusWord, BitVec.getElem_append, -Nat.reduceAdd]

theorem statusWord_sne (s : State) : (statusWord s).getLsbD 5 = sne s := by
  simp [statusWord, BitVec.getElem_append, -Nat.reduceAdd]

theorem statusWord_reserved (s : State) : (statusWord s).extractLsb' 6 2 = 0 := by
  simp [statusWord, BitVec.extractLsb'_setWidth_of_le, BitVec.extractLsb'_append_eq_of_add_le,
    BitVec.extractLsb'_append_eq_of_le, -Nat.reduceAdd]

theorem statusWord_width (s : State) : (statusWord s).extractLsb' 8 5 = BitVec.ofNat 5 s.w := by
  simp [statusWord, BitVec.extractLsb'_setWidth_of_le, BitVec.extractLsb'_append_eq_of_le, -Nat.reduceAdd]

theorem statusWord_high (s : State) : (statusWord s).extractLsb' 13 19 = 0 := by
  refine BitVec.eq_of_getLsbD_eq fun i hi => ?_
  simp [statusWord, hi, BitVec.getLsbD_setWidth]

/-- Settles O40: each field of the concatenation that STATUS is, and the word after reset. -/
theorem statusFields : Obligations.StatusFields := by
  unfold Obligations.StatusFields
  refine ⟨fun s hw => ⟨rfl, statusWord_phase s, ?_, statusWord_eos s, ?_, statusWord_reserved s, ?_,
    statusWord_high s⟩, by decide, by decide⟩
  · rw [statusWord_dstate, dstateBit_iff]
  · rw [statusWord_sne, sne_iff]
  · rw [statusWord_width, BitVec.toNat_ofNat]
    exact Nat.mod_eq_of_lt hw

/-! ### The read port under the invariant -/

theorem toNat_setWidth_word {n : Nat} (x : BitVec n) (hn : n ≤ 32) : (x.zeroExtend 32).toNat = x.toNat :=
  BitVec.toNat_setWidth_of_le hn

/-- A quantity that a capacity bounds fits a register (92_eei_decisions D4). -/
theorem toNat_ofNat_of_le_capacity {n : Nat} {cap : Word} (h : n ≤ cap.toNat) : (BitVec.ofNat 32 n).toNat = n := by
  rw [BitVec.toNat_ofNat]
  exact Nat.mod_eq_of_lt (h.trans_lt cap.isLt)

/-- `DSIZE ≤ 2^W − 1` with `W ≤ 16` fits a register. -/
theorem BaseInv.dsize_lt (h : BaseInv s) : s.dsize < 2 ^ 16 := by
  have hpow : 2 ^ s.w ≤ 2 ^ 16 := Nat.pow_le_pow_right (by decide) h.width.2
  have hpos : 0 < 2 ^ s.w := by positivity
  have hd := h.dsize.2
  omega

/-- Settles O42: the invariant bounds every element that a register shows. -/
theorem registersExact : Obligations.RegistersExact := by
  unfold Obligations.RegistersExact
  intro s h
  have hw : s.w < 2 ^ 5 := by have := h.width.2; omega
  have hd : s.dsize < 2 ^ 32 := h.dsize_lt.trans (by decide)
  refine ⟨toNat_setWidth_word _ (by decide), rfl, toNat_ofNat_of_le_capacity h.srcLen, ?_,
    toNat_setWidth_word _ (by decide), rfl, ?_, toNat_ofNat_of_le_capacity h.srcPosCap,
    toNat_ofNat_of_le_capacity h.snkLen, toNat_ofNat_of_le_capacity h.outLen, toNat_setWidth_word _ (by decide)⟩
  · rw [show readReg 3 s = statusWord s from rfl, statusWord_width, BitVec.toNat_ofNat]
    exact Nat.mod_eq_of_lt hw
  · rw [show readReg 6 s = BitVec.ofNat 32 s.dsize from rfl, BitVec.toNat_ofNat]
    exact Nat.mod_eq_of_lt hd

/-! ### The reset table (10_state R38) -/

/-- SRST leaves every element at its value of the table, from any state. -/
theorem softReset_table (s : State) : ResetTable (softReset s) where
  phase := rfl
  cfg := by rw [softReset_cfg]; decide
  key := rfl
  srcLen := rfl
  w := rfl
  dsize := rfl
  dict c := by
    by_cases hc : c < 256
    · rw [if_pos hc]
      exact dictRead_single hc hc
    · rw [if_neg hc, dictRead, if_neg (by exact hc)]
  cand := rfl
  dstate := rfl
  cur := rfl
  wbuf := rfl
  rbuf := rfl
  prng := rfl
  eos := rfl
  srcPos := rfl
  snkLen := rfl
  outLen := rfl
  result := rfl
  err := rfl
  errinfo := rfl

/-- The hardware reset leaves what SRST does, SRC and the number of resets apart, which the table does not speak of. -/
theorem hardReset_table (s : State) : ResetTable (hardReset s) := { softReset_table s with }

/-- Settles O39: one table for both resets, and the state after reset is what SRST makes of it. -/
theorem resetValues : Obligations.ResetValues := by
  unfold Obligations.ResetValues
  refine ⟨softReset_table State.reset, fun s t h => ?_, fun s t h => ?_⟩
  · cases h
    exact hardReset_table s
  · cases h
    exact ⟨softReset_table s, fun a => srcByte_congr rfl rfl a⟩

/-! ### The image of a configuration (10_state R20) -/

theorem textBits_of_imageText {opd : Word} {m : TextMode} (h : imageText opd = some m) :
    textBits m = opd.extractLsb' 2 2 := by
  unfold imageText at h
  refine BitVec.eq_of_toNat_eq ?_
  split at h <;> cases h <;> simp_all [textBits]

theorem dirBit_imageDir (opd : Word) : dirBit (imageDir opd) = opd.getLsbD 0 := by
  unfold imageDir
  cases opd.getLsbD 0 <;> rfl

theorem getLsbD_of_cfgHigh {opd : Word} (h : cfgHighReservedClear opd = true) {i : Nat} (hi : 13 ≤ i) :
    opd.getLsbD i = false := by
  by_cases h32 : i < 32
  · have hz : opd.extractLsb' 13 19 = 0 := by simpa [cfgHighReservedClear] using h
    have := congrArg (fun x => x.getLsbD (i - 13)) hz
    simpa [show i - 13 < 19 by omega, show 13 + (i - 13) = i by omega] using this
  · exact BitVec.getLsbD_of_ge _ _ (by omega)

theorem getLsbD_of_cfgLow {opd : Word} (h : cfgLowReservedClear opd = true) {i : Nat} (hi : 5 ≤ i) (hi' : i < 8) :
    opd.getLsbD i = false := by
  have hz : opd.extractLsb' 5 3 = 0 := by simpa [cfgLowReservedClear] using h
  have := congrArg (fun x => x.getLsbD (i - 5)) hz
  simpa [show i - 5 < 3 by omega, show 5 + (i - 5) = i by omega] using this

/-- A word without reserved bits is the fields of its image in their places (30_encoding R64). -/
theorem word_of_cfg_fields {opd : Word} (hhigh : cfgHighReservedClear opd = true)
    (hlow : cfgLowReservedClear opd = true) :
    (opd.extractLsb' 8 5 ++ 0#3 ++ BitVec.ofBool (opd.getLsbD 4) ++ opd.extractLsb' 2 2 ++
      BitVec.ofBool (opd.getLsbD 1) ++ BitVec.ofBool (opd.getLsbD 0)).zeroExtend 32 = opd := by
  refine BitVec.eq_of_getLsbD_eq fun i hi => ?_
  by_cases h13 : 13 ≤ i
  · rw [getLsbD_of_cfgHigh hhigh h13, BitVec.getLsbD_setWidth, BitVec.getLsbD_of_ge _ _ h13, Bool.and_false]
  · have hcases : i < 5 ∨ (5 ≤ i ∧ i < 8) ∨ (8 ≤ i ∧ i < 13) := by omega
    simp only [BitVec.getLsbD_append, BitVec.getLsbD_setWidth]
    rcases hcases with h | ⟨h, h'⟩ | ⟨h, h'⟩
    · interval_cases i <;> simp
    · rw [getLsbD_of_cfgLow hlow h h']
      interval_cases i <;> simp
    · interval_cases i <;> simp

/-- The image of the configuration that a word without reserved bits stands for is the word. -/
theorem cfgImage_of_cfgOfImage {opd : Word} {c : Cfg} (hwf : (Instr.setcfg opd).wf = true)
    (hc : cfgOfImage opd = some c) : (cfgImage c).zeroExtend 32 = opd := by
  simp only [Instr.wf, Bool.and_eq_true] at hwf
  unfold cfgOfImage at hc
  split at hc
  · cases hc
  · rename_i text ht
    split at hc
    · cases hc
      simp only [cfgImage, textBits_of_imageText ht, dirBit_imageDir]
      exact word_of_cfg_fields hwf.1 hwf.2
    · cases hc

end Sys2Proof.Machine
end

section
/-!
SUPPORT. The read port's registers 0 to 2 (10_state R30): what the setters make them read, and that no other command but
SRST changes that.
-/

namespace Sys2Proof.Machine

variable {s t : State} {i : Instr}

/-- What a command leaves of CFG, KEY and SRC_LEN: each is as before unless the command is its setter. -/
structure ConfigKept (i : Instr) (s t : State) : Prop where
  cfg : (∀ opd, i ≠ .setcfg opd) → t.cfg = s.cfg
  key : (∀ k, i ≠ .setkey k) → t.key = s.key
  srcLen : (∀ n, i ≠ .setsrclen n) → t.srcLen = s.srcLen

theorem ConfigKept.of_eq (hcfg : t.cfg = s.cfg) (hkey : t.key = s.key) (hlen : t.srcLen = s.srcLen) :
    ConfigKept i s t :=
  ⟨fun _ => hcfg, fun _ => hkey, fun _ => hlen⟩

theorem commandBody_configKept (hsrst : i ≠ .srst) (s : State) :
    Res.Post (fun _ t => ConfigKept i s t) (ConfigKept i s) True (commandBody i s) := by
  have hpass : (∀ opd, i ≠ .setcfg opd) → (∀ k, i ≠ .setkey k) → (∀ n, i ≠ .setsrclen n) → i ≠ .beginOp →
      Res.Post (fun _ t => ConfigKept i s t) (ConfigKept i s) True (commandBody i s) := fun h1 h2 h3 h4 =>
    (passBody_progresses h1 h2 h3 h4 hsrst s).mono (fun _ _ h => .of_eq h.cfg h.key h.srcLen)
      (fun _ h => .of_eq h.cfg h.key h.srcLen) id
  cases i with
  | setcfg opd =>
    refine (setcfgBody_cases opd s).mono (fun _ t ht => ?_) (fun t ht => ?_) False.elim
    · obtain ⟨c, _, rfl⟩ := ht
      exact ⟨fun h => absurd rfl (h opd), fun _ => rfl, fun _ => rfl⟩
    · exact ht ▸ .of_eq rfl rfl rfl
  | setkey k => exact ⟨fun _ => rfl, fun h => absurd rfl (h k), fun _ => rfl⟩
  | setsrclen n =>
    refine (setsrclenBody_cases n s).mono (fun _ t ht => ?_) (fun t ht => ?_) False.elim
    · subst ht
      exact ⟨fun _ => rfl, fun _ => rfl, fun h => absurd rfl (h n)⟩
    · exact ht ▸ .of_eq rfl rfl rfl
  | beginOp => exact .of_eq rfl rfl rfl
  | srst => exact absurd rfl hsrst
  | _ => exact hpass (by simp) (by simp) (by simp) (by simp)

theorem exec_configKept (hsrst : i ≠ .srst) (h : exec i s = .next t) : ConfigKept i s t := by
  rcases exec_cases h (fun _ => commandBody_configKept hsrst s) with
    ⟨_, _, rfl⟩ | ⟨_, _, rfl⟩ | ⟨hi, _⟩ | ⟨_, _, k⟩
  · exact .of_eq rfl rfl rfl
  · exact .of_eq rfl rfl rfl
  · exact absurd hi hsrst
  · exact k.elim id id

/-- A command that does not end in ERR ran its pseudocode to the end. -/
theorem exec_accepted {D : Unit → State → Prop} {R : State → Prop} {S : Prop} (hsrst : i ≠ .srst)
    (h : exec i s = .next t) (ht : t.phase ≠ .err) (hb : Res.Post D R S (commandBody i s))
    (hR : ∀ u, R u → u.phase = .err) : D () t := by
  rcases exec_cases h (fun _ => hb) with ⟨_, he, rfl⟩ | ⟨_, _, rfl⟩ | ⟨hi, _⟩ | ⟨_, _, hd | hr⟩
  · exact absurd he ht
  · exact absurd rfl ht
  · exact absurd hi hsrst
  · exact hd
  · exact absurd (hR t hr) ht

theorem readReg_above (s : State) {n : Nat} (hn : 10 < n) : readReg n s = 0 := by
  obtain ⟨m, rfl⟩ : ∃ m, n = m + 11 := ⟨n - 11, by omega⟩
  rfl

theorem readReg_zero_setcfg {opd : Word} (hwf : (Instr.setcfg opd).wf = true) (h : exec (.setcfg opd) s = .next t)
    (ht : t.phase ≠ .err) : readReg 0 t = opd := by
  obtain ⟨c, hc, rfl⟩ := exec_accepted (by simp) h ht (setcfgBody_cases opd s) (fun _ hu => hu ▸ rfl)
  exact cfgImage_of_cfgOfImage hwf hc

theorem readReg_one_setkey {k : Word} (h : exec (.setkey k) s = .next t) (ht : t.phase ≠ .err) : readReg 1 t = k := by
  have hb : Res.Post (fun _ u => u = { s with key := k }) (fun _ => False) False (commandBody (.setkey k) s) := rfl
  exact exec_accepted (by simp) h ht hb (fun _ hu => hu.elim) ▸ rfl

theorem readReg_two_setsrclen {n : Word} (h : exec (.setsrclen n) s = .next t) (ht : t.phase ≠ .err) :
    readReg 2 t = n := by
  have := exec_accepted (by simp) h ht (setsrclenBody_cases n s) (fun _ hu => hu ▸ rfl)
  subst this
  exact BitVec.ofNat_toNat 32 n

/-- Settles O41: the reset values, the setters one by one, and the three registers kept by every other command. -/
theorem readPort : Obligations.ReadPort := by
  unfold Obligations.ReadPort
  refine ⟨by decide, fun n s hn => readReg_above s hn, fun opd s t hwf h ht => readReg_zero_setcfg hwf h ht,
    fun k s t h ht => readReg_one_setkey h ht, fun n s t h ht => readReg_two_setsrclen h ht,
    fun i s t hsrst h => ?_⟩
  have k := exec_configKept hsrst h
  exact ⟨fun hi => by rw [readReg, readReg, k.cfg hi], fun hi => k.key hi,
    fun hi => by rw [readReg, readReg, k.srcLen hi]⟩

end Sys2Proof.Machine
end

section
/-!
SUPPORT. A step serves the host move that stands next on the port (20_memory R47, R52): a command word runs as the
command it decodes to, a write of SRC stores its byte or stops the model by name, and the hardware reset is applied.
-/

namespace Sys2Proof.Machine

variable {s : State} {rest : List HostMove} {a : Nat} {b : Byte}

/-! ### A command word (40_control R90) -/

theorem acceptWord_of_decode {cmd : Cmd} {i : Instr} (h : decode cmd = .ok i) : acceptWord cmd s = exec i s := by
  simp [acceptWord, h]

theorem step_command {cmd : Cmd} {i : Instr} (hp : s.port = .command cmd :: rest) (h : decode cmd = .ok i) :
    step s = exec i { s with port := rest } := by
  rw [step_of_port_cons hp]
  exact acceptWord_of_decode h

theorem tableWord_of_lt {w : Nat} (hw : w < 2 ^ 40) : tableWord 40 w = BitVec.ofNat 40 w := by
  rw [tableWord, Nat.mod_eq_of_lt hw]

/-- Settles O7: a step takes the move off the port, and `withFetchWord` puts its word there. -/
theorem stepRunsCommand : Obligations.StepRunsCommand := by
  unfold Obligations.StepRunsCommand
  refine ⟨fun cmd i rest s hp _ h => step_command hp h, fun w i s hw h => ?_⟩
  have hport : (s.withFetchWord 40 w).port = .command (BitVec.ofNat 40 w) :: s.port := by
    rw [State.withFetchWord, tableWord_of_lt hw, presentNext_port]
  exact step_command hport h

/-! ### A write of SRC (10_state R33) -/

theorem srcByte_write (s : State) (a : Nat) (b : Byte) (c : Nat) :
    srcByte c { s with src := Store.write (α := Byte) s.src a b } = if c = a then b else srcByte c s := by
  by_cases hc : c = a
  · simp [srcByte, hc]
  · simp [srcByte, hc, Store.read_write_other _ _ (Ne.symm hc)]

theorem hostWriteSrc_stores (hq : s.phase = .idle ∨ s.phase = .done) (ha : a < s.params.srcCap.toNat) :
    hostWriteSrc a b s = .next { s with src := Store.write (α := Byte) s.src a b } := by
  rw [hostWriteSrc, if_pos hq, if_pos ha]

theorem hostWriteSrc_inPass (hi : s.phase ≠ .idle) (hd : s.phase ≠ .done) :
    hostWriteSrc a b s = .fault .srcWriteInPass := by
  rw [hostWriteSrc, if_neg (not_or.2 ⟨hi, hd⟩)]

theorem hostWriteSrc_absent (hq : s.phase = .idle ∨ s.phase = .done) (ha : s.params.srcCap.toNat ≤ a) :
    hostWriteSrc a b s = .fault .srcIndexAbsent := by
  rw [hostWriteSrc, if_pos hq, if_neg ha.not_gt]

/-- Settles O8: the host moves one by one, each on the state whose port holds the moves after it. -/
theorem stepServesHost : Obligations.StepServesHost := by
  unfold Obligations.StepServesHost
  refine ⟨fun s hp => step_of_port_nil hp, fun a b rest s hp hq ha => ?_, fun a b rest s hp hi hd => ?_,
    fun a b rest s hp hq ha => ?_, fun rest s hp => ?_⟩ <;> rw [step_of_port_cons hp]
  · exact ⟨_, hostWriteSrc_stores hq ha, rfl, srcByte_write s a b⟩
  · exact hostWriteSrc_inPass hi hd
  · exact hostWriteSrc_absent hq ha
  · exact ⟨_, rfl, hardReset_table _, rfl, rfl⟩

end Sys2Proof.Machine
end

section
/-!
SUPPORT. No command writes SRC (20_memory R44, R46; 10_state R33), from any state and however it ends. The write side
does not look at SRC at all; the read side only reads it.
-/

namespace Sys2Proof.Machine

variable {α β : Type} {s t : State}

/-! ### A piece of pseudocode that leaves SRC -/

/-- A piece of pseudocode run from `s` leaves the bytes the host wrote to SRC, whether it ends or raises a fault. -/
abbrev KeepsSrc (s : State) (x : Res α) : Prop := Res.Post (fun _ t => t.src = s.src) (fun t => t.src = s.src) True x

theorem KeepsSrc.bind {x : Res α} {f : α → State → Res β} (h : KeepsSrc s x) (hf : ∀ a t, KeepsSrc t (f a t)) :
    KeepsSrc s (x.bind f) :=
  Res.Post.bind h (fun a t ht => (hf a t).mono (fun _ _ hu => hu.trans ht) (fun _ hu => hu.trans ht) id)
    (fun _ hr => hr) id

/-- Pseudocode that does the same whatever SRC holds, and leaves it, leaves what it holds now. -/
theorem SrcFree.keepsSrc {f : State → Res α} (hf : SrcFree f) (s : State) : KeepsSrc s (f s) := by
  have h : f s = (f s).mapState (State.withSrc s.src s.srcLen) := hf s.src s.srcLen s
  rw [h]
  cases f s with
  | done a t => rfl
  | raised t => rfl
  | stop r => trivial

theorem Fetched.src (h : Fetched s t) : t.src = s.src := (congrArg (fun u : State => u.src) h.frame :)

theorem Emitted.src (h : Emitted s t) : t.src = s.src := (congrArg (fun u : State => u.src) h.frame :)

theorem ReadPost.keepsSrc {P : α → State → Prop} {x : Res α} (h : ReadPost s P x) : KeepsSrc s x :=
  h.mono (fun _ _ ht => ht.1.src) (fun _ ⟨_, hu, ht⟩ => ht ▸ hu.src) False.elim

theorem keepsSrc_of_emitted {x : Res α} (h : Res.Post (fun _ t => Emitted s t) (OutOverflow s) False x) :
    KeepsSrc s x :=
  h.mono (fun _ _ ht => ht.src) (fun _ ⟨_, hu, ht⟩ => ht ▸ hu.src) False.elim

theorem emitString_keepsSrc (str : Str) (s : State) : KeepsSrc s (emitString str s) :=
  keepsSrc_of_emitted (emitString_post str s)

theorem boundary_keepsSrc (s : State) : KeepsSrc s (outAppend boundaryToken s) :=
  keepsSrc_of_emitted (outAppend_post _ s (by decide))

theorem dictGet_keepsSrc (c : Nat) (s : State) : KeepsSrc s (dictGet c s) := by
  unfold dictGet
  split
  · rfl
  · trivial

theorem firstByte_keepsSrc (e : Str) (s : State) : KeepsSrc s (firstByte e s) := by
  cases e with
  | nil => trivial
  | cons b rest => rfl

theorem decPolicy_src (e : Str) (s : State) : (decPolicy e s).2.src = s.src := by rw [decPolicy_frame]

/-! ### The decompress commands -/

theorem hdrrdBody_keepsSrc (s : State) : KeepsSrc s (hdrrdBody s) :=
  (rdHdr_frame s).keepsSrc.bind fun b t => by
    cases b with
    | none => rfl
    | some b => rfl

theorem dstepPrime_keepsSrc (s : State) : KeepsSrc s (dstepPrime s) := by
  refine (rdCode_frame s.w s).keepsSrc.bind fun c t => ?_
  cases c with
  | none => rfl
  | some c =>
    simp only
    split
    · exact boundary_keepsSrc t
    · split
      · rfl
      · rfl

theorem completingByte_keepsSrc (n : Nat) (current : Str) (s : State) : KeepsSrc s (completingByte n current s) := by
  unfold completingByte
  split
  · exact (dictGet_keepsSrc n s).bind firstByte_keepsSrc
  · split
    · exact firstByte_keepsSrc current s
    · rfl

theorem nextString_keepsSrc (n : Nat) (e : Str) (s : State) : KeepsSrc s (nextString n e s) := by
  unfold nextString
  split
  · exact dictGet_keepsSrc n s
  · rfl

theorem dstepArm_keepsSrc (n : Nat) (nxt : Str) (arm : PolicyArm) (s : State) : KeepsSrc s (dstepArm n nxt arm s) := by
  cases arm with
  | inserted => rfl
  | grown => rfl
  | reset => exact (emitString_keepsSrc nxt s).bind fun _ _ => rfl

theorem dstepData_keepsSrc (n : Nat) (s : State) : KeepsSrc s (dstepData n s) :=
  (dictGet_keepsSrc s.cur s).bind fun current t =>
    (emitString_keepsSrc current t).bind fun _ u =>
      (completingByte_keepsSrc n current u).bind fun b v =>
        (nextString_keepsSrc n (current ++ [b]) v).bind fun nxt x => by
          have h := dstepArm_keepsSrc n nxt (decPolicy (current ++ [b]) x).1 (decPolicy (current ++ [b]) x).2
          rwa [KeepsSrc, decPolicy_src] at h

theorem dstepSentinel_keepsSrc (s : State) : KeepsSrc s (dstepSentinel s) :=
  (dictGet_keepsSrc s.cur s).bind fun current t =>
    (emitString_keepsSrc current t).bind fun _ u => (boundary_keepsSrc u).bind fun _ _ => rfl

theorem dstepRun_keepsSrc (s : State) : KeepsSrc s (dstepRun s) := by
  refine (rdCode_frame s.w s).keepsSrc.bind fun n t => ?_
  cases n with
  | none => rfl
  | some n =>
    simp only
    split
    · exact dstepSentinel_keepsSrc t
    · exact dstepData_keepsSrc n t

theorem dstepBody_keepsSrc (s : State) : KeepsSrc s (dstepBody s) := by
  unfold dstepBody
  split
  · exact dstepPrime_keepsSrc { s with phase := .dBody }
  · exact dstepRun_keepsSrc { s with phase := .dBody }

/-! ### Every command -/

theorem commandBody_keepsSrc (i : Instr) (s : State) : KeepsSrc s (commandBody i s) := by
  cases i with
  | nop => rfl
  | setcfg opd =>
    refine (setcfgBody_cases opd s).mono (fun _ t ht => ?_) (fun _ ht => ht ▸ rfl) False.elim
    obtain ⟨c, _, rfl⟩ := ht
    rfl
  | setkey k => rfl
  | setsrclen n => exact (setsrclenBody_cases n s).mono (fun _ _ ht => ht ▸ rfl) (fun _ ht => ht ▸ rfl) False.elim
  | beginOp => rfl
  | srst => rfl
  | hdrb b => exact SrcFree.keepsSrc (wrHdr_srcFree b) s
  | sym c => exact SrcFree.keepsSrc (symBody_srcFree c) s
  | eofile => exact SrcFree.keepsSrc eofileBody_srcFree s
  | finish => exact SrcFree.keepsSrc finishBody_srcFree s
  | hdrrd => exact hdrrdBody_keepsSrc s
  | dstep => exact dstepBody_keepsSrc s

theorem exec_src {i : Instr} (h : exec i s = .next t) : t.src = s.src := by
  rcases exec_cases h (fun _ => commandBody_keepsSrc i s) with ⟨_, _, rfl⟩ | ⟨_, _, rfl⟩ | ⟨_, rfl⟩ | ⟨_, _, k⟩
  · rfl
  · rfl
  · rfl
  · exact k.elim id id

/-- Settles O28: no command writes SRC or the model's own fields, and these are all that a read of SRC looks at. -/
theorem srcNeverWritten : Obligations.SrcNeverWritten := by
  unfold Obligations.SrcNeverWritten
  intro i s t h
  have own := exec_own h
  exact ⟨srcByte_congr (exec_src h) own.srcEpoch, own.params, own.port⟩

end Sys2Proof.Machine
end

section
/-!
SUPPORT. The decoder reads each command back from the word that the encoder writes, and decodes no other word
(30_encoding R60 to R62): a word decodes to `i` exactly if its fields are the opcode and the operand of `i` and the
reserved bits of `i` are 0.
-/

namespace Sys2Proof

variable {opc : Byte} {opd : Word} {i j : Instr}

/-! ### The operand forms (30_encoding R61) -/

theorem formNone_eq_ok : formNone opc opd i = .ok j ↔ opd = 0 ∧ i = j := by
  unfold formNone
  split <;> simp_all

theorem formImm8_eq_ok {f : Byte → Instr} :
    formImm8 opc opd f = .ok j ↔ opd.extractLsb' 8 24 = 0 ∧ f (opd.extractLsb' 0 8) = j := by
  unfold formImm8
  split <;> simp_all

theorem formImm32_eq_ok {f : Word → Instr} : formImm32 opd f = .ok j ↔ f opd = j := by
  simp [formImm32]

theorem formCfg_eq_ok {f : Word → Instr} :
    formCfg opc opd f = .ok j ↔ cfgHighReservedClear opd = true ∧ cfgLowReservedClear opd = true ∧ f opd = j := by
  unfold formCfg
  split <;> simp_all

theorem cfgHighReservedClear_iff : cfgHighReservedClear opd = true ↔ opd.extractLsb' 13 19 = 0 := by
  simp [cfgHighReservedClear]

theorem cfgLowReservedClear_iff : cfgLowReservedClear opd = true ↔ opd.extractLsb' 5 3 = 0 := by
  simp [cfgLowReservedClear]

/-! ### Decoding and encoding are inverse -/

/-- The two fields `opc` and `opd` are those of the command `i`, and no reserved bit of it is set. -/
structure FieldsOf (i : Instr) (opc : Byte) (opd : Word) : Prop where
  wf : i.wf = true
  opc : opc = i.opc
  opd : opd = i.opd

theorem fieldsOf_of_formNone (ho : opc.toNat = i.opc.toNat) (hwf : i.wf = true) (hz : i.opd = 0)
    (h : formNone opc opd i = .ok j) : FieldsOf j opc opd := by
  obtain ⟨rfl, rfl⟩ := formNone_eq_ok.1 h
  exact ⟨hwf, BitVec.eq_of_toNat_eq ho, hz.symm⟩

theorem fieldsOf_of_formImm8 {f : Byte → Instr} (ho : ∀ b, opc.toNat = (f b).opc.toNat) (hwf : ∀ b, (f b).wf = true)
    (hb : ∀ b, (f b).opd = b.zeroExtend 32) (h : formImm8 opc opd f = .ok j) : FieldsOf j opc opd := by
  obtain ⟨hz, rfl⟩ := formImm8_eq_ok.1 h
  exact ⟨hwf _, BitVec.eq_of_toNat_eq (ho _), by rw [hb, byte_zext opd hz]⟩

theorem fieldsOf_of_formImm32 {f : Word → Instr} (ho : opc.toNat = (f opd).opc.toNat) (hwf : (f opd).wf = true)
    (hv : (f opd).opd = opd) (h : formImm32 opd f = .ok j) : FieldsOf j opc opd := by
  obtain rfl := formImm32_eq_ok.1 h
  exact ⟨hwf, BitVec.eq_of_toNat_eq ho, hv.symm⟩

theorem fieldsOf_of_formCfg (ho : opc.toNat = 0x01) (h : formCfg opc opd .setcfg = .ok j) : FieldsOf j opc opd := by
  obtain ⟨hhigh, hlow, rfl⟩ := formCfg_eq_ok.1 h
  exact ⟨by simp [Instr.wf, hhigh, hlow], BitVec.eq_of_toNat_eq ho, rfl⟩

/-- The decoder drops no bit and accepts no reserved bit: one case per row of the opcode map. -/
theorem fieldsOf_of_decodeFields (h : decodeFields opc opd = .ok i) : FieldsOf i opc opd := by
  unfold decodeFields at h
  split at h <;> rename_i ho
  · exact fieldsOf_of_formNone (i := .nop) ho rfl rfl h
  · exact fieldsOf_of_formCfg ho h
  · exact fieldsOf_of_formImm32 (f := .setkey) ho rfl rfl h
  · exact fieldsOf_of_formImm32 (f := .setsrclen) ho rfl rfl h
  · exact fieldsOf_of_formNone (i := .beginOp) ho rfl rfl h
  · exact fieldsOf_of_formNone (i := .srst) ho rfl rfl h
  · exact fieldsOf_of_formImm8 (f := .hdrb) (fun _ => ho) (fun _ => rfl) (fun _ => rfl) h
  · exact fieldsOf_of_formImm8 (f := .sym) (fun _ => ho) (fun _ => rfl) (fun _ => rfl) h
  · exact fieldsOf_of_formNone (i := .eofile) ho rfl rfl h
  · exact fieldsOf_of_formNone (i := .finish) ho rfl rfl h
  · exact fieldsOf_of_formNone (i := .hdrrd) ho rfl rfl h
  · exact fieldsOf_of_formNone (i := .dstep) ho rfl rfl h
  · cases h

/-- The row of a command's opcode reads its operand back. -/
theorem decodeFields_fields (hwf : i.wf = true) : decodeFields i.opc i.opd = .ok i := by
  cases i with
  | setcfg opd =>
    simp only [Instr.wf, Bool.and_eq_true] at hwf
    exact formCfg_eq_ok.2 ⟨hwf.1, hwf.2, rfl⟩
  | setkey k => exact formImm32_eq_ok.2 rfl
  | setsrclen n => exact formImm32_eq_ok.2 rfl
  | hdrb b => exact formImm8_eq_ok.2 ⟨byte_high b, congrArg Instr.hdrb (byte_low b)⟩
  | sym b => exact formImm8_eq_ok.2 ⟨byte_high b, congrArg Instr.sym (byte_low b)⟩
  | _ => exact formNone_eq_ok.2 ⟨rfl, rfl⟩

theorem decode_eq_ok_iff {cmd : Cmd} : decode cmd = .ok i ↔ FieldsOf i (opcOf cmd) (opdOf cmd) := by
  refine ⟨fieldsOf_of_decodeFields, fun h => ?_⟩
  rw [decode, h.opc, h.opd, decodeFields_fields h.wf]

theorem fieldsOf_encode (hwf : i.wf = true) : FieldsOf i (opcOf (encode i)) (opdOf (encode i)) :=
  ⟨hwf, opcOf_append _ _, opdOf_append _ _⟩

/-- Settles O1: the fields of an encoded word are those of its command. -/
theorem decodeEncode : Obligations.DecodeEncode := by
  unfold Obligations.DecodeEncode
  exact fun i hwf => decode_eq_ok_iff.2 (fieldsOf_encode hwf)

/-- Settles O2: a word is its two fields, and these are the command's. -/
theorem encodeDecode : Obligations.EncodeDecode := by
  unfold Obligations.EncodeDecode
  intro cmd i h
  have hf := decode_eq_ok_iff.1 h
  exact ⟨hf.wf, by rw [encode, ← hf.opc, ← hf.opd, fields_append]⟩

/-- Settles O4: twelve words are the encodings of well-formed commands, and two are rejected. -/
theorem specWords : Obligations.SpecWords := by
  unfold Obligations.SpecWords
  exact ⟨decodeEncode .nop rfl, decodeEncode (.setcfg 0x00000C16) rfl, decodeEncode (.setkey 0x00C0FFEE) rfl,
    decodeEncode (.setsrclen 16) rfl, decodeEncode .beginOp rfl, decodeEncode .srst rfl, decodeEncode (.hdrb 0x0A) rfl,
    decodeEncode (.sym 0x41) rfl, decodeEncode .eofile rfl, decodeEncode .finish rfl, decodeEncode .hdrrd rfl,
    decodeEncode .dstep rfl, rfl, rfl⟩

end Sys2Proof
end

section
/-!
SUPPORT. The rows of the opcode map (30_encoding R62): the mask of a row is the opcode field and the operand bits that
the command's form reserves, so a word selects the row exactly if it has the opcode and these bits are 0.
-/

namespace Sys2Proof

variable {opd : Word} {cmd : Cmd} {i : Instr} {r : Cmd × Cmd}

/-! ### Masks of operand fields -/

/-- The mask of the `len` operand bits from bit `start` on. -/
def fieldMask (start len : Nat) : Word := (BitVec.allOnes len).zeroExtend 32 <<< start

theorem getLsbD_fieldMask {start len k : Nat} (h : start + len ≤ 32) :
    (fieldMask start len).getLsbD k = decide (start ≤ k ∧ k < start + len) := by
  simp only [fieldMask, BitVec.getLsbD_shiftLeft, BitVec.getLsbD_setWidth, BitVec.getLsbD_allOnes,
    BitVec.truncate_eq_setWidth]
  rw [Bool.eq_iff_iff]
  simp only [Bool.and_eq_true, Bool.not_eq_true', decide_eq_true_eq, decide_eq_false_iff_not]
  omega

theorem and_fieldMask_eq_zero_iff {start len : Nat} (h : start + len ≤ 32) :
    opd &&& fieldMask start len = 0 ↔ opd.extractLsb' start len = 0 := by
  constructor
  · intro hz
    refine BitVec.eq_of_getLsbD_eq fun k hk => ?_
    have hbit := congrArg (·.getLsbD (start + k)) hz
    simpa [getLsbD_fieldMask h, hk] using hbit
  · intro hz
    refine BitVec.eq_of_getLsbD_eq fun k _ => ?_
    by_cases hk : start ≤ k ∧ k < start + len
    · have hbit := congrArg (·.getLsbD (k - start)) hz
      have hin : k - start < len := by omega
      have hclear : opd.getLsbD k = false := by simpa [hin, Nat.add_sub_cancel' hk.1] using hbit
      rw [BitVec.getLsbD_and, hclear, Bool.false_and, BitVec.ofNat_eq_ofNat, BitVec.getLsbD_zero]
    · simp [getLsbD_fieldMask h, hk]

/-- The operand bits that the form of a command reserves (30_encoding R61). -/
def Instr.reservedMask : Instr → Word
  | .setcfg _ => fieldMask 13 19 ||| fieldMask 5 3
  | .setkey _ => 0
  | .setsrclen _ => 0
  | .hdrb _ => fieldMask 8 24
  | .sym _ => fieldMask 8 24
  | _ => fieldMask 0 32

theorem and_wordMask_eq_zero_iff : opd &&& fieldMask 0 32 = 0 ↔ opd = 0 := by
  rw [and_fieldMask_eq_zero_iff (by decide), BitVec.extractLsb'_eq_self]

theorem and_byteMask_eq_zero_iff : opd &&& fieldMask 8 24 = 0 ↔ opd.extractLsb' 8 24 = 0 :=
  and_fieldMask_eq_zero_iff (by decide)

theorem and_cfgMask_eq_zero_iff :
    opd &&& (fieldMask 13 19 ||| fieldMask 5 3) = 0 ↔ (Instr.setcfg opd).wf = true := by
  rw [Instr.wf, Bool.and_eq_true, cfgHighReservedClear_iff, cfgLowReservedClear_iff,
    ← and_fieldMask_eq_zero_iff (by decide), ← and_fieldMask_eq_zero_iff (by decide), BitVec.and_or_distrib_left]
  exact BitVec.or_eq_zero_iff

/-- A well-formed command has no reserved bit set. -/
theorem opd_and_reservedMask (hwf : i.wf = true) : i.opd &&& i.reservedMask = 0 := by
  cases i with
  | setcfg opd => exact and_cfgMask_eq_zero_iff.2 hwf
  | setkey k => exact BitVec.and_zero
  | setsrclen n => exact BitVec.and_zero
  | hdrb b => exact and_byteMask_eq_zero_iff.2 (byte_high b)
  | sym b => exact and_byteMask_eq_zero_iff.2 (byte_high b)
  | _ => exact BitVec.zero_and

/-- An operand without reserved bits of the row of `i` is the operand of a well-formed command of that row. -/
theorem exists_wf_of_reservedMask (h : opd &&& i.reservedMask = 0) :
    ∃ j : Instr, j.wf = true ∧ j.opc = i.opc ∧ j.opd = opd := by
  cases i with
  | setcfg _ => exact ⟨.setcfg opd, and_cfgMask_eq_zero_iff.1 h, rfl, rfl⟩
  | setkey _ => exact ⟨.setkey opd, rfl, rfl, rfl⟩
  | setsrclen _ => exact ⟨.setsrclen opd, rfl, rfl, rfl⟩
  | hdrb _ => exact ⟨.hdrb (opd.extractLsb' 0 8), rfl, rfl, byte_zext opd (and_byteMask_eq_zero_iff.1 h)⟩
  | sym _ => exact ⟨.sym (opd.extractLsb' 0 8), rfl, rfl, byte_zext opd (and_byteMask_eq_zero_iff.1 h)⟩
  | _ =>
    refine ⟨_, ?_, rfl, (and_wordMask_eq_zero_iff.1 h).symm⟩
    rfl

/-! ### Selecting a row -/

theorem row_eq (i : Instr) : i.row = ((0xFF : Byte) ++ i.reservedMask, i.opc ++ (0 : Word)) := by
  cases i <;> simp only [Instr.row, Instr.reservedMask, Instr.opc] <;> decide

theorem append_fields_inj {opc opc' : Byte} {opd opd' : Word} :
    opc ++ opd = opc' ++ opd' ↔ opc = opc' ∧ opd = opd' := by
  refine ⟨fun h => ⟨?_, ?_⟩, fun ⟨ho, hd⟩ => ho ▸ hd ▸ rfl⟩
  · rw [← opcOf_append opc opd, h, opcOf_append]
  · rw [← opdOf_append opc opd, h, opdOf_append]

theorem selects_row_iff : selects cmd i.row ↔ opcOf cmd = i.opc ∧ opdOf cmd &&& i.reservedMask = 0 := by
  have hopc : opcOf cmd &&& 0xFF = opcOf cmd := BitVec.and_allOnes
  rw [selects, row_eq, ← append_fields_inj]
  nth_rw 1 [← fields_append cmd]
  rw [BitVec.and_append, hopc]

theorem selects_row_of_decode (h : decode cmd = .ok i) : selects cmd i.row := by
  have hf := decode_eq_ok_iff.1 h
  exact selects_row_iff.2 ⟨hf.opc, hf.opd ▸ opd_and_reservedMask hf.wf⟩

theorem decode_of_selects_row (h : selects cmd i.row) : ∃ j, decode cmd = .ok j := by
  obtain ⟨ho, hz⟩ := selects_row_iff.1 h
  obtain ⟨j, hwf, hj, hd⟩ := exists_wf_of_reservedMask hz
  exact ⟨j, decode_eq_ok_iff.2 ⟨hwf, ho.trans hj.symm, hd.symm⟩⟩

theorem row_mem_opcodeRows (i : Instr) : i.row ∈ opcodeRows := by
  cases i <;> simp [opcodeRows, Instr.row]

theorem exists_row_of_mem (h : r ∈ opcodeRows) : ∃ i : Instr, i.row = r := by
  simp only [opcodeRows, List.mem_cons, List.not_mem_nil, or_false] at h
  rcases h with h | h | h | h | h | h | h | h | h | h | h | h <;> exact ⟨_, h.symm⟩

/-- The `match` column of a selected row is the word's own opcode. -/
theorem match_of_selects (hr : r ∈ opcodeRows) (h : selects cmd r) : r.2 = opcOf cmd ++ (0 : Word) := by
  obtain ⟨i, rfl⟩ := exists_row_of_mem hr
  rw [(selects_row_iff.1 h).1, row_eq]

/-- No two rows have the same `match` column. -/
theorem opcodeRows_match_nodup : (opcodeRows.map Prod.snd).Nodup := by decide

/-- Settles O3: a word's opcode is the `match` column of the only row it can select. -/
theorem opcodeTable : Obligations.OpcodeTable := by
  unfold Obligations.OpcodeTable
  refine ⟨rfl, row_mem_opcodeRows, fun cmd => ⟨?_, ?_⟩, fun cmd i h => selects_row_of_decode h,
    fun cmd r hr r' hr' h h' => ?_⟩
  · rintro ⟨i, h⟩
    exact ⟨i.row, row_mem_opcodeRows i, selects_row_of_decode h⟩
  · rintro ⟨r, hr, h⟩
    obtain ⟨i, rfl⟩ := exists_row_of_mem hr
    exact decode_of_selects_row h
  · have hmatch : r.2 = r'.2 := (match_of_selects hr h).trans (match_of_selects hr' h').symm
    exact List.inj_on_of_nodup_map opcodeRows_match_nodup hr hr' hmatch

end Sys2Proof
end

section
/-!
SUPPORT. The illegal words (30_encoding R63): which operand form each opcode has, what the decoder rejects, and what the
acceptance sequence does with a rejected word and with an operand value that its command refuses.
-/

namespace Sys2Proof

variable {cmd : Cmd} {r : Reject}

/-! ### Which words the decoder rejects -/

section

variable {opc : Byte} {opd : Word} {i : Instr}

theorem formNone_rejects : (∀ j, formNone opc opd i ≠ .ok j) ↔ opd ≠ 0 := by
  simp [formNone_eq_ok]

theorem formImm8_rejects {f : Byte → Instr} :
    (∀ j, formImm8 opc opd f ≠ .ok j) ↔ opd.extractLsb' 8 24 ≠ 0 := by
  simp [formImm8_eq_ok]

theorem formImm32_accepts {f : Word → Instr} : (∀ j, formImm32 opd f ≠ .ok j) ↔ False := by
  simp [formImm32_eq_ok]

theorem formCfg_rejects {f : Word → Instr} :
    (∀ j, formCfg opc opd f ≠ .ok j) ↔ opd.extractLsb' 13 19 ≠ 0 ∨ opd.extractLsb' 5 3 ≠ 0 := by
  have accepts : (∃ j, formCfg opc opd f = .ok j) ↔ opd.extractLsb' 13 19 = 0 ∧ opd.extractLsb' 5 3 = 0 := by
    simp [formCfg_eq_ok, cfgHighReservedClear_iff, cfgLowReservedClear_iff]
  rw [← not_and_or, ← accepts, not_exists]

end

/-- Which of the four operand forms the decoder gives to an opcode (30_encoding R61, R62). -/
theorem decodeFields_form (opc : Byte) (opd : Word) :
    (opc.toNat ∈ [0, 4, 5, 0x12, 0x13, 0x20, 0x21] ∧ ∃ i, decodeFields opc opd = formNone opc opd i) ∨
    (opc.toNat ∈ [0x10, 0x11] ∧ ∃ f, decodeFields opc opd = formImm8 opc opd f) ∨
    (opc.toNat ∈ [2, 3] ∧ ∃ f, decodeFields opc opd = formImm32 opd f) ∨
    (opc.toNat = 1 ∧ decodeFields opc opd = formCfg opc opd .setcfg) ∨
    (opc.toNat ∉ [0, 1, 2, 3, 4, 5, 0x10, 0x11, 0x12, 0x13, 0x20, 0x21] ∧
      decodeFields opc opd = .error (.unknownOpcode opc)) := by
  unfold decodeFields
  split <;> simp_all

/-- The words that match no row: the opcode is not listed, or it is and a bit that its form reserves is set. -/
theorem not_decode_iff (cmd : Cmd) : (∀ i, decode cmd ≠ .ok i) ↔
    ((opcOf cmd).toNat ∉ [0, 1, 2, 3, 4, 5, 0x10, 0x11, 0x12, 0x13, 0x20, 0x21] ∨
      ((opcOf cmd).toNat ∈ [0, 4, 5, 0x12, 0x13, 0x20, 0x21] ∧ opdOf cmd ≠ 0) ∨
      ((opcOf cmd).toNat ∈ [0x10, 0x11] ∧ (opdOf cmd).extractLsb' 8 24 ≠ 0) ∨
      ((opcOf cmd).toNat = 1 ∧ ((opdOf cmd).extractLsb' 13 19 ≠ 0 ∨ (opdOf cmd).extractLsb' 5 3 ≠ 0))) := by
  unfold decode
  generalize opcOf cmd = opc
  generalize opdOf cmd = opd
  rcases decodeFields_form opc opd with ⟨ho, i, hd⟩ | ⟨ho, f, hd⟩ | ⟨ho, f, hd⟩ | ⟨ho, hd⟩ | ⟨ho, hd⟩ <;> rw [hd]
  · simp only [List.mem_cons, List.not_mem_nil, or_false] at ho
    rw [formNone_rejects]
    rcases ho with h | h | h | h | h | h | h <;> simp [h]
  · simp only [List.mem_cons, List.not_mem_nil, or_false] at ho
    rw [formImm8_rejects]
    rcases ho with h | h <;> simp [h]
  · simp only [List.mem_cons, List.not_mem_nil, or_false] at ho
    rw [formImm32_accepts]
    rcases ho with h | h <;> simp [h]
  · rw [formCfg_rejects]
    simp [ho]
  · simp [ho]

/-- What a rejected word is rejected with is its own opcode. -/
theorem rejectOpc_of_decode (h : decode cmd = .error r) : Machine.rejectOpc r = opcOf cmd := by
  unfold decode at h
  rcases decodeFields_form (opcOf cmd) (opdOf cmd) with ⟨_, i, hd⟩ | ⟨_, f, hd⟩ | ⟨_, f, hd⟩ | ⟨_, hd⟩ | ⟨_, hd⟩ <;>
    rw [hd] at h
  · unfold formNone at h
    split at h <;> cases h
    rfl
  · unfold formImm8 at h
    split at h <;> cases h
    rfl
  · cases h
  · unfold formCfg at h
    split at h <;> cases h
    rfl
  · cases h
    rfl

end Sys2Proof

namespace Sys2Proof.Machine

variable {cmd : Cmd} {opc : Byte} {opd : Word} {i : Instr} {s : State}

/-! ### What the acceptance sequence does with them (40_control R90) -/

theorem acceptIllegal_err (h : s.phase = .err) : acceptIllegal opc s = s := if_pos h

theorem acceptIllegal_raises (h : s.phase ≠ .err) : acceptIllegal opc s = raise .illcmd (opc.zeroExtend 32) s :=
  if_neg h

theorem acceptWord_of_rejected (h : ∀ i, decode cmd ≠ .ok i) :
    acceptWord cmd s = .next (acceptIllegal (opcOf cmd) s) := by
  cases hd : decode cmd with
  | ok i => exact absurd hd (h i)
  | error r => simp [acceptWord, hd, rejectOpc_of_decode hd]

theorem acceptWord_encode (hwf : i.wf = true) : acceptWord (encode i) s = exec i s :=
  acceptWord_of_decode (decodeEncode i hwf)

theorem imageText_eq_none_iff : imageText opd = none ↔ (opd.extractLsb' 2 2).toNat = 3 := by
  have hlt := (opd.extractLsb' 2 2).isLt
  unfold imageText
  split <;> simp_all
  omega

theorem fixwLegal_iff {f : BitVec 5} : fixwLegal f = true ↔ 9 ≤ f.toNat ∧ f.toNat ≤ 16 := by
  simp [fixwLegal]

theorem cfgOfImage_eq_none (h : (opd.extractLsb' 2 2).toNat = 3 ∨ (opd.extractLsb' 8 5).toNat < 9 ∨
    16 < (opd.extractLsb' 8 5).toNat) : cfgOfImage opd = none := by
  unfold cfgOfImage
  rcases h with h | h
  · simp [imageText_eq_none_iff.2 h]
  · have hf : ¬ fixwLegal (imageFixw opd) = true := by
      rw [fixwLegal_iff, imageFixw]
      omega
    split
    · rfl
    · exact if_neg hf

theorem setcfgBody_raises (h : cfgOfImage opd = none) : setcfgBody opd s = .raised (raise .cfg opd s) := by
  simp [setcfgBody, h]

theorem setsrclenBody_raises {n : Word} (h : s.params.srcCap.toNat < n.toNat) :
    setsrclenBody n s = .raised (raise .cfg n s) := if_pos h

/-- Settles O5: what the decoder rejects, and the two operand values that SETCFG and SETSRCLEN refuse. -/
theorem illegalWords : Obligations.IllegalWords := by
  unfold Obligations.IllegalWords
  refine ⟨not_decode_iff, fun cmd s h hp => ?_, fun cmd s h hp => ?_, fun opd s hp hwf h => ?_, fun opd s hp h => ?_⟩
  · rw [acceptWord_of_rejected h, acceptIllegal_raises hp]
    rfl
  · rw [acceptWord_of_rejected h, acceptIllegal_err hp]
  · rw [acceptWord_encode hwf, exec_legal (quiet_iff.2 hp), commandBody, setcfgBody_raises (cfgOfImage_eq_none h)]
    rfl
  · rw [acceptWord_encode rfl, exec_legal (quiet_iff.2 hp), commandBody, setsrclenBody_raises h]
    rfl

end Sys2Proof.Machine
end

section
/-!
SUPPORT. The control commands (40_control R90 to R96): the acceptance sequence, the rules of NOP, SETCFG, SETKEY,
SETSRCLEN, BEGIN and SRST, and what these commands leave unchanged.
-/

namespace Sys2Proof.Machine

variable {s t : State} {i : Instr} {cmd : Cmd}

/-! ### The acceptance sequence (40_control R90) -/

/-- The opcode field of a word that decodes is its command's. -/
theorem opcOf_of_decode (h : decode cmd = .ok i) : opcOf cmd = i.opc := (decode_eq_ok_iff.1 h).opc

theorem acceptWord_illcmd (hp : s.phase ≠ .err) (h : ∀ i, decode cmd ≠ .ok i) :
    acceptWord cmd s = .next (raise .illcmd ((opcOf cmd).zeroExtend 32) s) := by
  rw [acceptWord_of_rejected h, acceptIllegal_raises hp]

theorem acceptWord_seq (hp : s.phase ≠ .err) (h : decode cmd = .ok i) (hl : s.phase ∉ legalPhases i) :
    acceptWord cmd s = .next (raise .seq ((opcOf cmd).zeroExtend 32) s) := by
  rw [acceptWord_of_decode h, exec_illegal hp hl, opcOf_of_decode h]

theorem acceptWord_discards (hp : s.phase = .err) (h : decode cmd ≠ .ok .srst) : acceptWord cmd s = .next s := by
  cases hd : decode cmd with
  | ok i =>
    rw [acceptWord_of_decode hd]
    exact exec_err (fun hi => h (hi ▸ hd)) hp
  | error r =>
    rw [acceptWord_of_rejected (by simp [hd]), acceptIllegal_err hp]

/-- Settles O6: the word is looked at in ERR, as a rejected word, in a phase its command is not legal in, and in one it
is. -/
theorem acceptanceSequence : Obligations.AcceptanceSequence := by
  unfold Obligations.AcceptanceSequence
  exact fun cmd s => ⟨fun _ hd => acceptWord_of_decode hd, acceptWord_discards, acceptWord_illcmd,
    fun hp _ => acceptWord_seq hp, fun _ _ hd _ => acceptWord_of_decode hd⟩

theorem illcmdFault_of_opcode (op : Byte) : illcmdFault op := by
  rintro cmd s rfl h hp
  exact acceptWord_illcmd hp h

/-- The commands with opcodes 1 to 4 set up an operation: they are legal outside a pass only (40_control R97). -/
theorem legalPhases_of_setup (h : i.opc ∈ [0x01, 0x02, 0x03, 0x04]) : legalPhases i = [.idle, .done] := by
  cases i <;> simp_all [Instr.opc, legalPhases]

theorem seqFault_of_setup {op : Byte} (hop : op ∈ [0x01, 0x02, 0x03, 0x04]) : seqFault op [.idle, .done] := by
  rintro i s rfl hp hl
  exact exec_illegal hp (by rwa [legalPhases_of_setup hop])

/-! ### The rules of the control commands -/

theorem exec_nop (s : State) : exec .nop s = .next s := by
  by_cases hp : s.phase = .err
  · exact exec_err (by simp) hp
  · rw [exec_legal (i := .nop) (by cases h : s.phase <;> simp_all [legalPhases])]
    rfl

/-- Settles O9: NOP is legal in every phase but ERR, where it is discarded, and its pseudocode is empty. -/
theorem nopRule : Obligations.NopRule := by
  unfold Obligations.NopRule
  exact ⟨by decide, exec_nop, illcmdFault_of_opcode _⟩

/-- An image with legal TEXT and FIXW is the image of a configuration (40_control R92). -/
theorem exists_cfgOfImage {opd : Word} (htext : (opd.extractLsb' 2 2).toNat ≠ 3)
    (hfixw : 9 ≤ (opd.extractLsb' 8 5).toNat ∧ (opd.extractLsb' 8 5).toNat ≤ 16) : ∃ c, cfgOfImage opd = some c := by
  obtain ⟨m, hm⟩ := Option.ne_none_iff_exists'.1 (mt imageText_eq_none_iff.1 htext)
  simp only [cfgOfImage, hm]
  exact ⟨_, if_pos (fixwLegal_iff.2 hfixw)⟩

theorem setcfgBody_done {opd : Word} {c : Cfg} (h : cfgOfImage opd = some c) :
    setcfgBody opd s = .done () { s with cfg := c } := by
  simp [setcfgBody, h]

theorem setsrclenBody_done {n : Word} (h : n.toNat ≤ s.params.srcCap.toNat) :
    setsrclenBody n s = .done () { s with srcLen := n.toNat } := if_neg h.not_gt

/-- Settles O10: a legal image is that of the configuration SETCFG stores; an illegal one stands for none. -/
theorem setcfgRule : Obligations.SetcfgRule := by
  unfold Obligations.SetcfgRule
  refine ⟨fun opd s hp hwf htext hlo hhi => ?_, fun opd s hp h => ?_, illcmdFault_of_opcode _,
    seqFault_of_setup (by decide)⟩
  · obtain ⟨c, hc⟩ := exists_cfgOfImage htext ⟨hlo, hhi⟩
    refine ⟨c, ?_, cfgImage_of_cfgOfImage hwf hc⟩
    rw [exec_legal (quiet_iff.2 hp), commandBody, setcfgBody_done hc]
    rfl
  · rw [exec_legal (quiet_iff.2 hp), commandBody, setcfgBody_raises (cfgOfImage_eq_none h)]
    rfl

/-- Settles O11: in IDLE and DONE the pseudocode of SETKEY runs, and it stores the key. -/
theorem setkeyRule : Obligations.SetkeyRule := by
  unfold Obligations.SetkeyRule
  exact ⟨fun k s hp => exec_legal (quiet_iff.2 hp), seqFault_of_setup (by decide)⟩

/-- Settles O12: the capacity is the bound of SETSRCLEN's own check. -/
theorem setsrclenRule : Obligations.SetsrclenRule := by
  unfold Obligations.SetsrclenRule
  refine ⟨fun n s hp h => ?_, fun n s hp h => ?_, seqFault_of_setup (by decide)⟩
  · rw [exec_legal (quiet_iff.2 hp), commandBody, setsrclenBody_done h]
    rfl
  · rw [exec_legal (quiet_iff.2 hp), commandBody, setsrclenBody_raises h]
    rfl

theorem beginState_baseline (s : State) : baseline (beginState s) := fun c => by
  rw [← dictRead_restart s c]
  exact dictRead_congr rfl rfl c

theorem beginPhase_eq (d : Dir) : beginPhase d = if d = .compress then .cHdr else .dHdr := by cases d <;> rfl

/-- Settles O13: in IDLE and DONE BEGIN leaves `beginState`, whose elements are those of the rule. -/
theorem beginRule : Obligations.BeginRule := by
  unfold Obligations.BeginRule
  exact ⟨by decide, fun s hp => ⟨beginState s, exec_legal (quiet_iff.2 hp), rfl, rfl, rfl, beginState_baseline s, rfl,
    rfl, rfl, rfl, rfl, rfl, rfl, rfl, rfl, rfl, beginPhase_eq s.cfg.dir, rfl⟩, illcmdFault_of_opcode _,
    seqFault_of_setup (by decide)⟩

/-- A word with the opcode of SRST and an operand bit set matches no row (30_encoding R61, R63). -/
theorem not_decode_of_srst_operand (hop : opcOf cmd = 0x05) (hopd : opdOf cmd ≠ 0) : ∀ i, decode cmd ≠ .ok i :=
  (not_decode_iff cmd).2 (.inr (.inl ⟨by simp [hop], hopd⟩))

/-- Settles O14: SRST leaves `softReset` from every phase, which is the reset table; a malformed word is no SRST. -/
theorem srstRule : Obligations.SrstRule := by
  unfold Obligations.SrstRule
  refine ⟨by decide, fun s => ⟨softReset s, exec_srst s, softReset_table s, rfl, rfl, rfl⟩, illcmdFault_of_opcode _,
    fun cmd s hop hopd hp => ?_⟩
  exact acceptWord_discards hp (not_decode_of_srst_operand hop hopd .srst)

/-! ### What they leave unchanged -/

/-- `t` differs from `s` in PHASE, ERR and ERRINFO at most, as after a fault raised from `s` (60_exceptions R192). -/
def FaultOnly (s t : State) : Prop := ∃ p e info, t = { s with phase := p, err := e, errinfo := info }

theorem FaultOnly.refl (s : State) : FaultOnly s s := ⟨_, _, _, rfl⟩

theorem FaultOnly.raise (c : Cause) (info : Word) (s : State) : FaultOnly s (raise c info s) := ⟨_, _, _, rfl⟩

/-- A command in a phase it is not legal in is discarded, or raises E_SEQ. -/
theorem exec_turned_away (hi : i ≠ .srst) (hl : s.phase ∉ legalPhases i) (h : exec i s = .next t) :
    FaultOnly s t := by
  by_cases hp : s.phase = .err
  · cases (exec_err hi hp).symm.trans h
    exact .refl s
  · cases (exec_illegal hp hl).symm.trans h
    exact .raise _ _ s

/-- A command whose pseudocode, wherever it is legal, ends as `D` says or raises a fault before it has changed
anything. -/
theorem exec_faultOnly_or {D : Unit → State → Prop} {S : Prop} (hi : i ≠ .srst) (h : exec i s = .next t)
    (hb : Res.Post D (FaultOnly s) S (commandBody i s)) : FaultOnly s t ∨ D () t := by
  by_cases hl : s.phase ∈ legalPhases i
  · rw [exec_legal hl] at h
    rcases hb.of_next h with ⟨_, hd⟩ | hf
    · exact .inr hd
    · exact .inl hf
  · exact .inl (exec_turned_away hi hl h)

theorem exec_setcfg_frame {opd : Word} (h : exec (.setcfg opd) s = .next t) :
    FaultOnly s t ∨ ∃ c, t = { s with cfg := c } := by
  have hb : Res.Post (fun _ u => ∃ c, u = { s with cfg := c }) (FaultOnly s) False (commandBody (.setcfg opd) s) :=
    (setcfgBody_cases opd s).mono (fun _ _ ⟨c, _, hu⟩ => ⟨c, hu⟩) (fun _ hu => hu ▸ .raise _ _ s) id
  exact exec_faultOnly_or (by simp) h hb

theorem exec_setkey_frame {k : Word} (h : exec (.setkey k) s = .next t) :
    FaultOnly s t ∨ t = { s with key := k } := by
  have hb : Res.Post (fun _ u => u = { s with key := k }) (FaultOnly s) False (commandBody (.setkey k) s) := rfl
  exact exec_faultOnly_or (by simp) h hb

theorem exec_setsrclen_frame {n : Word} (h : exec (.setsrclen n) s = .next t) :
    FaultOnly s t ∨ t = { s with srcLen := n.toNat } :=
  exec_faultOnly_or (by simp) h
    ((setsrclenBody_cases n s).mono (fun _ _ hu => hu) (fun _ hu => hu ▸ .raise _ _ s) id)

/-- Settles O24: each setter writes its register, or differs from its start by a fault only. -/
theorem frameConfigure : Obligations.FrameConfigure := by
  unfold Obligations.FrameConfigure
  refine fun s t => ⟨fun h => ?_, fun opd h => ?_, fun k h => ?_, fun n h => ?_⟩
  · cases (exec_nop s).symm.trans h
    rfl
  · obtain ⟨p, e, info, rfl⟩ | ⟨c, rfl⟩ := exec_setcfg_frame h <;> rfl
  · obtain ⟨p, e, info, rfl⟩ | rfl := exec_setkey_frame h <;> rfl
  · obtain ⟨p, e, info, rfl⟩ | rfl := exec_setsrclen_frame h <;> rfl

/-- Settles O25: BEGIN is no setter of CFG, KEY or SRC_LEN, and no command writes SRC. -/
theorem frameBeginSrst : Obligations.FrameBeginSrst := by
  unfold Obligations.FrameBeginSrst
  refine fun s t => ⟨fun h => ?_, fun h => ?_⟩ <;> obtain ⟨hsrc, hparams, hport⟩ := srcNeverWritten _ s t h
  · have k := exec_configKept (by simp) h
    exact ⟨k.cfg (by simp), k.key (by simp), k.srcLen (by simp), hparams, hport, hsrc⟩
  · exact ⟨hparams, hport, hsrc⟩

/-- Settles O29: outside IDLE and DONE the setters are turned away, and the other commands keep what they set. -/
theorem configFixedInPass : Obligations.ConfigFixedInPass := by
  unfold Obligations.ConfigFixedInPass
  intro i s t hidle hdone hsrst h
  by_cases hq : legalPhases i = [.idle, .done]
  · have hl : s.phase ∉ legalPhases i := by simp [hq, hidle, hdone]
    obtain ⟨p, e, info, rfl⟩ := exec_turned_away hsrst hl h
    exact ⟨rfl, rfl, rfl⟩
  · have k := exec_configKept hsrst h
    refine ⟨k.cfg ?_, k.key ?_, k.srcLen ?_⟩
    · rintro opd rfl
      exact hq rfl
    · rintro key rfl
      exact hq rfl
    · rintro n rfl
      exact hq rfl

end Sys2Proof.Machine
end

section
/-!
SUPPORT. The phase machine (40_control R97): how each piece of pseudocode leaves PHASE, ERR and ERRINFO, from any state.
A fault leaves phase ERR with a cause; a normal end leaves ERR and ERRINFO, and the phase that the command's row gives.
-/

namespace Sys2Proof.Machine

variable {α β : Type} {s t : State}

/-! ### A piece of pseudocode and PHASE -/

/-- A fault was taken: phase ERR with a cause (60_exceptions R190, R192). -/
def Faulted (t : State) : Prop := t.phase = .err ∧ t.err ≠ 0

theorem Faulted.raise (c : Cause) (info : Word) (s : State) : Faulted (raise c info s) :=
  ⟨rfl, by cases c <;> simp [causeCode]⟩

/-- ERR and ERRINFO are as before: no fault was taken. -/
def NoFault (s t : State) : Prop := t.err = s.err ∧ t.errinfo = s.errinfo

theorem NoFault.trans {u : State} (h : NoFault s t) (k : NoFault t u) : NoFault s u :=
  ⟨k.1.trans h.1, k.2.trans h.2⟩

/-- A piece of pseudocode run from `s` ends without a fault in a state that meets `P`, or faults. -/
abbrev EndsIn (s : State) (P : α → State → Prop) (x : Res α) : Prop :=
  Res.Post (fun a t => NoFault s t ∧ P a t) Faulted True x

/-- A piece of pseudocode run from `s` leaves PHASE, or faults. -/
abbrev KeepsPhase (s : State) (x : Res α) : Prop := EndsIn s (fun _ t => t.phase = s.phase) x

theorem EndsIn.bind {P : α → State → Prop} {Q : β → State → Prop} {x : Res α} {f : α → State → Res β}
    (h : EndsIn s P x) (hf : ∀ a t, P a t → EndsIn t Q (f a t)) : EndsIn s Q (x.bind f) :=
  Res.Post.bind h
    (fun a t ⟨k, ht⟩ => (hf a t ht).mono (fun _ _ ⟨k', hu⟩ => ⟨k.trans k', hu⟩) (fun _ hr => hr) id)
    (fun _ hr => hr) id

theorem EndsIn.mono {P Q : α → State → Prop} {x : Res α} (h : EndsIn s P x) (hPQ : ∀ a t, P a t → Q a t) :
    EndsIn s Q x :=
  Res.Post.mono h (fun a t ⟨k, ht⟩ => ⟨k, hPQ a t ht⟩) (fun _ hr => hr) id

/-- A normal end in a state with the ERR and ERRINFO of the start. -/
theorem EndsIn.done {P : α → State → Prop} {a : α} (he : t.err = s.err) (hi : t.errinfo = s.errinfo) (hP : P a t) :
    EndsIn s P (.done a t) :=
  ⟨⟨he, hi⟩, hP⟩

theorem EndsIn.raised {P : α → State → Prop} (c : Cause) (info : Word) (u : State) :
    EndsIn s P (.raised (raise c info u)) :=
  Faulted.raise c info u

theorem KeepsPhase.bind {x : Res α} {f : α → State → Res β} (h : KeepsPhase s x) (hf : ∀ a t, KeepsPhase t (f a t)) :
    KeepsPhase s (x.bind f) :=
  EndsIn.bind h fun a t ht => (hf a t).mono fun _ _ hu => hu.trans ht

theorem Wrote.noFault (h : Wrote s t) : NoFault s t := by
  rw [h.frame]
  exact ⟨rfl, rfl⟩

theorem Fetched.noFault (h : Fetched s t) : NoFault s t := by
  rw [h.frame]
  exact ⟨rfl, rfl⟩

theorem Emitted.noFault (h : Emitted s t) : NoFault s t := by
  rw [h.frame]
  exact ⟨rfl, rfl⟩

theorem WritePost.keepsPhase {P : State → Prop} {x : Res Unit} (h : WritePost s P x) : KeepsPhase s x :=
  h.mono (fun _ _ ⟨k, _⟩ => ⟨k.noFault, k.phase⟩) (fun _ ⟨u, _, ht⟩ => ht ▸ Faulted.raise _ _ u) False.elim

theorem ReadPost.endsIn {P : α → State → Prop} {x : Res α} (h : ReadPost s P x) :
    EndsIn s (fun a t => t.phase = s.phase ∧ P a t) x :=
  h.mono (fun _ _ ⟨k, hp⟩ => ⟨k.noFault, k.phase, hp⟩) (fun _ ⟨u, _, ht⟩ => ht ▸ Faulted.raise _ _ u) False.elim

theorem keepsPhase_of_emitted {x : Res α} (h : Res.Post (fun _ t => Emitted s t) (OutOverflow s) False x) :
    KeepsPhase s x :=
  h.mono (fun _ _ k => ⟨k.noFault, k.phase⟩) (fun _ ⟨u, _, ht⟩ => ht ▸ Faulted.raise _ _ u) False.elim

theorem emitString_keepsPhase (str : Str) (s : State) : KeepsPhase s (emitString str s) :=
  keepsPhase_of_emitted (emitString_post str s)

theorem boundary_keepsPhase (s : State) : KeepsPhase s (outAppend boundaryToken s) :=
  keepsPhase_of_emitted (outAppend_post _ s (by decide))

theorem KeepsPhase.refl (a : α) (s : State) : KeepsPhase s (.done a s) := .done rfl rfl rfl

theorem dictGet_keepsPhase (c : Nat) (s : State) : KeepsPhase s (dictGet c s) := by
  unfold dictGet
  split
  · exact .refl _ s
  · trivial

theorem firstByte_keepsPhase (e : Str) (s : State) : KeepsPhase s (firstByte e s) := by
  cases e with
  | nil => trivial
  | cons b rest => exact .refl b s

theorem candCode_keepsPhase (s : State) : KeepsPhase s (candCode s) := by
  unfold candCode
  split
  · exact .refl _ s
  · trivial

theorem encPolicy_keepsPhase (e : Option Str) (cand : Str) (s : State) :
    KeepsPhase s (.done () { encPolicy e s with cand := cand }) := by
  rw [encPolicy_frame]
  exact .done rfl rfl rfl

/-! ### The compress commands -/

theorem symMiss_keepsPhase (c : Byte) (s : State) : KeepsPhase s (symMiss c s) :=
  (candCode_keepsPhase s).bind fun code t =>
    (wrCode_post code t.w t).keepsPhase.bind fun _ u => encPolicy_keepsPhase (some (u.cand ++ [c])) [c] u

theorem symBody_endsIn (c : Byte) (s : State) : EndsIn s (fun _ t => t.phase = .cBody) (symBody c s) := by
  unfold symBody
  split
  · exact .done rfl rfl rfl
  · split
    · exact .done rfl rfl rfl
    · exact symMiss_keepsPhase c { s with phase := .cBody }

theorem closeCandidate_keepsPhase (s : State) : KeepsPhase s (closeCandidate s) := by
  unfold closeCandidate
  split
  · exact .refl _ s
  · exact (candCode_keepsPhase s).bind fun code t =>
      (wrCode_post code t.w t).keepsPhase.bind fun _ u => encPolicy_keepsPhase none [] u

theorem eofileBody_endsIn (s : State) : EndsIn s (fun _ t => t.phase = .cBody) (eofileBody s) :=
  (closeCandidate_keepsPhase { s with phase := .cBody }).bind fun _ t => (wrCode_post _ t.w t).keepsPhase

/-- FINISH needs S empty (45_compress R163). -/
theorem finishBody_endsIn (s : State) : EndsIn s (fun _ t => t.phase = .done ∧ s.cand = []) (finishBody s) := by
  unfold finishBody
  by_cases hs : s.cand = []
  · rw [if_neg (not_not.2 hs)]
    exact EndsIn.bind (wrCode_post 0 s.w s).keepsPhase fun _ t _ =>
      EndsIn.bind (finalize_post t).keepsPhase fun _ _ _ => .done rfl rfl ⟨rfl, hs⟩
  · rw [if_pos hs]
    exact .raised _ _ s

/-! ### The decompress commands -/

theorem fillTo_buffered {n : Nat} (rounds : Nat) (h : n ≤ s.rbuf.length) : fillTo n rounds s = .done true s := by
  cases rounds with
  | zero => simp [fillTo, h]
  | succ k => exact if_neg h.not_gt

/-- RBUF already holds the bits asked for, so no group is fetched (41_bitcodestream R112). -/
theorem readBits_buffered {n : Nat} (h : n ≤ s.rbuf.length) :
    readBits n s = .done (some (valMSB (s.rbuf.take n))) { s with rbuf := s.rbuf.drop n } := by
  rw [readBits, fillTo_buffered n h]
  rfl

/-- END means that EOS is set, whatever RBUF holds (41_bitcodestream R112). -/
theorem rdCode_end (w : Nat) (s : State) : ReadPost s (fun c t => c = none → t.eos = true) (rdCode w s) := by
  by_cases h : s.rbuf.length < w + groupSize s.cfg
  · exact (rdCode_post w s h).weaken fun _ _ hp => hp.1
  · have k := Fetched.setRbuf s (s.rbuf.drop w)
    rw [rdCode, readBits_buffered (by omega), Res.bind_done]
    simp only
    split
    · exact ⟨k.trans (Fetched.draw _), by simp⟩
    · exact ⟨k, by simp⟩

theorem hdrrdBody_keepsPhase (s : State) : KeepsPhase s (hdrrdBody s) :=
  (rdHdr_frame s).endsIn.bind fun b t ⟨ht, _⟩ => by
    cases b with
    | none => exact .done rfl rfl ht
    | some b => exact .done rfl rfl ht

/-- How a DSTEP run from `s`, whose phase is D_BODY by then, leaves the phase: in D_BODY, or in DONE with EOS set. -/
def StepPhase (s t : State) : Prop := t.phase = s.phase ∨ (t.phase = .done ∧ t.eos = true)

theorem KeepsPhase.stepPhase {x : Res α} (h : KeepsPhase s x) : EndsIn s (fun _ => StepPhase s) x :=
  EndsIn.mono h fun _ _ ht => .inl ht

/-- A code is read first: at END the pass is done, else what follows keeps the phase (46_decompress R176, R177). -/
theorem rdCode_stepPhase {f : Option Nat → State → Res Unit} (hnone : ∀ t, f none t = .done () { t with phase := .done })
    (hsome : ∀ c t, KeepsPhase t (f (some c) t)) : EndsIn s (fun _ => StepPhase s) ((rdCode s.w s).bind f) :=
  (rdCode_end s.w s).endsIn.bind fun c t ⟨ht, heos⟩ => by
    cases c with
    | none =>
      rw [hnone]
      exact .done rfl rfl (.inr ⟨rfl, heos rfl⟩)
    | some c => exact (hsome c t).mono fun _ _ hu => .inl (hu.trans ht)

theorem dstepPrime_stepPhase (s : State) : EndsIn s (fun _ => StepPhase s) (dstepPrime s) := by
  refine rdCode_stepPhase (fun _ => rfl) fun c t => ?_
  simp only
  split
  · exact boundary_keepsPhase t
  · split
    · exact .raised _ _ t
    · exact .done rfl rfl rfl

theorem completingByte_keepsPhase (n : Nat) (current : Str) (s : State) :
    KeepsPhase s (completingByte n current s) := by
  unfold completingByte
  split
  · exact (dictGet_keepsPhase n s).bind firstByte_keepsPhase
  · split
    · exact firstByte_keepsPhase current s
    · exact .raised _ _ s

theorem nextString_keepsPhase (n : Nat) (e : Str) (s : State) : KeepsPhase s (nextString n e s) := by
  unfold nextString
  split
  · exact dictGet_keepsPhase n s
  · exact .refl e s

theorem dstepArm_keepsPhase (n : Nat) (nxt : Str) (arm : PolicyArm) (s : State) :
    KeepsPhase s (dstepArm n nxt arm s) := by
  cases arm with
  | inserted => exact .done rfl rfl rfl
  | grown => exact .done rfl rfl rfl
  | reset => exact (emitString_keepsPhase nxt s).bind fun _ _ => .done rfl rfl rfl

theorem dstepPolicy_keepsPhase (n : Nat) (nxt e : Str) (s : State) :
    KeepsPhase s (dstepArm n nxt (decPolicy e s).1 (decPolicy e s).2) := by
  have h := dstepArm_keepsPhase n nxt (decPolicy e s).1 (decPolicy e s).2
  rw [decPolicy_frame] at h ⊢
  exact h

theorem dstepData_keepsPhase (n : Nat) (s : State) : KeepsPhase s (dstepData n s) :=
  (dictGet_keepsPhase s.cur s).bind fun current t =>
    (emitString_keepsPhase current t).bind fun _ u =>
      (completingByte_keepsPhase n current u).bind fun b v =>
        (nextString_keepsPhase n (current ++ [b]) v).bind fun nxt x =>
          dstepPolicy_keepsPhase n nxt (current ++ [b]) x

theorem dstepSentinel_keepsPhase (s : State) : KeepsPhase s (dstepSentinel s) :=
  (dictGet_keepsPhase s.cur s).bind fun current t =>
    (emitString_keepsPhase current t).bind fun _ u =>
      (boundary_keepsPhase u).bind fun _ _ => .done rfl rfl rfl

theorem dstepRun_stepPhase (s : State) : EndsIn s (fun _ => StepPhase s) (dstepRun s) := by
  refine rdCode_stepPhase (fun _ => rfl) fun n t => ?_
  simp only
  split
  · exact dstepSentinel_keepsPhase t
  · exact dstepData_keepsPhase n t

theorem dstepBody_endsIn (s : State) :
    EndsIn s (fun _ t => t.phase = .dBody ∨ (t.phase = .done ∧ t.eos = true)) (dstepBody s) := by
  unfold dstepBody
  split
  · exact dstepPrime_stepPhase { s with phase := .dBody }
  · exact dstepRun_stepPhase { s with phase := .dBody }

/-! ### Every command (40_control R97) -/

/-- The phase after a command that does not fault (40_control R97), with the conditions on S and EOS; HDRB and HDRRD stay
in the one phase they are legal in. -/
def phaseAfter : Instr → State → State → Prop
  | .beginOp, s, t => t.phase = beginPhase s.cfg.dir
  | .srst, _, t => t.phase = .idle
  | .sym _, _, t => t.phase = .cBody
  | .eofile, _, t => t.phase = .cBody
  | .finish, s, t => t.phase = .done ∧ s.cand = []
  | .dstep, _, t => t.phase = .dBody ∨ (t.phase = .done ∧ t.eos = true)
  | _, s, t => t.phase = s.phase

theorem commandBody_endsIn {i : Instr} (hi : i ≠ .srst) (s : State) :
    EndsIn s (fun _ => phaseAfter i s) (commandBody i s) := by
  cases i with
  | nop => exact .done rfl rfl rfl
  | setcfg opd =>
    refine (setcfgBody_cases opd s).mono (fun _ _ ht => ?_) (fun _ ht => ht ▸ .raise _ _ s) False.elim
    obtain ⟨c, _, rfl⟩ := ht
    exact ⟨⟨rfl, rfl⟩, rfl⟩
  | setkey k => exact .done rfl rfl rfl
  | setsrclen n =>
    exact (setsrclenBody_cases n s).mono (fun _ _ ht => ht ▸ ⟨⟨rfl, rfl⟩, rfl⟩) (fun _ ht => ht ▸ .raise _ _ s)
      False.elim
  | beginOp => exact .done rfl rfl rfl
  | srst => exact absurd rfl hi
  | hdrb b => exact (wrHdr_post b s).keepsPhase
  | sym c => exact symBody_endsIn c s
  | eofile => exact eofileBody_endsIn s
  | finish => exact finishBody_endsIn s
  | hdrrd => exact hdrrdBody_keepsPhase s
  | dstep => exact dstepBody_endsIn s

/-- Outside ERR a command faults, or it was legal and leaves the phase of its row. -/
theorem exec_phase {i : Instr} (hp : s.phase ≠ .err) (h : exec i s = .next t) :
    Faulted t ∨ (s.phase ∈ legalPhases i ∧ (i ≠ .srst → NoFault s t) ∧ phaseAfter i s t) := by
  by_cases hl : s.phase ∈ legalPhases i
  · by_cases hi : i = .srst
    · subst hi
      cases (exec_srst s).symm.trans h
      exact .inr ⟨hl, fun hne => absurd rfl hne, rfl⟩
    · rw [exec_legal hl] at h
      rcases (commandBody_endsIn hi s).of_next h with ⟨_, hk, ha⟩ | hf
      · exact .inr ⟨hl, fun _ => hk, ha⟩
      · exact .inl hf
  · cases (exec_illegal hp hl).symm.trans h
    exact .inl (.raise _ _ s)

/-- HDRB and HDRRD are legal in the header part only, which they leave in place. -/
theorem phaseAfter_header {i : Instr} {p : Phase} (hrow : legalPhases i = [p]) (hl : s.phase ∈ legalPhases i)
    (ha : t.phase = s.phase) : t.phase = p := by
  rw [hrow, List.mem_singleton] at hl
  exact ha.trans hl

/-- Settles O15: every fault is taken, and what does not fault leaves the phase that its pseudocode sets. -/
theorem phaseTransitions : Obligations.PhaseTransitions := by
  unfold Obligations.PhaseTransitions
  intro i s t hp h
  refine (exec_phase hp h).imp id fun ⟨hl, hk, ha⟩ => ⟨hl, hk, ?_⟩
  cases i with
  | beginOp => exact ha.trans (beginPhase_eq s.cfg.dir)
  | hdrb b => exact phaseAfter_header rfl hl ha
  | hdrrd => exact phaseAfter_header rfl hl ha
  | _ => exact ha

end Sys2Proof.Machine
end

section
/-!
SUPPORT. The text of a bit string, both ways (20_memory R40, 42_texttranscoder R122 to R124): the bytes that the packer
makes of the whole groups are symbols of the text mode, and their bits are the bits they were made of.
-/

namespace Sys2Proof.Machine

variable {c : Cfg} {bits more : Bits} {b : Byte}

/-- Induction over a bit string by whole groups, the way the packer takes it. -/
theorem groups_induction (c : Cfg) {P : Bits → Prop} (short : ∀ bits, bits.length < groupSize c → P bits)
    (group : ∀ bits, groupSize c ≤ bits.length → P (bits.drop (groupSize c)) → P bits) (bits : Bits) : P bits := by
  by_cases h : bits.length < groupSize c
  · exact short bits h
  · exact group bits (by omega) (groups_induction c short group (bits.drop (groupSize c)))
termination_by bits.length
decreasing_by
  have := groupSize_bounds c
  simp only [List.length_drop]
  omega

/-! ### One group -/

theorem symbolBits_length (c : Cfg) (b : Byte) : (symbolBits c.text b).length = groupSize c / groupCost c := by
  unfold symbolBits groupSize groupCost
  cases c.text <;> simp

theorem groupCost_dvd_groupSize (c : Cfg) : groupCost c ∣ groupSize c := by
  unfold groupSize groupCost
  cases c.text <;> decide

theorem groupText_symbolBits {g : Nat} (hg : g < 2 ^ groupSize c) :
    (groupText c.text g).flatMap (symbolBits c.text) = bitsMSB g (groupSize c) := by
  unfold groupSize at *
  cases htext : c.text with
  | none =>
    simp only [groupText, symbolBits, List.flatMap_singleton, BitVec.toNat_ofNat]
    exact bitsMSB_mod g 8
  | hex =>
    have hhi : g / 16 % 16 < 16 := Nat.mod_lt _ (by decide)
    have hlo : g % 16 < 16 := Nat.mod_lt _ (by decide)
    simp only [groupText, symbolBits, List.flatMap_cons, List.flatMap_nil, List.append_nil, hexVal_hexChar hhi,
      hexVal_hexChar hlo, Option.getD_some]
    rw [bitsMSB_add g 4 4]
    exact congrArg₂ _ (bitsMSB_mod _ 4) (bitsMSB_mod _ 4)
  | base64 =>
    simp only [htext] at hg
    simp [groupText, symbolBits, b64Val_b64Char hg]

theorem groupText_legal {g : Nat} (hg : g < 2 ^ groupSize c) (hb : b ∈ groupText c.text g) :
    symbolLegal c.text b = true := by
  unfold groupSize at hg
  cases htext : c.text with
  | none => rfl
  | hex =>
    have hhi : g / 16 % 16 < 16 := Nat.mod_lt _ (by decide)
    have hlo : g % 16 < 16 := Nat.mod_lt _ (by decide)
    simp only [groupText, htext, List.mem_cons, List.not_mem_nil, or_false] at hb
    rcases hb with rfl | rfl
    · simp [symbolLegal, hexVal_hexChar hhi]
    · simp [symbolLegal, hexVal_hexChar hlo]
  | base64 =>
    simp only [htext] at hg
    simp only [groupText, htext, List.mem_singleton] at hb
    simp [symbolLegal, hb, b64Val_b64Char hg]

theorem valMSB_take_lt (n : Nat) (bits : Bits) : valMSB (bits.take n) < 2 ^ n :=
  (valMSB_lt _).trans_le (Nat.pow_le_pow_right (by decide) (by simp))

theorem bitsMSB_valMSB_take {n : Nat} (h : n ≤ bits.length) : bitsMSB (valMSB (bits.take n)) n = bits.take n := by
  have := bitsMSB_valMSB (bits.take n)
  rwa [List.length_take, Nat.min_eq_left h] at this

/-! ### All whole groups -/

theorem packText_legal (hb : b ∈ packText c bits) : symbolLegal c.text b = true := by
  obtain ⟨g, hg, hb⟩ := List.mem_flatMap.1 hb
  obtain ⟨k, -, rfl⟩ := List.mem_map.1 hg
  exact groupText_legal (valMSB_take_lt _ _) hb

/-- The text of the whole groups and the bits after them make up the bit string. -/
theorem packText_symbolBits (c : Cfg) (bits : Bits) :
    (packText c bits).flatMap (symbolBits c.text) ++ packRest c bits = bits := by
  induction bits using groups_induction c with
  | short bits h => rw [packText_short h, packRest_short h, List.flatMap_nil, List.nil_append]
  | group bits h ih =>
    rw [packRest_drop h] at ih
    rw [packText_cons h, List.flatMap_append, groupText_symbolBits (valMSB_take_lt _ _), bitsMSB_valMSB_take h,
      List.append_assoc, ih, List.take_append_drop]

/-- The packer may take a bit string in two parts, with the rest of the first before the second. -/
theorem packText_append (c : Cfg) (bits more : Bits) :
    packText c (bits ++ more) = packText c bits ++ packText c (packRest c bits ++ more) := by
  induction bits using groups_induction c with
  | short bits h => rw [packText_short h, packRest_short h, List.nil_append]
  | group bits h ih =>
    rw [packText_cons h, packText_cons (by simp; omega), List.take_append_of_le_length h,
      List.drop_append_of_le_length h, ih, packRest_drop h, List.append_assoc]

theorem packRest_append (c : Cfg) (bits more : Bits) :
    packRest c (bits ++ more) = packRest c (packRest c bits ++ more) := by
  induction bits using groups_induction c with
  | short bits h => rw [packRest_short h]
  | group bits h ih =>
    rw [← packRest_drop (show groupSize c ≤ (bits ++ more).length by simp; omega), List.drop_append_of_le_length h, ih,
      packRest_drop h]

theorem packRest_of_dvd (h : groupSize c ∣ bits.length) : packRest c bits = [] :=
  List.length_eq_zero_iff.1 ((packRest_length c bits).trans (Nat.mod_eq_zero_of_dvd h))

/-! ### The last group (41_bitcodestream R111) -/

theorem padding_packRest (c : Cfg) (bits : Bits) : padding c (packRest c bits) = padding c bits := by
  unfold padding
  rw [packRest_length, Nat.mod_mod]

theorem padding_length_lt (c : Cfg) (bits : Bits) : (padding c bits).length < groupSize c := by
  have := groupSize_bounds c
  unfold padding
  rw [List.length_replicate]
  exact Nat.mod_lt _ (by omega)

theorem groupSize_dvd_padded (c : Cfg) (bits : Bits) : groupSize c ∣ (bits ++ padding c bits).length := by
  have := groupSize_bounds c
  have := Nat.mod_lt bits.length (show 0 < groupSize c by omega)
  rw [Nat.dvd_iff_mod_eq_zero, List.length_append, padding, List.length_replicate, Nat.add_mod_mod, ← Nat.mod_add_mod,
    Nat.add_sub_cancel' this.le, Nat.mod_self]

end Sys2Proof.Machine
end

section
/-!
SUPPORT. The packed stream through SNK and SRC. On the write side SNK and WBUF hold the packing of all bits taken in
since both were empty (41_bitcodestream R110, R111); on the read side a read of `n` bits takes exactly the next `n`
bits off the stream (R112), and a SRC with the text of whole groups gives back the bits of that text.
-/

namespace Sys2Proof.Machine

variable {s t r : State} {bits more : Bits}

/-! ### The write side -/

theorem snkBytes_snkExtend (bytes : List Byte) (s : State) : snkBytes (snkExtend bytes s) = snkBytes s ++ bytes :=
  Store.range_writeAll (α := Byte) s.snk s.snkLen bytes 0

/-- The bits written since SNK and WBUF were empty: their whole groups are in SNK, the rest is in WBUF. -/
structure Packed (bits : Bits) (s : State) : Prop where
  text : snkBytes s = packText s.cfg bits
  rest : s.wbuf = packRest s.cfg bits
  cap : s.snkLen ≤ s.params.snkCap.toNat

namespace Packed

theorem empty (hw : s.wbuf = []) (hl : s.snkLen = 0) : Packed [] s where
  text := by
    have := groupSize_bounds s.cfg
    rw [packText_short (by rw [List.length_nil]; omega), snkBytes, hl, List.range_zero, List.map_nil]
  rest := by simp [hw, packRest]
  cap := by omega

theorem setPrng (h : Packed bits s) (p : Nat) : Packed bits { s with prng := p } := ⟨h.text, h.rest, h.cap⟩

theorem wbuf_short (h : Packed bits s) : s.wbuf.length < groupSize s.cfg := by
  have := groupSize_bounds s.cfg
  rw [h.rest, packRest_length]
  exact Nat.mod_lt _ (by omega)

theorem push (h : Packed bits s) (hroom : snkRoom (unitCost more.length s) s) :
    Packed (bits ++ more) (pushBits more s) where
  text := by
    rw [pushBits_cfg, packText_append, ← h.rest, ← h.text]
    exact snkBytes_snkExtend _ s
  rest := by rw [pushBits_wbuf, pushBits_cfg, h.rest, ← packRest_append]
  cap := by
    change s.snkLen + (packText s.cfg (s.wbuf ++ more)).length ≤ _
    rwa [packText_length, List.length_append]

/-- The flush completes the bits written to whole groups, and SNK holds their text. -/
theorem finalized (h : Packed bits s) (ht : finalize s = .done () t) :
    snkBytes t = packText s.cfg (bits ++ padding s.cfg bits) := by
  by_cases hroom : snkRoom (packText s.cfg (s.wbuf ++ padding s.cfg s.wbuf)).length s
  · cases (finalize_room h.wbuf_short hroom).symm.trans ht
    refine (snkBytes_snkExtend _ s).trans ?_
    rw [packText_append _ bits, ← padding_packRest _ bits, ← h.rest, ← h.text]
  · cases (finalize_full h.wbuf_short h.cap hroom).symm.trans ht

end Packed

/-! ### The read side -/

theorem srcAvail_advance_groups {k : Nat} (h : groupCost s.cfg * k ≤ srcAvail s) :
    srcAvail { s with srcPos := s.srcPos + groupCost s.cfg * k } = srcAvail s - groupCost s.cfg * k := by
  unfold srcAvail groupCost at *
  cases htext : s.cfg.text <;> simp only [htext] at h ⊢ <;> omega

theorem flatMap_symbolBits_length (c : Cfg) {k : Nat} {bytes : List Byte} (h : bytes.length = groupCost c * k) :
    (bytes.flatMap (symbolBits c.text)).length = groupSize c * k := by
  rw [List.length_flatMap, List.map_congr_left fun b _ => symbolBits_length c b, List.map_const', List.sum_replicate, h,
    smul_eq_mul, Nat.mul_right_comm, Nat.mul_div_cancel' (groupCost_dvd_groupSize c)]

theorem srcAhead_eq_flatMap (s : State) :
    srcAhead s = ((List.range (srcAvail s)).map fun i => srcByte (s.srcPos + i) s).flatMap (symbolBits s.cfg.text) :=
  (List.flatMap_map ..).symm

theorem groupsNeeded_covers (n : Nat) (s : State) : n ≤ s.rbuf.length + groupSize s.cfg * groupsNeeded n s := by
  have := groupSize_bounds s.cfg
  have := Nat.lt_div_mul_add (a := n - s.rbuf.length + (groupSize s.cfg - 1)) (show 0 < groupSize s.cfg by omega)
  unfold groupsNeeded
  rw [Nat.mul_comm]
  omega

/-- A read of bits that are there needs no more groups than SRC has. -/
theorem groupsNeeded_available {n : Nat} (h : n ≤ (unread s).length) :
    groupCost s.cfg * groupsNeeded n s ≤ srcAvail s := by
  have hlen : (unread s).length = s.rbuf.length + srcAvail s * (groupSize s.cfg / groupCost s.cfg) := by
    simp [unread, srcAhead, List.length_flatMap, symbolBits_length]
  rw [hlen] at h
  unfold groupsNeeded srcAvail groupCost groupSize at *
  cases htext : s.cfg.text <;> simp only [htext] at h ⊢ <;> omega

/-- A read of `n` bits takes the next `n` bits off the stream (41_bitcodestream R112). -/
theorem unread_pullBits {n : Nat} (h : n ≤ (unread s).length) : unread (pullBits n s) = (unread s).drop n := by
  have hle := groupsNeeded_available h
  have hahead := srcAhead_advance s _ hle (srcAvail_advance_groups hle)
  set k := groupCost s.cfg * groupsNeeded n s with hk
  set fetched := (List.range k).flatMap fun i => symbolBits s.cfg.text (srcByte (s.srcPos + i) s) with hfetched
  have hlen : fetched.length = groupSize s.cfg * groupsNeeded n s := by
    rw [hfetched, ← List.flatMap_map fun i => srcByte (s.srcPos + i) s]
    exact flatMap_symbolBits_length s.cfg (by simp [hk])
  have hsplit : unread s = (s.rbuf ++ fetched) ++ srcAhead { s with srcPos := s.srcPos + k } := by
    rw [unread, hahead, List.append_assoc]
  have hbuf : (unread s).take (s.rbuf.length + groupSize s.cfg * groupsNeeded n s) = s.rbuf ++ fetched := by
    rw [hsplit, ← hlen, ← List.length_append, List.take_left]
  have hn : n ≤ (s.rbuf ++ fetched).length := by
    rw [List.length_append, hlen]
    exact groupsNeeded_covers n s
  change ((unread s).take _).drop n ++ srcAhead { s with srcPos := s.srcPos + k } = _
  rw [hbuf, hsplit, List.drop_append_of_le_length hn]

/-- Every byte of SRC below SRC_LEN is a symbol of the text mode. -/
def SrcSymbols (s : State) : Prop := ∀ i < s.srcLen, symbolLegal s.cfg.text (srcByte i s) = true

theorem SrcSymbols.readable (h : SrcSymbols s) (n : Nat) : readable n s := fun i hi =>
  h _ (by
    have hav := hi.1
    unfold srcAvail at hav
    cases htext : s.cfg.text <;> simp only [htext] at hav <;> omega)

theorem srcAvail_of_dvd (hp : s.srcPos = 0) (h : groupCost s.cfg ∣ s.srcLen) : srcAvail s = s.srcLen := by
  unfold srcAvail groupCost at *
  cases htext : s.cfg.text <;> simp only [htext] at h ⊢ <;> omega

/-- SNK of `t` is SRC of `r`. -/
theorem srcBytes_eq_snkBytes (hlen : r.srcLen = t.snkLen) (h : ∀ i < t.snkLen, readSnk i t = some (srcByte i r)) :
    (List.range r.srcLen).map (srcByte · r) = snkBytes t := by
  rw [hlen]
  refine List.map_congr_left fun i hi => ?_
  have hi := List.mem_range.1 hi
  have hread := h i hi
  rw [readSnk, if_pos hi] at hread
  rw [hread, Option.getD_some]

/-- A SRC that holds the text of whole groups: a reader at its start has the bits of these groups ahead. -/
theorem srcAhead_of_packText {c : Cfg} (htext : r.cfg.text = c.text) (hp : r.srcPos = 0)
    (hsrc : (List.range r.srcLen).map (srcByte · r) = packText c bits) (hdvd : groupSize c ∣ bits.length) :
    SrcSymbols r ∧ srcAhead r = bits := by
  have hlen : r.srcLen = groupCost c * (bits.length / groupSize c) := by
    rw [← packText_length, ← hsrc, List.length_map, List.length_range]
  have hcost : groupCost r.cfg = groupCost c := by rw [groupCost, htext]; rfl
  constructor
  · intro i hi
    rw [htext]
    exact packText_legal (bits := bits) (hsrc ▸ List.mem_map.2 ⟨i, List.mem_range.2 hi, rfl⟩)
  · rw [srcAhead_eq_flatMap, srcAvail_of_dvd hp (hcost ▸ ⟨_, hlen⟩), hp, htext]
    simp only [Nat.zero_add, hsrc]
    have := packText_symbolBits c bits
    rwa [packRest_of_dvd hdvd, List.append_nil] at this

/-! ### Reads by the next bits of the stream -/

theorem bitsAhead_of_unread {n v : Nat} (hu : unread s = bitsMSB v n ++ more) (hv : v < 2 ^ n) :
    bitsAhead n s = some v := by
  have htake : (unread s).take n = bitsMSB v n := by
    rw [hu, List.take_append_of_le_length (by simp), List.take_of_length_le (by simp)]
  rw [bitsAhead, if_pos (by rw [hu]; simp), htake, valMSB_bitsMSB_of_lt hv]

theorem unread_pullBits_of_unread {n v : Nat} (hu : unread s = bitsMSB v n ++ more) : unread (pullBits n s) = more := by
  rw [unread_pullBits (by rw [hu]; simp), hu, List.drop_append_of_le_length (by simp),
    List.drop_of_length_le (by simp), List.nil_append]

theorem readBits_of_short {n : Nat} (hl : readable n s) (h : (unread s).length < n) :
    readBits n s = .done none (pullEnd s) :=
  readBits_none hl (if_neg (by omega))

/-- Reading a code at any width (43_streamcipher R134). -/
theorem rdCode_of_bitsAhead {w v : Nat} (hl : readable w s) (h : bitsAhead w s = some v) :
    rdCode w s = .done (some (if s.cfg.ciph then subMod v (nextRaw s) (2 ^ w) else v))
      { pullBits w s with prng := prngAfterCode s } := by
  rw [rdCode, readBits_some hl h, Res.bind_done]
  cases hciph : s.cfg.ciph with
  | true =>
    simp only [pullBits_cfg, prngAfterCode, hciph, if_true]
    rfl
  | false =>
    simp only [pullBits_cfg, prngAfterCode, hciph, Bool.false_eq_true, if_false]
    rfl

end Sys2Proof.Machine
end

section
/-!
SUPPORT. The cipher inverts itself (43_streamcipher R133 to R136): with the same draw, deciphering gives back what was
enciphered, for codes modulo `2^w` and for header bytes within their range.
-/

namespace Sys2Proof.Machine

variable {x m b r : Nat} {s : State}

theorem addMod_lt (x r : Nat) (h : 0 < m) : addMod x r m < m := Nat.mod_lt _ h

theorem subMod_addMod (r : Nat) (h : x < m) : subMod (addMod x r m) r m = x := by
  have := Nat.mod_lt r (show 0 < m by omega)
  rw [subMod, addMod, Nat.mod_add_mod, show x + r % m + (m - r % m) = x + m by omega, Nat.add_mod_right,
    Nat.mod_eq_of_lt h]

theorem inHdrRange_iff {h : HdrRange} : inHdrRange h b = true ↔ h.lo ≤ b ∧ b ≤ h.hi := by simp [inHdrRange]

theorem hdrOffset_lt {h : HdrRange} (hb : inHdrRange h b = true) : b - h.lo < hdrModulus h := by
  have := inHdrRange_iff.1 hb
  unfold hdrModulus
  omega

theorem inHdrRange_hdrEncipher (h : HdrRange) (b r : Nat) : inHdrRange h (hdrEncipher h b r) = true := by
  have hok := h.ok
  have := addMod_lt (m := hdrModulus h) (b - h.lo) r (by unfold hdrModulus; omega)
  rw [inHdrRange_iff, hdrEncipher]
  unfold hdrModulus at *
  omega

theorem hdrDecipher_hdrEncipher {h : HdrRange} (hb : inHdrRange h b = true) :
    hdrDecipher h (hdrEncipher h b r) r = b := by
  have := inHdrRange_iff.1 hb
  rw [hdrDecipher, hdrEncipher, Nat.add_sub_cancel_left, subMod_addMod r (hdrOffset_lt hb)]
  omega

theorem storedCode_lt {c w : Nat} (h : c < 2 ^ w) : storedCode c w s < 2 ^ w := by
  unfold storedCode
  split
  · exact addMod_lt _ _ (by positivity)
  · exact h

theorem storedHdr_lt (b : Byte) (s : State) : storedHdr b s < 2 ^ 8 := by
  unfold storedHdr
  split
  · have := inHdrRange_iff.1 (inHdrRange_hdrEncipher s.params.hdr b.toNat (nextRaw s))
    have := s.params.hdr.ok
    omega
  · exact b.isLt

/-- The reader tells from the stored value whether the header byte was enciphered. -/
theorem hdrDraws_storedHdr (b : Byte) (s : State) : hdrDraws (storedHdr b s) s = hdrDraws b.toNat s := by
  unfold storedHdr
  split
  · rename_i hd
    have hciph := (Bool.and_eq_true_iff.1 hd).1
    rw [hd, hdrDraws, hciph, inHdrRange_hdrEncipher, Bool.and_self]
  · rfl

theorem storedHdr_decipher (b : Byte) (s : State) :
    (if hdrDraws (storedHdr b s) s then hdrDecipher s.params.hdr (storedHdr b s) (nextRaw s) else storedHdr b s) =
      b.toNat := by
  rw [hdrDraws_storedHdr, storedHdr]
  split
  · rename_i hd
    exact hdrDecipher_hdrEncipher (Bool.and_eq_true_iff.1 hd).2
  · rfl

theorem storedCode_decipher {c w : Nat} (h : c < 2 ^ w) :
    (if s.cfg.ciph then subMod (storedCode c w s) (nextRaw s) (2 ^ w) else storedCode c w s) = c := by
  unfold storedCode
  split
  · exact subMod_addMod _ h
  · rfl

end Sys2Proof.Machine
end

section
/-!
SUPPORT. Units through the whole chain (41_bitcodestream R113, 42_texttranscoder R125, 43_streamcipher R139): what the
units of a sequence put into the stream is a function of the cipher's part of the state, the writer packs exactly these
bits, and a reader that has them ahead, with the same cipher, reads the units.
-/

namespace Sys2Proof.Machine

variable {s t r : State} {bits more : Bits} {u : StreamUnit} {units : List StreamUnit}

/-- The number of stream bits of a unit (30_encoding R70). -/
def StreamUnit.width : StreamUnit → Nat
  | .hdr _ => 8
  | .code _ w => w

/-- The value that goes into the stream for a unit. -/
def storedUnit : StreamUnit → State → Nat
  | .hdr b, s => storedHdr b s
  | .code c w, s => storedCode c w s

/-- The generator state after a unit. -/
def prngAfterUnit : StreamUnit → State → Nat
  | .hdr b, s => prngAfterHdr b.toNat s
  | .code _ _, s => prngAfterCode s

/-- The stream bits of a unit. -/
def unitBits (u : StreamUnit) (s : State) : Bits := bitsMSB (storedUnit u s) u.width

/-- The stream bits of units in order, each with the generator state that the ones before it leave. -/
def unitsBits : List StreamUnit → State → Bits
  | [], _ => []
  | u :: rest, s => unitBits u s ++ unitsBits rest { s with prng := prngAfterUnit u s }

/-! ### The cipher's part of the state -/

/-- Two states that the cipher cannot tell apart. -/
structure SameCipher (s r : State) : Prop where
  ciph : r.cfg.ciph = s.cfg.ciph
  gen : r.params.prng = s.params.prng
  hdr : r.params.hdr = s.params.hdr
  prng : r.prng = s.prng

namespace SameCipher

theorem prngNext_eq (h : SameCipher s r) : prngNext r.params r.prng = prngNext s.params s.prng := by
  unfold prngNext
  rw [h.gen, h.prng]

theorem nextRaw_eq (h : SameCipher s r) : nextRaw r = nextRaw s := by rw [nextRaw, h.prngNext_eq, nextRaw]

theorem afterDraw_eq (h : SameCipher s r) : afterDraw r = afterDraw s := by rw [afterDraw, h.prngNext_eq, afterDraw]

theorem hdrDraws_eq (h : SameCipher s r) (b : Nat) : hdrDraws b r = hdrDraws b s := by
  rw [hdrDraws, h.ciph, h.hdr, hdrDraws]

theorem storedUnit_eq (h : SameCipher s r) (u : StreamUnit) : storedUnit u r = storedUnit u s := by
  cases u with
  | hdr b => simp only [storedUnit, storedHdr, h.hdrDraws_eq, h.hdr, h.nextRaw_eq]
  | code c w => simp only [storedUnit, storedCode, h.ciph, h.nextRaw_eq]

theorem prngAfterUnit_eq (h : SameCipher s r) (u : StreamUnit) : prngAfterUnit u r = prngAfterUnit u s := by
  cases u with
  | hdr b => simp only [prngAfterUnit, prngAfterHdr, h.hdrDraws_eq, h.afterDraw_eq, h.prng]
  | code c w => simp only [prngAfterUnit, prngAfterCode, h.ciph, h.afterDraw_eq, h.prng]

theorem unitsBits_eq (h : SameCipher s r) (units : List StreamUnit) : unitsBits units r = unitsBits units s := by
  induction units generalizing s r with
  | nil => rfl
  | cons u rest ih =>
    have hrest : SameCipher { s with prng := prngAfterUnit u s } { r with prng := prngAfterUnit u r } :=
      ⟨h.ciph, h.gen, h.hdr, h.prngAfterUnit_eq u⟩
    rw [unitsBits, unitsBits, ih hrest, unitBits, unitBits, h.storedUnit_eq]

end SameCipher

/-! ### Writing -/

/-- `s` after a unit went out. -/
def unitWritten (u : StreamUnit) (s : State) : State := pushBits (unitBits u s) { s with prng := prngAfterUnit u s }

theorem writeUnits_cons_room (h : snkRoom (unitCost u.width s) s) :
    writeUnits (u :: units) s = writeUnits units (unitWritten u s) := by
  cases u with
  | hdr b => rw [writeUnits, wrHdr_room h, Res.bind_done]; rfl
  | code c w => rw [writeUnits, wrCode_room (w := w) h, Res.bind_done]; rfl

theorem writeUnits_cons_full (hc : s.snkLen ≤ s.params.snkCap.toNat) (h : ¬ snkRoom (unitCost u.width s) s) :
    writeUnits (u :: units) s ≠ .done () t := by
  cases u with
  | hdr b => rw [writeUnits, wrHdr_full hc h]; exact nofun
  | code c w => rw [writeUnits, wrCode_full (w := w) hc h]; exact nofun

/-- Units that go out without a fault add their bits to the stream. -/
theorem writeUnits_packed (hp : Packed bits s) (h : writeUnits units s = .done () t) :
    t.cfg = s.cfg ∧ Packed (bits ++ unitsBits units s) t := by
  induction units generalizing s bits with
  | nil =>
    cases h
    rw [unitsBits, List.append_nil]
    exact ⟨rfl, hp⟩
  | cons u rest ih =>
    by_cases hroom : snkRoom (unitCost u.width s) s
    · rw [writeUnits_cons_room hroom] at h
      have hpush : Packed (bits ++ unitBits u s) (unitWritten u s) :=
        (hp.setPrng (prngAfterUnit u s)).push (by rw [unitBits, bitsMSB_length]; exact hroom)
      have hcipher : SameCipher { s with prng := prngAfterUnit u s } (unitWritten u s) := ⟨rfl, rfl, rfl, rfl⟩
      obtain ⟨hcfg, hpacked⟩ := ih hpush h
      rw [hcipher.unitsBits_eq, List.append_assoc] at hpacked
      exact ⟨hcfg, hpacked⟩
    · exact absurd h (writeUnits_cons_full hp.cap hroom)

/-! ### Reading -/

/-- `r` after a unit was read. -/
def unitRead (u : StreamUnit) (r : State) : State := { pullBits u.width r with prng := prngAfterUnit u r }

theorem readUnits_cons_of_unread (hl : u.legal) (hr : readable u.width r) (hu : unread r = unitBits u r ++ more) :
    readUnits (u :: units) r =
      (readUnits units (unitRead u r)).bind fun us s => .done (us.map (u :: ·)) s := by
  cases u with
  | hdr b =>
    have hahead : bitsAhead 8 r = some (storedHdr b r) := bitsAhead_of_unread hu (storedHdr_lt b r)
    have hb : hdrAhead r = some b := by
      rw [hdrAhead, hahead, Option.map_some, storedHdr_decipher, BitVec.ofNat_toNat, BitVec.setWidth_eq]
    have hprng : prngAfterHdrAhead r = prngAfterHdr b.toNat r := by
      rw [prngAfterHdrAhead, hahead]
      simp only [prngAfterHdr, hdrDraws_storedHdr]
    rw [readUnits, rdHdr_some hr hb, Res.bind_done, hdrRead, hprng]
    rfl
  | code c w =>
    obtain ⟨hc, -, -⟩ := hl
    have hahead : bitsAhead w r = some (storedCode c w r) := bitsAhead_of_unread hu (storedCode_lt hc)
    rw [readUnits, rdCode_of_bitsAhead (w := w) hr hahead, Res.bind_done]
    simp only [storedCode_decipher hc]
    rfl

/-- A reader that has the bits of units ahead reads these units, and what follows them is ahead then. -/
theorem readUnits_of_unread (hl : ∀ u ∈ units, u.legal) (hs : SrcSymbols r)
    (hu : unread r = unitsBits units r ++ more) :
    ∃ r', readUnits units r = .done (some units) r' ∧ SrcSymbols r' ∧ unread r' = more := by
  induction units generalizing r with
  | nil => exact ⟨r, rfl, hs, hu⟩
  | cons u rest ih =>
    obtain ⟨hu1, hrest⟩ := List.forall_mem_cons.1 hl
    rw [unitsBits, List.append_assoc] at hu
    have hcipher : SameCipher { r with prng := prngAfterUnit u r } (unitRead u r) := ⟨rfl, rfl, rfl, rfl⟩
    have hnext : unread (unitRead u r) = unitsBits rest (unitRead u r) ++ more :=
      (unread_pullBits_of_unread hu).trans (by rw [hcipher.unitsBits_eq])
    obtain ⟨r', hread, hs', hmore⟩ := ih (r := unitRead u r) hrest hs hnext
    refine ⟨r', ?_, hs', hmore⟩
    rw [readUnits_cons_of_unread hu1 (hs.readable _) hu, hread]
    rfl

/-- Settles O52: the writer leaves the text of the units' bits and a padding shorter than 8 bits, the reader has these
bits ahead, takes the units off them, and finds too few bits for another. -/
theorem streamRoundTrip : Obligations.StreamRoundTrip := by
  unfold Obligations.StreamRoundTrip
  intro units s t r hlegal hw hsnk hwrite htext hciph hgen hhdr hprng hrbuf hpos hlen hsrc
  cases hunits : writeUnits units s with
  | raised u => rw [hunits] at hwrite; cases hwrite
  | stop f => rw [hunits] at hwrite; cases hwrite
  | done _ u =>
    rw [hunits, Res.bind_done] at hwrite
    obtain ⟨hcfg, hpacked⟩ := writeUnits_packed (.empty hw hsnk) hunits
    have hbytes := hpacked.finalized hwrite
    rw [List.nil_append, hcfg] at hbytes
    set bits := unitsBits units s
    obtain ⟨hsymbols, hahead⟩ := srcAhead_of_packText htext hpos
      ((srcBytes_eq_snkBytes hlen hsrc).trans hbytes) (groupSize_dvd_padded s.cfg bits)
    have hcipher : SameCipher s r := ⟨hciph, hgen, hhdr, hprng⟩
    have hunread : unread r = unitsBits units r ++ padding s.cfg bits := by
      rw [unread, hrbuf, List.nil_append, hahead, hcipher.unitsBits_eq]
    obtain ⟨r', hread, hsymbols', hrest⟩ := readUnits_of_unread hlegal hsymbols hunread
    have hshort : (unread r').length < 8 := by
      rw [hrest]
      exact (padding_length_lt s.cfg bits).trans_le (groupSize_bounds s.cfg).2
    exact ⟨r', hread, fun n hn => ⟨_, readBits_of_short (hsymbols'.readable n) (by omega)⟩⟩

end Sys2Proof.Machine
end

section
/-!
PROOF. The alphabets of the text modes (42_texttranscoder): `hexval` range by range, `b64val` range by range and the
character that each of its values is of.
-/

namespace Sys2Proof.Machine

/-! ### The hexadecimal alphabet (R122) -/

theorem hexVal_of_digit {b : Byte} (hlo : 0x30 ≤ b.toNat) (hhi : b.toNat ≤ 0x39) :
    hexVal b = some (b.toNat - 0x30) :=
  if_pos ⟨hlo, hhi⟩

theorem hexVal_of_lowercase {b : Byte} (hlo : 0x61 ≤ b.toNat) (hhi : b.toNat ≤ 0x66) :
    hexVal b = some (b.toNat - 0x61 + 10) :=
  (if_neg (by omega)).trans (if_pos ⟨hlo, hhi⟩)

theorem hexVal_of_uppercase {b : Byte} (hlo : 0x41 ≤ b.toNat) (hhi : b.toNat ≤ 0x46) :
    hexVal b = some (b.toNat - 0x41 + 10) :=
  (if_neg (by omega)).trans ((if_neg (by omega)).trans (if_pos ⟨hlo, hhi⟩))

theorem hexVal_of_outside {b : Byte}
    (h : b.toNat < 0x30 ∨ (0x39 < b.toNat ∧ b.toNat < 0x41) ∨ (0x46 < b.toNat ∧ b.toNat < 0x61) ∨ 0x66 < b.toNat) :
    hexVal b = none :=
  (if_neg (by omega)).trans ((if_neg (by omega)).trans (if_neg (by omega)))

/-- Settles O50: the table is 16 characters, each with its own value, and the three ranges of `hexval` are apart. -/
theorem hexAlphabet : Obligations.HexAlphabet := by
  unfold Obligations.HexAlphabet
  refine ⟨by decide, fun x hx => hexVal_hexChar hx, fun b => ⟨?digit, ?lowercase, ?uppercase, ?outside⟩⟩
  case digit => exact hexVal_of_digit
  case lowercase => exact hexVal_of_lowercase
  case uppercase => exact hexVal_of_uppercase
  case outside => exact hexVal_of_outside

/-! ### The base64 alphabet (R123) -/

/-- A byte with a base64 value is in one of the five ranges of the table of R69, which gives the value. -/
theorem b64Val_eq_some_cases {b : Byte} {x : Nat} (h : b64Val b = some x) :
    (x ≤ 25 ∧ b.toNat = 0x41 + x) ∨ (26 ≤ x ∧ x ≤ 51 ∧ b.toNat = 0x61 + x - 26) ∨
      (52 ≤ x ∧ x ≤ 61 ∧ b.toNat = 0x30 + x - 52) ∨ (x = 62 ∧ b.toNat = 0x2B) ∨ (x = 63 ∧ b.toNat = 0x2F) := by
  simp only [b64Val] at h
  split_ifs at h <;> simp only [Option.some.injEq] at h <;> omega

theorem lt_of_b64Val_eq_some {b : Byte} {x : Nat} (h : b64Val b = some x) : x < 64 := by
  have hcases := b64Val_eq_some_cases h
  omega

theorem b64Char_of_b64Val_eq_some {b : Byte} {x : Nat} (h : b64Val b = some x) : b64Char x = b := by
  have hbyte : b = BitVec.ofNat 8 b.toNat := by simp
  obtain ⟨hhi, hb⟩ | ⟨hlo, hhi, hb⟩ | ⟨hlo, hhi, hb⟩ | ⟨rfl, hb⟩ | ⟨rfl, hb⟩ := b64Val_eq_some_cases h <;>
    rw [hbyte, hb]
  · exact if_pos hhi
  · exact (if_neg (by omega)).trans (if_pos hhi)
  · exact (if_neg (by omega)).trans ((if_neg (by omega)).trans (if_pos hhi))
  · rfl
  · rfl

/-- Settles O51: the table is 64 characters, each with its own value, and every range of `b64val` undoes one of
`b64char`. -/
theorem base64Alphabet : Obligations.Base64Alphabet := by
  unfold Obligations.Base64Alphabet
  exact ⟨by decide, fun x hx => b64Val_b64Char hx, fun b x h => ⟨lt_of_b64Val_eq_some h, b64Char_of_b64Val_eq_some h⟩⟩

end Sys2Proof.Machine
end

section
/-!
PROOF. The cipher's arithmetic (43_streamcipher): the reference generator, and the code and header ciphers as maps of
their ranges onto themselves.
-/

namespace Sys2Proof.Machine

variable {p : Params} {b r : Nat}

/-! ### The reference generator (R131) -/

theorem prngNext_lcg32 (hp : p.prng = .lcg32) (st : Nat) :
    prngNext p st = (BitVec.ofNat 16 (lcgNext st / 2 ^ 16), lcgNext st) := by
  rw [prngNext, hp]

/-- The upper half of a 32-bit state is a 16-bit value. -/
theorem prngNext_lcg32_raw (hp : p.prng = .lcg32) (st : Nat) : (prngNext p st).1.toNat = lcgNext st / 2 ^ 16 := by
  have hlt := lcgNext_lt st
  rw [prngNext_lcg32 hp, BitVec.toNat_ofNat, Nat.mod_eq_of_lt (by omega)]

theorem prngSeed_lcg32 (hp : p.prng = .lcg32) (key : Word) : prngSeed p key = key.toNat := by
  rw [prngSeed, hp]

/-- Settles O47: the seed, the next state and the raw value of LCG32, one by one. -/
theorem lcg32 : Obligations.Lcg32 := by
  unfold Obligations.Lcg32
  refine ⟨rfl, fun p hp => ⟨prngSeed_lcg32 hp, fun st => ⟨?_, prngNext_lcg32_raw hp st⟩⟩⟩
  rw [prngNext_lcg32 hp, lcgNext]

/-! ### Codes (R133, R134) -/

/-- Settles O48: a sum modulo `2^w` is below `2^w`, and the subtraction modulo `2^w` undoes it. -/
theorem codeCipherInverse : Obligations.CodeCipherInverse := by
  unfold Obligations.CodeCipherInverse
  exact fun c r w h => ⟨addMod_lt c r (by positivity), subMod_addMod r h⟩

/-! ### Header bytes (R135, R136) -/

/-- The line feed is below every legal range. -/
theorem inHdrRange_lineFeed (h : HdrRange) : inHdrRange h 0x0A = false := by
  have hlo := h.ok.1
  rw [Bool.eq_false_iff, Ne, inHdrRange_iff]
  omega

theorem ne_lineFeed_of_inHdrRange {h : HdrRange} (hb : inHdrRange h b = true) : b ≠ 0x0A := by
  rintro rfl
  exact Bool.false_ne_true ((inHdrRange_lineFeed h).symm.trans hb)

theorem hdrDraws_outside {s : State} (hb : inHdrRange s.params.hdr b = false) : hdrDraws b s = false := by
  rw [hdrDraws, hb, Bool.and_false]

/-- Settles O49: within the range the cipher is an addition modulo the size of the range, and the range lies above the
line feed; outside it no draw is made. -/
theorem headerCipher : Obligations.HeaderCipher := by
  unfold Obligations.HeaderCipher
  refine ⟨fun h b r hb => ?inside, fun b s hb => ?outside, inHdrRange_lineFeed⟩
  case inside =>
    have hmem := inHdrRange_hdrEncipher h b r
    exact ⟨hmem, hdrDecipher_hdrEncipher hb, ne_lineFeed_of_inHdrRange hmem⟩
  case outside =>
    have hdraw : ¬ hdrDraws b.toNat s = true := by simp [hdrDraws_outside hb]
    exact ⟨if_neg hdraw, if_neg hdraw⟩

end Sys2Proof.Machine
end

section
/-!
PROOF. The generator and CIPH (43_streamcipher R132): the four cipher primitives draw only with CIPH = 1, and nothing
else writes PRNG within an operation.
-/

namespace Sys2Proof.Machine

variable {α β : Type} {s t u : State}

/-! ### A piece of pseudocode and PRNG -/

/-- From `s` to `t` CFG stays, and PRNG stays if the cipher is off. CFG is part of it so that such stretches compose. -/
def NoDraw (s t : State) : Prop := t.cfg = s.cfg ∧ (s.cfg.ciph = false → t.prng = s.prng)

theorem NoDraw.of_eq (hc : t.cfg = s.cfg) (hp : t.prng = s.prng) : NoDraw s t := ⟨hc, fun _ => hp⟩

theorem NoDraw.refl (s : State) : NoDraw s s := .of_eq rfl rfl

theorem NoDraw.trans (h : NoDraw s t) (k : NoDraw t u) : NoDraw s u :=
  ⟨k.1.trans h.1, fun hc => (k.2 (h.1 ▸ hc)).trans (h.2 hc)⟩

/-- With the cipher on nothing is claimed of PRNG, so a draw is no exception. -/
theorem NoDraw.draw (h : s.cfg.ciph = true) : NoDraw s (draw s).2 :=
  ⟨rfl, fun hc => absurd (h.symm.trans hc) (by decide)⟩

theorem Emitted.noDraw (h : Emitted s t) : NoDraw s t := by
  rw [h.frame]
  exact .of_eq rfl rfl

/-- A piece of pseudocode run from `s` leaves CFG, and PRNG if the cipher is off, however it ends. -/
abbrev DrawFree (s : State) (x : Res α) : Prop := Res.Post (fun _ t => NoDraw s t) (NoDraw s) True x

theorem DrawFree.refl (a : α) (s : State) : DrawFree s (.done a s) := NoDraw.refl s

theorem DrawFree.done {a : α} (hc : t.cfg = s.cfg) (hp : t.prng = s.prng) : DrawFree s (.done a t) := .of_eq hc hp

theorem DrawFree.raised (c : Cause) (info : Word) (s : State) : DrawFree s (.raised (raise c info s) : Res α) :=
  .of_eq rfl rfl

theorem DrawFree.after {x : Res α} (hx : DrawFree t x) (h : NoDraw s t) : DrawFree s x :=
  hx.mono (fun _ _ => h.trans) (fun _ => h.trans) id

theorem DrawFree.bind {x : Res α} {f : α → State → Res β} (h : DrawFree s x) (hf : ∀ a t, DrawFree t (f a t)) :
    DrawFree s (x.bind f) :=
  Res.Post.bind h (fun a t ht => (hf a t).after ht) (fun _ hr => hr) id

theorem drawFree_of_emitted {x : Res α} (h : Res.Post (fun _ t => Emitted s t) (OutOverflow s) False x) :
    DrawFree s x :=
  h.mono (fun _ _ k => k.noDraw) (fun _ ⟨_, k, ht⟩ => ht ▸ k.noDraw) False.elim

theorem emitString_drawFree (str : Str) (s : State) : DrawFree s (emitString str s) :=
  drawFree_of_emitted (emitString_post str s)

theorem boundary_drawFree (s : State) : DrawFree s (outAppend boundaryToken s) :=
  drawFree_of_emitted (outAppend_post _ s (by decide))

theorem dictGet_drawFree (c : Nat) (s : State) : DrawFree s (dictGet c s) := by
  unfold dictGet
  split
  · exact .refl _ s
  · trivial

theorem firstByte_drawFree (e : Str) (s : State) : DrawFree s (firstByte e s) := by
  cases e with
  | nil => trivial
  | cons b rest => exact .refl b s

theorem candCode_drawFree (s : State) : DrawFree s (candCode s) := by
  unfold candCode
  split
  · exact .refl _ s
  · trivial

/-! ### The write side -/

theorem snkAppend_drawFree (b : Byte) (s : State) : DrawFree s (snkAppend b s) := by
  unfold snkAppend
  split
  · exact .raised _ _ s
  · exact .done rfl rfl

theorem emitGroup_drawFree (g : Nat) (s : State) : DrawFree s (emitGroup g s) := by
  unfold emitGroup
  split
  · exact snkAppend_drawFree _ s
  · exact (snkAppend_drawFree _ s).bind fun _ => snkAppend_drawFree _
  · exact snkAppend_drawFree _ s

theorem emitFull_drawFree (rounds : Nat) (s : State) : DrawFree s (emitFull rounds s) := by
  induction rounds generalizing s with
  | zero => exact .refl () s
  | succ k ih =>
    unfold emitFull
    split
    · exact DrawFree.bind (emitGroup_drawFree _ { s with wbuf := _ }) fun _ => ih
    · exact .refl () s

theorem writeBits_drawFree (v n : Nat) (s : State) : DrawFree s (writeBits v n s) :=
  emitFull_drawFree _ { s with wbuf := _ }

theorem finalize_drawFree (s : State) : DrawFree s (finalize s) := by
  unfold finalize
  split
  · exact DrawFree.bind (emitGroup_drawFree _ { s with wbuf := _ }) fun _ _ => .done rfl rfl
  · exact .refl () s

theorem wrCode_drawFree (c w : Nat) (s : State) : DrawFree s (wrCode c w s) := by
  unfold wrCode
  split
  · exact (writeBits_drawFree _ _ _).after (.draw ‹_›)
  · exact writeBits_drawFree _ _ s

theorem wrHdr_drawFree (b : Byte) (s : State) : DrawFree s (wrHdr b s) := by
  unfold wrHdr
  split
  · rename_i hd
    exact (writeBits_drawFree _ _ _).after (.draw (Bool.and_eq_true_iff.1 hd).1)
  · exact writeBits_drawFree _ _ s

/-! ### The read side -/

theorem fetchSymbol_drawFree (val : Byte → Option Nat) (s : State) : DrawFree s (fetchSymbol val s) := by
  unfold fetchSymbol
  split
  · exact .raised _ _ s
  · exact .done rfl rfl

theorem fetchGroup_drawFree (s : State) : DrawFree s (fetchGroup s) := by
  unfold fetchGroup
  split <;> split
  · exact .refl _ s
  · exact .done rfl rfl
  · exact .refl _ s
  · exact (fetchSymbol_drawFree _ s).bind fun _ t => (fetchSymbol_drawFree _ t).bind fun _ => .refl _
  · exact .refl _ s
  · exact (fetchSymbol_drawFree _ s).bind fun _ => .refl _

theorem fillTo_drawFree (n rounds : Nat) (s : State) : DrawFree s (fillTo n rounds s) := by
  induction rounds generalizing s with
  | zero => exact .refl _ s
  | succ k ih =>
    unfold fillTo
    split
    · refine (fetchGroup_drawFree s).bind fun g t => ?_
      cases g with
      | none => exact .done rfl rfl
      | some g => exact ih { t with rbuf := _ }
    · exact .refl _ s

theorem readBits_drawFree (n : Nat) (s : State) : DrawFree s (readBits n s) :=
  (fillTo_drawFree n n s).bind fun filled t => by
    cases filled with
    | false => exact .refl _ t
    | true => exact .done rfl rfl

theorem rdCode_drawFree (w : Nat) (s : State) : DrawFree s (rdCode w s) := by
  refine (readBits_drawFree w s).bind fun c t => ?_
  cases c with
  | none => exact .refl _ t
  | some c =>
    simp only
    split
    · exact NoDraw.draw ‹_›
    · exact .refl _ t

theorem rdHdr_drawFree (s : State) : DrawFree s (rdHdr s) := by
  refine (readBits_drawFree 8 s).bind fun b t => ?_
  cases b with
  | none => exact .refl _ t
  | some b =>
    simp only
    split
    · rename_i hd
      exact NoDraw.draw (Bool.and_eq_true_iff.1 hd).1
    · exact .refl _ t

/-! ### The compress commands -/

theorem encPolicy_drawFree (e : Option Str) (cand : Str) (s : State) :
    DrawFree s (.done () { encPolicy e s with cand := cand }) := by
  rw [encPolicy_frame]
  exact .done rfl rfl

theorem symMiss_drawFree (c : Byte) (s : State) : DrawFree s (symMiss c s) :=
  (candCode_drawFree s).bind fun code t =>
    (wrCode_drawFree code t.w t).bind fun _ u => encPolicy_drawFree (some (u.cand ++ [c])) [c] u

theorem symBody_drawFree (c : Byte) (s : State) : DrawFree s (symBody c s) := by
  unfold symBody
  split
  · exact .done rfl rfl
  · split
    · exact .done rfl rfl
    · exact symMiss_drawFree c { s with phase := .cBody }

theorem closeCandidate_drawFree (s : State) : DrawFree s (closeCandidate s) := by
  unfold closeCandidate
  split
  · exact .refl () s
  · exact (candCode_drawFree s).bind fun code t =>
      (wrCode_drawFree code t.w t).bind fun _ u => encPolicy_drawFree none [] u

theorem eofileBody_drawFree (s : State) : DrawFree s (eofileBody s) :=
  DrawFree.bind (closeCandidate_drawFree { s with phase := .cBody }) fun _ t => wrCode_drawFree _ t.w t

theorem finishBody_drawFree (s : State) : DrawFree s (finishBody s) := by
  unfold finishBody
  split
  · exact .raised _ _ s
  · exact (wrCode_drawFree 0 s.w s).bind fun _ t => (finalize_drawFree t).bind fun _ _ => .done rfl rfl

/-! ### The decompress commands -/

theorem hdrrdBody_drawFree (s : State) : DrawFree s (hdrrdBody s) :=
  (rdHdr_drawFree s).bind fun b _ => by
    cases b with
    | none => exact .done rfl rfl
    | some b => exact .done rfl rfl

theorem dstepPrime_drawFree (s : State) : DrawFree s (dstepPrime s) := by
  refine (rdCode_drawFree s.w s).bind fun c t => ?_
  cases c with
  | none => exact .done rfl rfl
  | some c =>
    simp only
    split
    · exact boundary_drawFree t
    · split
      · exact .raised _ _ t
      · exact .done rfl rfl

theorem completingByte_drawFree (n : Nat) (current : Str) (s : State) :
    DrawFree s (completingByte n current s) := by
  unfold completingByte
  split
  · exact (dictGet_drawFree n s).bind firstByte_drawFree
  · split
    · exact firstByte_drawFree current s
    · exact .raised _ _ s

theorem nextString_drawFree (n : Nat) (e : Str) (s : State) : DrawFree s (nextString n e s) := by
  unfold nextString
  split
  · exact dictGet_drawFree n s
  · exact .refl e s

theorem dstepArm_drawFree (n : Nat) (nxt : Str) (arm : PolicyArm) (s : State) :
    DrawFree s (dstepArm n nxt arm s) := by
  cases arm with
  | inserted => exact .done rfl rfl
  | grown => exact .done rfl rfl
  | reset => exact (emitString_drawFree nxt s).bind fun _ _ => .done rfl rfl

theorem decPolicy_noDraw (e : Str) (s : State) : NoDraw s (decPolicy e s).2 := by
  rw [decPolicy_frame]
  exact .of_eq rfl rfl

theorem dstepData_drawFree (n : Nat) (s : State) : DrawFree s (dstepData n s) :=
  (dictGet_drawFree s.cur s).bind fun current t =>
    (emitString_drawFree current t).bind fun _ u =>
      (completingByte_drawFree n current u).bind fun b v =>
        (nextString_drawFree n (current ++ [b]) v).bind fun nxt x =>
          (dstepArm_drawFree n nxt _ _).after (decPolicy_noDraw (current ++ [b]) x)

theorem dstepSentinel_drawFree (s : State) : DrawFree s (dstepSentinel s) :=
  (dictGet_drawFree s.cur s).bind fun current t =>
    (emitString_drawFree current t).bind fun _ u => (boundary_drawFree u).bind fun _ _ => .done rfl rfl

theorem dstepRun_drawFree (s : State) : DrawFree s (dstepRun s) := by
  refine (rdCode_drawFree s.w s).bind fun n t => ?_
  cases n with
  | none => exact .done rfl rfl
  | some n =>
    simp only
    split
    · exact dstepSentinel_drawFree t
    · exact dstepData_drawFree n t

theorem dstepBody_drawFree (s : State) : DrawFree s (dstepBody s) := by
  unfold dstepBody
  split
  · exact dstepPrime_drawFree { s with phase := .dBody }
  · exact dstepRun_drawFree { s with phase := .dBody }

/-! ### Every command -/

/-- A piece of pseudocode run from `s` leaves PRNG, however it ends. -/
abbrev KeepsPrng (s : State) (x : Res α) : Prop := Res.Post (fun _ t => t.prng = s.prng) (·.prng = s.prng) True x

theorem DrawFree.keepsPrng {x : Res α} (h : DrawFree s x) (hc : s.cfg.ciph = false) : KeepsPrng s x :=
  h.mono (fun _ _ k => k.2 hc) (fun _ k => k.2 hc) id

/-- With the cipher off only BEGIN and SRST write PRNG; SETCFG may turn the cipher on, and draws nothing. -/
theorem commandBody_keepsPrng {i : Instr} (hbegin : i ≠ .beginOp) (hsrst : i ≠ .srst) (hc : s.cfg.ciph = false) :
    KeepsPrng s (commandBody i s) := by
  cases i with
  | nop => exact rfl
  | setcfg opd =>
    refine (setcfgBody_cases opd s).mono (fun _ _ ht => ?_) (fun _ ht => ht ▸ rfl) False.elim
    obtain ⟨c, _, rfl⟩ := ht
    rfl
  | setkey k => exact rfl
  | setsrclen n => exact (setsrclenBody_cases n s).mono (fun _ _ ht => ht ▸ rfl) (fun _ ht => ht ▸ rfl) False.elim
  | beginOp => exact absurd rfl hbegin
  | srst => exact absurd rfl hsrst
  | hdrb b => exact (wrHdr_drawFree b s).keepsPrng hc
  | sym c => exact (symBody_drawFree c s).keepsPrng hc
  | eofile => exact (eofileBody_drawFree s).keepsPrng hc
  | finish => exact (finishBody_drawFree s).keepsPrng hc
  | hdrrd => exact (hdrrdBody_drawFree s).keepsPrng hc
  | dstep => exact (dstepBody_drawFree s).keepsPrng hc

/-- Settles O32: a word that is discarded or turned away leaves PRNG, and so does the pseudocode of every command but
BEGIN and SRST with the cipher off. -/
theorem noCipherNoDraw : Obligations.NoCipherNoDraw := by
  unfold Obligations.NoCipherNoDraw
  intro i s t hbegin hsrst hc h
  rcases exec_cases h (fun _ => commandBody_keepsPrng hbegin hsrst hc) with
    ⟨_, _, rfl⟩ | ⟨_, _, rfl⟩ | ⟨hi, _⟩ | ⟨_, _, k⟩
  · rfl
  · rfl
  · exact absurd hi hsrst
  · exact k.elim id id

end Sys2Proof.Machine
end

section
/-!
SUPPORT. The dictionary's policies by their arms, and `code_of` as the inverse of the table (44_dictionary R147 to R153).
-/

namespace Sys2Proof.Machine

variable {s : State}

/-! ### Lookups at and above DSIZE -/

/-- DICT has no entry at DSIZE or above (10_state R12). -/
theorem dictRead_eq_none {c : Nat} (h : s.dsize ≤ c) : dictRead c s = none :=
  if_neg h.not_gt

/-- The table after the optional insertion; with no entry, DSIZE stays undefined (44_dictionary R149). -/
theorem dictRead_insertOpt (e : Option Str) (h : 256 ≤ s.dsize) (c : Nat) :
    dictRead c (insertOpt e s) = if c = s.dsize then e else dictRead c s := by
  cases e with
  | some e => exact dictRead_insert e s h c
  | none =>
    split
    case isTrue hc => exact dictRead_eq_none hc.ge
    case isFalse => rfl

theorem insertOpt_dsize (e : Option Str) (s : State) :
    (insertOpt e s).dsize = s.dsize + (if e.isSome then 1 else 0) := by
  cases e <;> rfl

theorem insertOpt_w (e : Option Str) (s : State) : (insertOpt e s).w = s.w := by
  cases e <;> rfl

/-! ### The arms of the policies -/

theorem isFullEnc_iff : isFullEnc s = true ↔ 2 ^ s.w - 1 ≤ s.dsize := decide_eq_true_iff

theorem isFullDec_iff : isFullDec s = true ↔ 2 ^ s.w - 2 ≤ s.dsize := decide_eq_true_iff

theorem encPolicy_of_grow (e : Option Str) (hfull : 2 ^ s.w - 1 ≤ s.dsize) (hw : s.w < wmax s.cfg) :
    encPolicy e s = insertOpt e (growWidth s) := by
  rw [encPolicy, if_pos (isFullEnc_iff.2 hfull), if_pos hw]

theorem encPolicy_of_restart (e : Option Str) (hfull : 2 ^ s.w - 1 ≤ s.dsize) (hw : wmax s.cfg ≤ s.w) :
    encPolicy e s = dictRestart s := by
  rw [encPolicy, if_pos (isFullEnc_iff.2 hfull), if_neg hw.not_gt]

theorem encPolicy_of_room (e : Option Str) (hroom : s.dsize < 2 ^ s.w - 1) : encPolicy e s = insertOpt e s := by
  rw [encPolicy, if_neg (isFullEnc_iff.not.2 hroom.not_ge)]

theorem decPolicy_of_grow (e : Str) (hfull : 2 ^ s.w - 2 ≤ s.dsize) (hw : s.w < wmax s.cfg) :
    decPolicy e s = (.grown, dictInsert e (growWidth s)) := by
  rw [decPolicy, if_pos (isFullDec_iff.2 hfull), if_pos hw]

theorem decPolicy_of_reset (e : Str) (hfull : 2 ^ s.w - 2 ≤ s.dsize) (hw : wmax s.cfg ≤ s.w) :
    decPolicy e s = (.reset, s) := by
  rw [decPolicy, if_pos (isFullDec_iff.2 hfull), if_neg hw.not_gt]

theorem decPolicy_of_room (e : Str) (hroom : s.dsize < 2 ^ s.w - 2) : decPolicy e s = (.inserted, dictInsert e s) := by
  rw [decPolicy, if_neg (isFullDec_iff.not.2 hroom.not_ge)]

/-- Settles O43: each arm is one of the dictionary's operations, whose table is known. -/
theorem encPolicyRule : Obligations.EncPolicyRule := by
  unfold Obligations.EncPolicyRule
  rintro e s t h rfl
  refine ⟨encPolicy_frame e s, fun hfull hw => ?_, fun hfull hw => ?_, fun hroom => ?_⟩
  · rw [encPolicy_of_grow e hfull hw]
    exact ⟨insertOpt_w e (growWidth s), insertOpt_dsize e (growWidth s), dictRead_insertOpt (s := growWidth s) e h⟩
  · rw [encPolicy_of_restart e hfull hw]
    exact ⟨rfl, rfl, dictRead_restart s⟩
  · rw [encPolicy_of_room e hroom]
    exact ⟨insertOpt_w e s, insertOpt_dsize e s, dictRead_insertOpt e h⟩

/-- Settles O44: each arm inserts the entry, at the old or the next width, or leaves the state. -/
theorem decPolicyRule : Obligations.DecPolicyRule := by
  unfold Obligations.DecPolicyRule
  intro e s t arm h ht
  refine ⟨fun hfull hw => ?_, fun hfull hw => ?_, fun hroom => ?_⟩
  · rw [decPolicy_of_grow e hfull hw] at ht
    obtain ⟨rfl, rfl⟩ := Prod.mk.inj ht
    exact ⟨rfl, rfl, rfl, dictRead_insert e (growWidth s) h⟩
  · rw [decPolicy_of_reset e hfull hw] at ht
    exact Prod.mk.inj ht
  · rw [decPolicy_of_room e hroom] at ht
    obtain ⟨rfl, rfl⟩ := Prod.mk.inj ht
    exact ⟨rfl, rfl, rfl, dictRead_insert e s h⟩

/-! ### The inverse of the table -/

/-- In a compress pass an entry's string has a code, and injectivity makes it the entry's own (44_dictionary R152 c). -/
theorem Inv.codeOf_dictRead (h : Inv s) (hc : compressing s.phase) {str : Str} {c : Nat}
    (hr : dictRead c s = some str) : codeOf str s = some c := by
  cases hd : codeOf str s with
  | none => exact absurd hr (codeOf_none hd c)
  | some d => rw [h.dictInj hc c d str hr (h.codeOf_some hd)]

/-- Settles O45: `code_of` answers a code of the string whenever there is one, and there is at most one. -/
theorem codeOfRule : Obligations.CodeOfRule := by
  unfold Obligations.CodeOfRule
  exact ⟨fun _ _ _ h hc => ⟨h.codeOf_some, h.codeOf_dictRead hc⟩, codeOf_single⟩

/-- Settles O46: DSIZE is at most the sentinel, so no entry has its code, and `code_of` answers codes of entries only. -/
theorem sentinelNotEntry : Obligations.SentinelNotEntry := by
  unfold Obligations.SentinelNotEntry
  intro s h
  have hnone : dictRead (2 ^ s.w - 1) s = none := dictRead_eq_none h.dsize.2
  refine ⟨hnone, fun str hcode => ?_⟩
  rw [h.codeOf_some hcode] at hnone
  cases hnone

end Sys2Proof.Machine
end

section
/-!
SUPPORT. The compress commands (45_compress R160 to R163): each piece of pseudocode by its cases, the rules of HDRB,
SYM, EOFILE and FINISH assembled from them.
-/

namespace Sys2Proof.Machine

variable {s u : State} {i : Instr} {c : Byte} {p k : Nat}

/-! ### The phases of the compress commands (40_control R97) -/

theorem seqFault_of_legalPhases {op : Byte} {legal : List Phase}
    (hrow : ∀ i : Instr, i.opc = op → legalPhases i = legal) : seqFault op legal := by
  intro i s hop hp hl
  rw [exec_illegal hp (by rwa [hrow i hop]), hop]
  rfl

theorem legalPhases_of_hdrb (h : i.opc = 0x10) : legalPhases i = [.cHdr] := by
  cases i <;> simp_all [Instr.opc, legalPhases]

/-- SYM, EOFILE and FINISH are legal in both phases of a compress pass. -/
theorem legalPhases_of_compress (h : i.opc ∈ [0x11, 0x12, 0x13]) : legalPhases i = [.cHdr, .cBody] := by
  cases i <;> simp_all [Instr.opc, legalPhases]

theorem seqFault_of_compress {op : Byte} (hop : op ∈ [0x11, 0x12, 0x13]) : seqFault op [.cHdr, .cBody] :=
  seqFault_of_legalPhases fun _ h => legalPhases_of_compress (h ▸ hop)

theorem exec_of_compressing (hrow : legalPhases i = [.cHdr, .cBody]) (hp : compressing s.phase) :
    exec i s = (commandBody i s).outcome :=
  exec_legal (by simpa [hrow] using hp)

/-! ### HDRB (45_compress R160) -/

theorem exec_hdrb {b : Byte} (hp : s.phase = .cHdr) : exec (.hdrb b) s = (wrHdr b s).outcome :=
  exec_legal (i := .hdrb b) (by simp [hp, legalPhases])

/-- Settles O16: HDRB is the write of one header byte, which goes out whole or fills SNK. -/
theorem hdrbRule : Obligations.HdrbRule := by
  unfold Obligations.HdrbRule
  refine ⟨Laws.Fields.hdrb, fun b s hp hroom => ?_, fun b s hp hcap hfull => ?_, illcmdFault_of_opcode _,
    seqFault_of_legalPhases fun _ => legalPhases_of_hdrb⟩
  · rw [exec_hdrb hp, wrHdr_room hroom, Res.outcome_done]
  · rw [exec_hdrb hp, wrHdr_full hcap hfull, Res.outcome_raised]

/-! ### After a code that went out whole (41_bitcodestream R110) -/

theorem codeWritten_wrote {c w : Nat} (h : snkRoom (unitCost w s) s) :
    Wrote s (codeWritten c w s) ∧ (codeWritten c w s).wbuf.length < groupSize s.cfg := by
  have := wrCode_post c w s
  rwa [wrCode_room h] at this

theorem codeWritten_snkLen_le {c w : Nat} (h : snkRoom (unitCost w s) s) :
    (codeWritten c w s).snkLen ≤ s.params.snkCap.toNat :=
  (codeWritten_wrote h).1.cap ((Nat.le_add_right _ _).trans h)

theorem codeWritten_wbuf_short {c w : Nat} (h : snkRoom (unitCost w s) s) :
    (codeWritten c w s).wbuf.length < groupSize (codeWritten c w s).cfg :=
  (codeWritten_wrote h).2

/-! ### SYM (45_compress R161) -/

theorem exec_sym (hp : compressing s.phase) : exec (.sym c) s = (symBody c s).outcome :=
  exec_of_compressing rfl hp

theorem symBody_seed (h : s.cand = []) : symBody c s = .done () { s with phase := .cBody, cand := [c] } := if_pos h

theorem symBody_hit (hs : s.cand ≠ []) (h : codeOf (s.cand ++ [c]) s = some k) :
    symBody c s = .done () { s with phase := .cBody, cand := s.cand ++ [c] } := by
  rw [symBody, if_neg hs, if_pos (by simp [h])]

theorem symBody_miss (hs : s.cand ≠ []) (h : codeOf (s.cand ++ [c]) s = none) :
    symBody c s = symMiss c { s with phase := .cBody } := by
  rw [symBody, if_neg hs, if_neg (by simp [h])]

theorem symMiss_room (hcode : codeOf s.cand s = some p) (h : snkRoom (unitCost s.w s) s) :
    symMiss c s = .done () { encPolicy (some (s.cand ++ [c])) (codeWritten p s.w s) with cand := [c] } := by
  rw [symMiss, candCode_some hcode, Res.bind_done, wrCode_room h]
  rfl

theorem symMiss_full (hcode : codeOf s.cand s = some p) (hcap : s.snkLen ≤ s.params.snkCap.toNat)
    (h : ¬ snkRoom (unitCost s.w s) s) : symMiss c s = .raised (codeOverflow p s.w s) := by
  rw [symMiss, candCode_some hcode, Res.bind_done, wrCode_full hcap h, Res.bind_raised]

/-- Settles O17: the seed, the hit, and the miss by whether SNK has room for the code of S. -/
theorem symRule : Obligations.SymRule := by
  unfold Obligations.SymRule
  refine ⟨fun c s hp hs => ?_, fun c s k hp hs hk => ?_, fun c s p hp hs hk hcode hroom => ?_,
    fun c s p hp hs hk hcode hcap hfull => ?_, illcmdFault_of_opcode _, seqFault_of_compress (by decide)⟩
  · rw [exec_sym hp, symBody_seed hs, Res.outcome_done]
  · rw [exec_sym hp, symBody_hit hs hk, Res.outcome_done]
  · rw [exec_sym hp, symBody_miss hs hk, symMiss_room (s := { s with phase := .cBody }) hcode hroom, Res.outcome_done]
  · rw [exec_sym hp, symBody_miss hs hk, symMiss_full (s := { s with phase := .cBody }) hcode hcap hfull,
      Res.outcome_raised]

/-! ### EOFILE (45_compress R162) -/

theorem exec_eofile (hp : compressing s.phase) : exec .eofile s = (eofileBody s).outcome :=
  exec_of_compressing rfl hp

/-- The state in which EOFILE writes the sentinel when S was the string of `p`: the code is out, the policy has run
with nothing to insert, S is empty. -/
def candidateClosed (p : Nat) (s : State) : State := { encPolicy none (codeWritten p s.w s) with cand := [] }

theorem candidateClosed_snkLen_le (h : snkRoom (unitCost s.w s) s) :
    (candidateClosed p s).snkLen ≤ (candidateClosed p s).params.snkCap.toNat := by
  rw [candidateClosed, encPolicy_frame]
  exact codeWritten_snkLen_le h

theorem closeCandidate_nil (h : s.cand = []) : closeCandidate s = .done () s := if_pos h

theorem closeCandidate_room (hs : s.cand ≠ []) (hcode : codeOf s.cand s = some p)
    (h : snkRoom (unitCost s.w s) s) : closeCandidate s = .done () (candidateClosed p s) := by
  rw [closeCandidate, if_neg hs, candCode_some hcode, Res.bind_done, wrCode_room h]
  rfl

theorem closeCandidate_full (hs : s.cand ≠ []) (hcode : codeOf s.cand s = some p)
    (hcap : s.snkLen ≤ s.params.snkCap.toNat) (h : ¬ snkRoom (unitCost s.w s) s) :
    closeCandidate s = .raised (codeOverflow p s.w s) := by
  rw [closeCandidate, if_neg hs, candCode_some hcode, Res.bind_done, wrCode_full hcap h, Res.bind_raised]

/-- Once the candidate is closed, EOFILE is the write of the sentinel of the width then in force. -/
theorem eofileBody_of_closed (hclose : closeCandidate { s with phase := .cBody } = .done () u) :
    eofileBody s = wrCode (2 ^ u.w - 1) u.w u := by
  rw [eofileBody, hclose]
  rfl

theorem eofileBody_room (hclose : closeCandidate { s with phase := .cBody } = .done () u)
    (h : snkRoom (unitCost u.w u) u) : eofileBody s = .done () (codeWritten (2 ^ u.w - 1) u.w u) := by
  rw [eofileBody_of_closed hclose, wrCode_room h]

theorem eofileBody_full (hclose : closeCandidate { s with phase := .cBody } = .done () u)
    (hcap : u.snkLen ≤ u.params.snkCap.toNat) (h : ¬ snkRoom (unitCost u.w u) u) :
    eofileBody s = .raised (codeOverflow (2 ^ u.w - 1) u.w u) := by
  rw [eofileBody_of_closed hclose, wrCode_full hcap h]

theorem eofileBody_of_overflow (h : closeCandidate { s with phase := .cBody } = .raised u) :
    eofileBody s = .raised u := by
  rw [eofileBody, h, Res.bind_raised]

/-- Settles O18: EOFILE closes the candidate and writes the sentinel, and either may fill SNK. -/
theorem eofileRule : Obligations.EofileRule := by
  unfold Obligations.EofileRule
  refine ⟨by decide, fun s hp hs => ?_, fun s p hp hs hcode => ?_, illcmdFault_of_opcode _,
    seqFault_of_compress (by decide)⟩
  · have hclose := closeCandidate_nil (s := { s with phase := .cBody }) hs
    rw [exec_eofile hp]
    refine ⟨fun hroom => ?_, fun hcap hfull => ?_⟩
    · rw [eofileBody_room hclose hroom, Res.outcome_done]
    · rw [eofileBody_full hclose hcap hfull, Res.outcome_raised]
  · rw [exec_eofile hp]
    refine ⟨fun hcap hfull => ?_, fun v hv hcodeRoom => ?_⟩
    · rw [eofileBody_of_overflow (closeCandidate_full (s := { s with phase := .cBody }) hs hcode hcap hfull),
        Res.outcome_raised]
    · obtain rfl : v = candidateClosed p { s with phase := .cBody } := hv
      have hclose := closeCandidate_room (s := { s with phase := .cBody }) hs hcode hcodeRoom
      refine ⟨fun hroom => ?_, fun hfull => ?_⟩
      · rw [eofileBody_room hclose hroom, Res.outcome_done]
      · rw [eofileBody_full hclose (candidateClosed_snkLen_le hcodeRoom) hfull, Res.outcome_raised]

/-! ### FINISH (45_compress R163) -/

theorem exec_finish (hp : compressing s.phase) : exec .finish s = (finishBody s).outcome :=
  exec_of_compressing rfl hp

theorem finishBody_open (h : s.cand ≠ []) : finishBody s = .raised (raise .seq 0x13 s) := if_pos h

theorem finishBody_full (hs : s.cand = []) (hcap : s.snkLen ≤ s.params.snkCap.toNat)
    (h : ¬ snkRoom (unitCost s.w s) s) : finishBody s = .raised (codeOverflow 0 s.w s) := by
  rw [finishBody, if_neg (not_not.2 hs), wrCode_full hcap h, Res.bind_raised]

/-- With the trailing code out, FINISH is the flush and the change to DONE. -/
theorem finishBody_room (hs : s.cand = []) (h : snkRoom (unitCost s.w s) s) :
    finishBody s = (finalize (codeWritten 0 s.w s)).bind fun _ u => .done () { u with phase := .done } := by
  rw [finishBody, if_neg (not_not.2 hs), wrCode_room h, Res.bind_done]

/-- Settles O19: a file open, the trailing code without room, and the flush with and without room. -/
theorem finishRule : Obligations.FinishRule := by
  unfold Obligations.FinishRule
  refine ⟨by decide, fun s hp hs => ?_, fun s hp hs hcap hfull => ?_, ?_, illcmdFault_of_opcode _,
    seqFault_of_compress (by decide)⟩
  · rw [exec_finish hp, finishBody_open hs]
    rfl
  · rw [exec_finish hp, finishBody_full hs hcap hfull, Res.outcome_raised]
  · rintro s u tail hp hs hcodeRoom rfl rfl
    have hshort := codeWritten_wbuf_short (c := 0) hcodeRoom
    rw [exec_finish hp, finishBody_room hs hcodeRoom]
    refine ⟨fun hroom => ?_, fun hfull => ?_⟩
    · rw [finalize_room hshort hroom]
      rfl
    · rw [finalize_full hshort (codeWritten_snkLen_le hcodeRoom) hfull]
      exact ⟨_, rfl⟩

end Sys2Proof.Machine
end

section
/-!
SUPPORT. What the compress commands leave unchanged (45_compress R160 to R163, 20_memory R43), from any state and however
they end.
-/

namespace Sys2Proof.Machine

variable {s t u : State} {i : Instr}

/-- A command ends in a state that meets `P` when its pseudocode does, however it ends, and being turned away does. -/
theorem exec_ends {P : State → Prop} (hi : i ≠ .srst) (h : exec i s = .next t) (hfault : ∀ t, FaultOnly s t → P t)
    (hb : Res.Post (fun _ => P) P True (commandBody i s)) : P t := by
  by_cases hl : s.phase ∈ legalPhases i
  · rw [exec_legal hl] at h
    exact (hb.of_next h).elim (fun ⟨_, ht⟩ => ht) id
  · exact hfault t (exec_turned_away hi hl h)

/-! ### HDRB and FINISH -/

/-- `t` comes from `s` through the write side, and then by a change of PHASE, ERR and ERRINFO at most. -/
def WroteOnly (s t : State) : Prop := ∃ u, Wrote s u ∧ FaultOnly u t

theorem FaultOnly.wroteOnly (h : FaultOnly s t) : WroteOnly s t := ⟨s, Wrote.refl s, h⟩

theorem SnkOverflow.wroteOnly (h : SnkOverflow s t) : WroteOnly s t := by
  obtain ⟨u, hu, rfl⟩ := h
  exact ⟨u, hu, .raise _ _ u⟩

theorem WroteOnly.frame (h : WroteOnly s t) :
    t = { s with wbuf := t.wbuf, prng := t.prng, snk := t.snk, snkLen := t.snkLen, phase := t.phase, err := t.err,
                 errinfo := t.errinfo } ∧
      s.snkLen ≤ t.snkLen ∧
      ∀ a, a < s.snkLen ∨ t.snkLen ≤ a → Store.read (α := Byte) t.snk a = Store.read (α := Byte) s.snk a := by
  obtain ⟨u, hu, _, _, _, rfl⟩ := h
  refine ⟨?_, hu.grows, hu.kept⟩
  rw [hu.frame]

theorem wrHdr_wroteOnly (b : Byte) (s : State) : Res.Post (fun _ => WroteOnly s) (WroteOnly s) True (wrHdr b s) :=
  (wrHdr_post b s).mono (fun _ t ht => ⟨t, ht.1, .refl t⟩) (fun _ hr => hr.wroteOnly) False.elim

theorem finishBody_wroteOnly (s : State) : Res.Post (fun _ => WroteOnly s) (WroteOnly s) True (finishBody s) := by
  unfold finishBody
  split
  · exact (FaultOnly.raise _ _ s).wroteOnly
  · refine Res.Post.bind (wrCode_post 0 s.w s) (fun _ t ⟨ht, _⟩ => ?_) (fun _ hr => hr.wroteOnly) False.elim
    refine Res.Post.bind (finalize_post t) (fun _ u ⟨hu, _⟩ => ?_) (fun _ hr => (hr.after ht).wroteOnly) False.elim
    exact ⟨u, ht.trans hu, _, _, _, rfl⟩

/-! ### SYM and EOFILE -/

/-- `t` comes from `s` by appending to SNK and changing the registers of the compressor only; the bytes of SNK outside
the new part read as before. -/
structure CompressFrame (s t : State) : Prop where
  frame : t = { s with wbuf := t.wbuf, prng := t.prng, snk := t.snk, snkLen := t.snkLen, phase := t.phase, err := t.err,
                       errinfo := t.errinfo, w := t.w, dsize := t.dsize, dict := t.dict, cand := t.cand }
  grows : s.snkLen ≤ t.snkLen
  kept : ∀ a, a < s.snkLen ∨ t.snkLen ≤ a → Store.read (α := Byte) t.snk a = Store.read (α := Byte) s.snk a

namespace CompressFrame

/-- A change of registers that leaves SNK. -/
theorem of_registers
    (hframe : t = { s with phase := t.phase, err := t.err, errinfo := t.errinfo, w := t.w, dsize := t.dsize,
                           dict := t.dict, cand := t.cand }) : CompressFrame s t := by
  rw [hframe]
  exact ⟨rfl, le_rfl, fun _ _ => rfl⟩

theorem trans (h : CompressFrame s t) (h' : CompressFrame t u) : CompressFrame s u where
  frame := by
    have h1 := h.frame
    have h2 := h'.frame
    rw [h1] at h2
    exact h2
  grows := h.grows.trans h'.grows
  kept a ha := by
    have h1 := h.grows
    have h2 := h'.grows
    rw [h'.kept a (by omega), h.kept a (by omega)]

end CompressFrame

theorem FaultOnly.compressFrame (h : FaultOnly s t) : CompressFrame s t := by
  obtain ⟨_, _, _, rfl⟩ := h
  exact .of_registers rfl

theorem Wrote.compressFrame (h : Wrote s t) : CompressFrame s t where
  frame := by rw [h.frame]
  grows := h.grows
  kept := h.kept

/-- A piece of pseudocode run from `s` stays within the compressor's frame, however it ends. -/
abbrev Compresses (s : State) (x : Res Unit) : Prop :=
  Res.Post (fun _ => CompressFrame s) (CompressFrame s) True x

theorem Compresses.after {x : Res Unit} (hx : Compresses t x) (h : CompressFrame s t) : Compresses s x :=
  hx.mono (fun _ _ hu => h.trans hu) (fun _ hu => h.trans hu) id

theorem Compresses.bind {x : Res Unit} {f : Unit → State → Res Unit} (h : Compresses s x)
    (hf : ∀ t, Compresses t (f () t)) : Compresses s (x.bind f) :=
  Res.Post.bind h (fun _ t ht => (hf t).after ht) (fun _ hr => hr) id

theorem wrCode_compresses (c w : Nat) (s : State) : Compresses s (wrCode c w s) :=
  (wrCode_post c w s).mono (fun _ _ ht => ht.1.compressFrame)
    (fun _ ⟨u, hu, ht⟩ => ht ▸ hu.compressFrame.trans (FaultOnly.raise _ _ u).compressFrame) False.elim

theorem encPolicy_compresses (e : Option Str) (cand : Str) (s : State) :
    Compresses s (.done () { encPolicy e s with cand := cand }) := by
  rw [encPolicy_frame]
  exact .of_registers rfl

/-- What follows runs from `s` with the candidate's code; a candidate that is no key stops the model. -/
theorem candCode_bind_compresses {f : Nat → State → Res Unit} (h : ∀ code, Compresses s (f code s)) :
    Compresses s ((candCode s).bind f) := by
  unfold candCode
  split
  · exact h _
  · trivial

theorem symMiss_compresses (c : Byte) (s : State) : Compresses s (symMiss c s) :=
  candCode_bind_compresses fun code =>
    (wrCode_compresses code s.w s).bind fun t => encPolicy_compresses (some (t.cand ++ [c])) [c] t

theorem symBody_compresses (c : Byte) (s : State) : Compresses s (symBody c s) := by
  unfold symBody
  split
  · exact .of_registers rfl
  · split
    · exact .of_registers rfl
    · exact (symMiss_compresses c { s with phase := .cBody }).after (.of_registers rfl)

theorem closeCandidate_compresses (s : State) : Compresses s (closeCandidate s) := by
  unfold closeCandidate
  split
  · exact .of_registers rfl
  · exact candCode_bind_compresses fun code =>
      (wrCode_compresses code s.w s).bind fun t => encPolicy_compresses none [] t

theorem eofileBody_compresses (s : State) : Compresses s (eofileBody s) :=
  ((closeCandidate_compresses { s with phase := .cBody }).after (.of_registers rfl)).bind fun t =>
    wrCode_compresses _ t.w t

/-- Settles O26: HDRB and FINISH only write and end or fault; SYM and EOFILE also run the policy and set S. -/
theorem frameCompress : Obligations.FrameCompress := by
  unfold Obligations.FrameCompress
  refine fun s t => ⟨fun h => WroteOnly.frame ?_, fun h => ?_⟩
  · obtain ⟨b, h⟩ | h := h
    · exact exec_ends (by simp) h (fun _ => FaultOnly.wroteOnly) (wrHdr_wroteOnly b s)
    · exact exec_ends (by simp) h (fun _ => FaultOnly.wroteOnly) (finishBody_wroteOnly s)
  · have hf : CompressFrame s t := by
      obtain ⟨c, h⟩ | h := h
      · exact exec_ends (by simp) h (fun _ => FaultOnly.compressFrame) (symBody_compresses c s)
      · exact exec_ends (by simp) h (fun _ => FaultOnly.compressFrame) (eofileBody_compresses s)
    exact ⟨hf.frame, hf.grows, hf.kept⟩

end Sys2Proof.Machine
end

section
/-!
SUPPORT. The decompress commands (46_decompress R175 to R177): each piece of pseudocode by its cases, the rules of HDRRD
and DSTEP assembled from them.
-/

namespace Sys2Proof.Machine

variable {s : State} {i : Instr} {c k n : Nat} {b : Byte} {current nxt : Str}

/-! ### The phases of the decompress commands (40_control R97) -/

theorem legalPhases_of_hdrrd (h : i.opc = 0x20) : legalPhases i = [.dHdr] := by
  cases i <;> simp_all [Instr.opc, legalPhases]

theorem legalPhases_of_dstep (h : i.opc = 0x21) : legalPhases i = [.dHdr, .dBody] := by
  cases i <;> simp_all [Instr.opc, legalPhases]

/-! ### HDRRD (46_decompress R175) -/

theorem exec_hdrrd (hp : s.phase = .dHdr) : exec .hdrrd s = (hdrrdBody s).outcome :=
  exec_legal (i := .hdrrd) (by simp [hp, legalPhases])

theorem hdrrdBody_byte (hl : readable 8 s) (h : hdrAhead s = some b) :
    hdrrdBody s = .done () { hdrRead s with result := resultValid b } := by
  rw [hdrrdBody, rdHdr_some hl h, Res.bind_done]

theorem hdrrdBody_end (hl : readable 8 s) (h : hdrAhead s = none) :
    hdrrdBody s = .done () { pullEnd s with result := 0 } := by
  rw [hdrrdBody, rdHdr_none hl h, Res.bind_done]

theorem hdrrdBody_bad (h : firstBad 8 k s) : hdrrdBody s = .raised (pullBad k s) := by
  rw [hdrrdBody, rdHdr_bad h, Res.bind_raised]

/-- Settles O20: HDRRD is one header read, which gives a byte, meets END, or meets an illegal symbol. -/
theorem hdrrdRule : Obligations.HdrrdRule := by
  unfold Obligations.HdrrdRule
  refine ⟨by decide, fun b s hp hl h => ?_, fun s hp hl h => ?_, fun k s hp h => ?_, illcmdFault_of_opcode _,
    seqFault_of_legalPhases fun _ => legalPhases_of_hdrrd⟩
  · rw [exec_hdrrd hp, hdrrdBody_byte hl h]
    rfl
  · rw [exec_hdrrd hp, hdrrdBody_end hl h, Res.outcome_done]
  · rw [exec_hdrrd hp, hdrrdBody_bad h, Res.outcome_raised]

/-! ### DSTEP reads a code first -/

/-- `s` when DSTEP has read a code and turns to what the code means: in D_BODY, the code taken off the stream. -/
def stepRead (s : State) : State := { codeRead s with phase := .dBody }

theorem exec_dstep (hp : decompressing s.phase) : exec .dstep s = (dstepBody s).outcome :=
  exec_legal (i := .dstep) (by simpa [legalPhases] using hp)

/-- What DSTEP makes of the code `c` in state PRIME (46_decompress R176). -/
def currentCode (c : Nat) (s : State) : Res Unit :=
  if c = sentinel s.w then outAppend boundaryToken s
  else if s.dsize ≤ c then .raised (raise .unkcode (unkInfo c s.w) s)
  else .done () { s with cur := c, dstate := .run }

/-- What DSTEP makes of the code `n` in state RUN (46_decompress R177). -/
def nextCode (n : Nat) (s : State) : Res Unit := if n = sentinel s.w then dstepSentinel s else dstepData n s

/-- What DSTEP makes of what it has read, by the DSTATE it reads in. -/
def useCode : DState → Option Nat → State → Res Unit
  | _, none, s => .done () { s with phase := .done }
  | .prime, some c, s => currentCode c s
  | .run, some n, s => nextCode n s

/-- DSTEP reads a code at the width in force and then uses it (46_decompress R176, R177). -/
theorem dstepBody_eq {d : DState} (hd : s.dstate = d) :
    dstepBody s = (rdCode s.w { s with phase := .dBody }).bind (useCode d) := by
  unfold dstepBody
  split <;> rename_i h
  · obtain rfl := h.symm.trans hd
    exact congrArg (Res.bind _) (funext fun c => funext fun t => by cases c <;> rfl)
  · obtain rfl := h.symm.trans hd
    exact congrArg (Res.bind _) (funext fun c => funext fun t => by cases c <;> rfl)

/-- At END the pass is over, in PRIME and in RUN (46_decompress R176, R177). -/
theorem exec_dstep_end (hp : decompressing s.phase) (hl : readable s.w s) (h : codeAhead s = none) :
    exec .dstep s = .next { pullEnd s with phase := .done } := by
  rw [exec_dstep hp, dstepBody_eq rfl, rdCode_none (s := { s with phase := .dBody }) hl h]
  rfl

theorem exec_dstep_bad (hp : decompressing s.phase) (h : firstBad s.w k s) : exec .dstep s = .next (pullBad k s) := by
  rw [exec_dstep hp, dstepBody_eq rfl, rdCode_bad (s := { s with phase := .dBody }) h]
  rfl

/-- With a code ahead DSTEP takes it off the stream and uses it. -/
theorem exec_dstep_code {d : DState} (hp : decompressing s.phase) (hd : s.dstate = d) (hl : readable s.w s)
    (h : codeAhead s = some c) : exec .dstep s = (useCode d (some c) (stepRead s)).outcome := by
  rw [exec_dstep hp, dstepBody_eq hd, rdCode_some (s := { s with phase := .dBody }) hl h]
  rfl

/-! ### DSTEP in state PRIME (46_decompress R176) -/

theorem outAppend_room {x : Token} (h : outRoom 1 s) : outAppend x s = .done () (outExtend [x] s) := by
  rw [outAppend_eq x s ((Nat.le_add_right _ _).trans h), if_pos h]

theorem currentCode_sentinel_room (h : outRoom 1 s) :
    currentCode (2 ^ s.w - 1) s = .done () (outExtend [boundaryToken] s) :=
  (if_pos rfl).trans (outAppend_room h)

theorem currentCode_sentinel_full (h : s.outLen = s.params.outCap.toNat) :
    currentCode (2 ^ s.w - 1) s = .raised (raise .ovf 1 s) :=
  (if_pos rfl).trans (if_pos h)

theorem currentCode_unknown (hc : c ≠ 2 ^ s.w - 1) (h : s.dsize ≤ c) :
    currentCode c s = .raised (raise .unkcode (unkInfo c s.w) s) :=
  (if_neg hc).trans (if_pos h)

theorem currentCode_known (hc : c ≠ 2 ^ s.w - 1) (h : c < s.dsize) :
    currentCode c s = .done () { s with cur := c, dstate := .run } :=
  (if_neg hc).trans (if_neg h.not_ge)

/-- Settles O21: in PRIME the code read is END, the sentinel, unknown, or the new CURRENT. -/
theorem dstepPrimeRule : Obligations.DstepPrimeRule := by
  unfold Obligations.DstepPrimeRule
  refine ⟨by decide, fun s hp _ hl h => exec_dstep_end hp hl h,
    fun s hp hd hl h => ⟨fun hroom => ?_, fun hfull => ?_⟩, fun c s hp hd hl h hc => ⟨fun hlt => ?_, fun hge => ?_⟩,
    fun k s hp _ h => exec_dstep_bad hp h, illcmdFault_of_opcode _,
    seqFault_of_legalPhases fun _ => legalPhases_of_dstep⟩ <;> rw [exec_dstep_code hp hd hl h]
  · exact congrArg Res.outcome (currentCode_sentinel_room (s := stepRead s) hroom)
  · exact congrArg Res.outcome (currentCode_sentinel_full (s := stepRead s) hfull)
  · exact congrArg Res.outcome (currentCode_known (s := stepRead s) hc hlt)
  · exact congrArg Res.outcome (currentCode_unknown (s := stepRead s) hc hge)

/-! ### Strings into OUT (20_memory R43) -/

theorem emitString_room {str : Str} (h : outRoom str.length s) :
    emitString str s = .done () (outExtend (tokensOf str) s) := by
  rw [emitString_eq str s ((Nat.le_add_right _ _).trans h), if_pos h]

theorem emitString_full {str : Str} (hcap : s.outLen ≤ s.params.outCap.toNat) (h : ¬ outRoom str.length s) :
    emitString str s = .raised (outOverflow (tokensOf str) s) := by
  rw [emitString_eq str s hcap, if_neg h]

@[simp] theorem tokensOf_length (str : Str) : (tokensOf str).length = str.length := List.length_map ..

theorem tokensOf_append (as bs : Str) : tokensOf (as ++ bs) = tokensOf as ++ tokensOf bs := List.map_append ..

/-- OUT fills within the first tokens, whatever was to follow. -/
theorem outOverflow_append {as bs : List Token} (h : ¬ outRoom as.length s) :
    outOverflow (as ++ bs) s = outOverflow as s := by
  unfold outRoom at h
  rw [outOverflow, outOverflow, List.take_append_of_le_length (by omega)]

/-- OUT fills after the first tokens went out whole. -/
theorem outOverflow_outExtend {as bs : List Token} (h : outRoom as.length s) :
    outOverflow bs (outExtend as s) = outOverflow (as ++ bs) s := by
  unfold outRoom at h
  have hfirst : as.take (s.params.outCap.toNat - s.outLen) = as := List.take_of_length_le (by omega)
  rw [outOverflow, outOverflow, List.take_append, hfirst, outExtend_append, Nat.sub_sub]
  rfl

theorem outRoom_outExtend {as : List Token} : outRoom k (outExtend as s) ↔ outRoom (as.length + k) s := by
  rw [outRoom, outRoom, outExtend_outLen, outExtend_params, Nat.add_assoc]

/-! ### DSTEP in state RUN: END, the sentinel, an illegal symbol (46_decompress R177) -/

theorem dstepSentinel_room (hcur : dictRead s.cur s = some current) (h : outRoom (current.length + 1) s) :
    dstepSentinel s =
      .done () { outExtend (tokensOf current ++ [boundaryToken]) s with cur := 0, dstate := .prime } := by
  have hstr : outRoom current.length s := (Nat.le_succ _).trans h
  have hend : outRoom 1 (outExtend (tokensOf current) s) := outRoom_outExtend.2 (by rwa [tokensOf_length])
  rw [dstepSentinel, dictGet_some hcur, Res.bind_done, emitString_room hstr, Res.bind_done, outAppend_room hend,
    ← outExtend_append]
  rfl

theorem dstepSentinel_full (hcur : dictRead s.cur s = some current) (hcap : s.outLen ≤ s.params.outCap.toNat)
    (h : ¬ outRoom (current.length + 1) s) :
    dstepSentinel s = .raised (outOverflow (tokensOf current ++ [boundaryToken]) s) := by
  rw [dstepSentinel, dictGet_some hcur, Res.bind_done]
  by_cases hstr : outRoom current.length s
  · have hend : ¬ outRoom 1 (outExtend (tokensOf current) s) :=
      mt outRoom_outExtend.1 (by rwa [tokensOf_length])
    have hcap' : (outExtend (tokensOf current) s).outLen ≤ (outExtend (tokensOf current) s).params.outCap.toNat := by
      simpa using hstr
    rw [emitString_room hstr, Res.bind_done, outAppend_eq _ _ hcap', if_neg hend, Res.bind_raised,
      outOverflow_outExtend (by rwa [tokensOf_length])]
  · rw [emitString_full hcap hstr, Res.bind_raised, outOverflow_append (by rwa [tokensOf_length])]

theorem exec_dstep_sentinel (hp : decompressing s.phase) (hd : s.dstate = .run) (hl : readable s.w s)
    (h : codeAhead s = some (2 ^ s.w - 1)) : exec .dstep s = (dstepSentinel (stepRead s)).outcome :=
  (exec_dstep_code hp hd hl h).trans (congrArg Res.outcome (if_pos rfl))

/-- Settles O22: in RUN the pass ends at END, a file at the sentinel with CURRENT's string first, and an illegal symbol
faults. -/
theorem dstepRunEnds : Obligations.DstepRunEnds := by
  unfold Obligations.DstepRunEnds
  refine ⟨fun s hp _ hl h => exec_dstep_end hp hl h,
    fun s current hp hd hl h hcur => ⟨fun hroom => ?_, fun hcap hfull => ?_⟩,
    fun k s hp _ h => exec_dstep_bad hp h⟩ <;>
    rw [exec_dstep_sentinel hp hd hl h]
  · exact congrArg Res.outcome (dstepSentinel_room (s := stepRead s) hcur hroom)
  · exact congrArg Res.outcome (dstepSentinel_full (s := stepRead s) hcur hcap hfull)

/-! ### DSTEP in state RUN: a data code (46_decompress R177) -/

/-- The data code `n` stands for the string `nxt`, whose first byte `b` completes the entry that `current` begins: it is
a known entry, or the one that is just being completed. -/
def NextIs (s : State) (current : Str) (n : Nat) (nxt : Str) (b : Byte) : Prop :=
  (n < s.dsize ∧ dictRead n s = some nxt ∧ nxt.head? = some b) ∨
    (n = s.dsize ∧ current.head? = some b ∧ nxt = current ++ [b])

theorem exec_dstep_data (hp : decompressing s.phase) (hd : s.dstate = .run) (hl : readable s.w s)
    (h : codeAhead s = some n) (hn : n ≠ 2 ^ s.w - 1) : exec .dstep s = (dstepData n (stepRead s)).outcome :=
  (exec_dstep_code hp hd hl h).trans (congrArg Res.outcome (if_neg hn))

theorem dstepData_full (hcur : dictRead s.cur s = some current) (hcap : s.outLen ≤ s.params.outCap.toNat)
    (h : ¬ outRoom current.length s) : dstepData n s = .raised (outOverflow (tokensOf current) s) := by
  rw [dstepData, dictGet_some hcur, Res.bind_done, emitString_full hcap h, Res.bind_raised]

theorem dstepData_unknown (hcur : dictRead s.cur s = some current) (h : outRoom current.length s)
    (hn : s.dsize < n) :
    dstepData n s = .raised (raise .unkcode (unkInfo n s.w) (outExtend (tokensOf current) s)) := by
  have hbyte : completingByte n current (outExtend (tokensOf current) s) =
      .raised (raise .unkcode (unkInfo n s.w) (outExtend (tokensOf current) s)) :=
    (if_neg hn.le.not_gt).trans (if_neg hn.ne')
  rw [dstepData, dictGet_some hcur, Res.bind_done, emitString_room h, Res.bind_done, hbyte, Res.bind_raised]

theorem firstByte_of_head? {e : Str} (h : e.head? = some b) : firstByte e s = .done b s := by
  obtain ⟨rest, rfl⟩ := List.head?_eq_some_iff.1 h
  rfl

theorem NextIs.completingByte (h : NextIs s current n nxt b) : completingByte n current s = .done b s := by
  rcases h with ⟨hn, hread, hb⟩ | ⟨rfl, hb, rfl⟩
  · rw [Machine.completingByte, if_pos hn, dictGet_some hread, Res.bind_done, firstByte_of_head? hb]
  · rw [Machine.completingByte, if_neg (lt_irrefl _), if_pos rfl, firstByte_of_head? hb]

theorem NextIs.nextString (h : NextIs s current n nxt b) : nextString n (current ++ [b]) s = .done nxt s := by
  rcases h with ⟨hn, hread, _⟩ | ⟨rfl, _, rfl⟩
  · rw [Machine.nextString, if_pos hn, dictGet_some hread]
  · rw [Machine.nextString, if_neg (lt_irrefl _)]

/-- With CURRENT's string out and NEXT's string known, what is left of the step is the arm that the policy takes. -/
theorem dstepData_next (hcur : dictRead s.cur s = some current) (h : outRoom current.length s)
    (hn : NextIs s current n nxt b) :
    dstepData n s =
      dstepArm n nxt (decPolicy (current ++ [b]) (outExtend (tokensOf current) s)).1
        (decPolicy (current ++ [b]) (outExtend (tokensOf current) s)).2 := by
  have hn' : NextIs (outExtend (tokensOf current) s) current n nxt b := hn
  rw [dstepData, dictGet_some hcur, Res.bind_done, emitString_room h, Res.bind_done, hn'.completingByte, Res.bind_done,
    hn'.nextString, Res.bind_done]

theorem dstepData_inserted (hcur : dictRead s.cur s = some current) (h : outRoom current.length s)
    (hn : NextIs s current n nxt b) (hroom : s.dsize < 2 ^ s.w - 2) :
    dstepData n s = .done () { dictInsert (current ++ [b]) (outExtend (tokensOf current) s) with cur := n } := by
  rw [dstepData_next hcur h hn, decPolicy_of_room (s := outExtend (tokensOf current) s) _ hroom]
  rfl

theorem dstepData_grown (hcur : dictRead s.cur s = some current) (h : outRoom current.length s)
    (hn : NextIs s current n nxt b) (hfull : 2 ^ s.w - 2 ≤ s.dsize) (hw : s.w < wmax s.cfg) :
    dstepData n s =
      .done () { dictInsert (current ++ [b]) (growWidth (outExtend (tokensOf current) s)) with cur := n } := by
  rw [dstepData_next hcur h hn, decPolicy_of_grow (s := outExtend (tokensOf current) s) _ hfull hw]
  rfl

/-- In the reset arm NEXT's string goes out too, before the table restarts. -/
theorem dstepData_reset (hcur : dictRead s.cur s = some current) (h : outRoom current.length s)
    (hn : NextIs s current n nxt b) (hfull : 2 ^ s.w - 2 ≤ s.dsize) (hw : wmax s.cfg ≤ s.w) :
    dstepData n s =
      (emitString nxt (outExtend (tokensOf current) s)).bind fun _ u =>
        .done () { dictRestart u with cur := 0, dstate := .prime } := by
  rw [dstepData_next hcur h hn, decPolicy_of_reset (s := outExtend (tokensOf current) s) _ hfull hw]
  rfl

theorem dstepData_reset_room (hcur : dictRead s.cur s = some current) (hn : NextIs s current n nxt b)
    (hfull : 2 ^ s.w - 2 ≤ s.dsize) (hw : wmax s.cfg ≤ s.w) (h : outRoom (current ++ nxt).length s) :
    dstepData n s =
      .done () { dictRestart (outExtend (tokensOf (current ++ nxt)) s) with cur := 0, dstate := .prime } := by
  rw [List.length_append] at h
  have hfirst : outRoom current.length s := (Nat.add_le_add_left (Nat.le_add_right _ _) _).trans h
  have hnext : outRoom nxt.length (outExtend (tokensOf current) s) :=
    outRoom_outExtend.2 (by rwa [tokensOf_length])
  rw [dstepData_reset hcur hfirst hn hfull hw, emitString_room hnext, Res.bind_done, tokensOf_append, outExtend_append]

theorem dstepData_reset_full (hcur : dictRead s.cur s = some current) (hfirst : outRoom current.length s)
    (hn : NextIs s current n nxt b) (hfull : 2 ^ s.w - 2 ≤ s.dsize) (hw : wmax s.cfg ≤ s.w)
    (h : ¬ outRoom (current ++ nxt).length s) :
    dstepData n s = .raised (outOverflow (tokensOf (current ++ nxt)) s) := by
  rw [List.length_append] at h
  have hnext : ¬ outRoom nxt.length (outExtend (tokensOf current) s) :=
    mt outRoom_outExtend.1 (by rwa [tokensOf_length])
  have hcap : (outExtend (tokensOf current) s).outLen ≤ (outExtend (tokensOf current) s).params.outCap.toNat := by
    simpa using hfirst
  rw [dstepData_reset hcur hfirst hn hfull hw, emitString_full hcap hnext, Res.bind_raised, tokensOf_append,
    outOverflow_outExtend (by rwa [tokensOf_length])]

/-- Settles O23: OUT fills in CURRENT's string, NEXT is unknown, or the policy takes one of its arms. -/
theorem dstepRunData : Obligations.DstepRunData := by
  unfold Obligations.DstepRunData
  refine ⟨fun s n current hp hd hl h hn hcur hcap hfull => ?_, fun s n current hp hd hl h hn hcur hroom hunk => ?_,
    fun s n current nxt b hp hd hl h hn hcur hroom hnext => ⟨fun hspace => ?_, fun hfull hw => ?_,
      fun hfull hw => ⟨fun hout => ?_, fun _ hout => ?_⟩⟩⟩ <;>
    rw [exec_dstep_data hp hd hl h hn]
  · exact congrArg Res.outcome (dstepData_full (s := stepRead s) hcur hcap hfull)
  · exact congrArg Res.outcome (dstepData_unknown (s := stepRead s) hcur hroom hunk)
  · exact congrArg Res.outcome (dstepData_inserted (s := stepRead s) hcur hroom hnext hspace)
  · exact congrArg Res.outcome (dstepData_grown (s := stepRead s) hcur hroom hnext hfull hw)
  · exact congrArg Res.outcome (dstepData_reset_room (s := stepRead s) hcur hnext hfull hw hout)
  · exact congrArg Res.outcome (dstepData_reset_full (s := stepRead s) hcur hroom hnext hfull hw hout)

end Sys2Proof.Machine
end

section
/-!
SUPPORT. What the decompress commands leave unchanged (46_decompress R175 to R177, 20_memory R43), from any state and
however they end, and that a decompress pass ends (R179). A DSTEP reads a code; what it does with the code leaves the
stream alone.
-/

namespace Sys2Proof.Machine

variable {α β : Type} {s t u : State} {c k n : Nat}

/-! ### HDRRD -/

/-- `t` comes from `s` by a read of the stream, a change of RESULT, and a fault at most. -/
def HeaderFrame (s t : State) : Prop :=
  t = { s with rbuf := t.rbuf, srcPos := t.srcPos, eos := t.eos, prng := t.prng, result := t.result, phase := t.phase,
               err := t.err, errinfo := t.errinfo }

theorem FaultOnly.headerFrame (h : FaultOnly s t) : HeaderFrame s t := by
  obtain ⟨_, _, _, rfl⟩ := h
  rfl

theorem hdrrdBody_headerFrame (s : State) :
    Res.Post (fun _ => HeaderFrame s) (HeaderFrame s) True (hdrrdBody s) := by
  refine Res.Post.bind (rdHdr_frame s) (fun b t ⟨ht, _⟩ => ?_) (fun _ ⟨u, hu, ht⟩ => ?_) False.elim
  · cases b with
    | none => rw [ht.frame]; rfl
    | some b => rw [ht.frame]; rfl
  · rw [ht, hu.frame]
    rfl

/-! ### What a DSTEP does with a code -/

/-- `t` comes from `s` by appending to OUT and changing the registers of the decoder only, none of which the stream
depends on; the tokens of OUT outside the new part read as before. -/
structure Decoded (s t : State) : Prop where
  frame : t = { s with w := t.w, dsize := t.dsize, dict := t.dict, dstate := t.dstate, cur := t.cur, out := t.out,
                       outLen := t.outLen, phase := t.phase, err := t.err, errinfo := t.errinfo }
  grows : s.outLen ≤ t.outLen
  kept : ∀ a, a < s.outLen ∨ t.outLen ≤ a → Store.read t.out a = Store.read s.out a

namespace Decoded

/-- A change of registers that leaves OUT. -/
theorem of_registers
    (hframe : t = { s with w := t.w, dsize := t.dsize, dict := t.dict, dstate := t.dstate, cur := t.cur,
                           phase := t.phase, err := t.err, errinfo := t.errinfo }) : Decoded s t := by
  rw [hframe]
  exact ⟨rfl, le_rfl, fun _ _ => rfl⟩

theorem refl (s : State) : Decoded s s := .of_registers rfl

theorem trans (h : Decoded s t) (h' : Decoded t u) : Decoded s u where
  frame := by
    have h1 := h.frame
    have h2 := h'.frame
    rw [h1] at h2
    exact h2
  grows := h.grows.trans h'.grows
  kept a ha := by
    have h1 := h.grows
    have h2 := h'.grows
    rw [h'.kept a (by omega), h.kept a (by omega)]

theorem unread (h : Decoded s t) : unread t = unread s := by
  rw [h.frame]
  rfl

end Decoded

theorem Emitted.decoded (h : Emitted s t) : Decoded s t where
  frame := by rw [h.frame]
  grows := h.grows
  kept := h.kept

theorem FaultOnly.decoded (h : FaultOnly s t) : Decoded s t := by
  obtain ⟨_, _, _, rfl⟩ := h
  exact .of_registers rfl

/-- A piece of pseudocode run from `s` stays within the decoder's frame, however it ends. -/
abbrev Decodes (s : State) (x : Res α) : Prop := Res.Post (fun _ => Decoded s) (Decoded s) True x

theorem Decodes.after {x : Res α} (hx : Decodes t x) (h : Decoded s t) : Decodes s x :=
  hx.mono (fun _ _ hu => h.trans hu) (fun _ hu => h.trans hu) id

theorem Decodes.bind {x : Res α} {f : α → State → Res β} (h : Decodes s x) (hf : ∀ a t, Decodes t (f a t)) :
    Decodes s (x.bind f) :=
  Res.Post.bind h (fun a t ht => (hf a t).after ht) (fun _ hr => hr) id

theorem Decodes.refl (a : α) (s : State) : Decodes s (.done a s) := Decoded.refl s

theorem Decodes.raised (cause : Cause) (info : Word) (s : State) : Decodes s (.raised (raise cause info s) : Res α) :=
  (FaultOnly.raise cause info s).decoded

theorem decodes_of_emitted {x : Res α} (h : Res.Post (fun _ t => Emitted s t) (OutOverflow s) False x) : Decodes s x :=
  h.mono (fun _ _ ht => ht.decoded)
    (fun _ ⟨u, hu, ht⟩ => ht ▸ hu.decoded.trans (FaultOnly.raise _ _ u).decoded) False.elim

theorem emitString_decodes (str : Str) (s : State) : Decodes s (emitString str s) :=
  decodes_of_emitted (emitString_post str s)

theorem boundary_decodes (s : State) : Decodes s (outAppend boundaryToken s) :=
  decodes_of_emitted (outAppend_post _ s (by decide))

theorem dictGet_decodes (c : Nat) (s : State) : Decodes s (dictGet c s) := by
  unfold dictGet
  split
  · exact .refl _ s
  · trivial

theorem firstByte_decodes (e : Str) (s : State) : Decodes s (firstByte e s) := by
  cases e with
  | nil => trivial
  | cons b rest => exact .refl b s

theorem completingByte_decodes (n : Nat) (current : Str) (s : State) : Decodes s (completingByte n current s) := by
  unfold completingByte
  split
  · exact (dictGet_decodes n s).bind firstByte_decodes
  · split
    · exact firstByte_decodes current s
    · exact .raised _ _ s

theorem nextString_decodes (n : Nat) (e : Str) (s : State) : Decodes s (nextString n e s) := by
  unfold nextString
  split
  · exact dictGet_decodes n s
  · exact .refl e s

theorem dstepArm_decodes (n : Nat) (nxt : Str) (arm : PolicyArm) (s : State) : Decodes s (dstepArm n nxt arm s) := by
  cases arm with
  | inserted => exact .of_registers rfl
  | grown => exact .of_registers rfl
  | reset => exact (emitString_decodes nxt s).bind fun _ _ => .of_registers rfl

theorem decPolicy_decoded (e : Str) (s : State) : Decoded s (decPolicy e s).2 := by
  rw [decPolicy_frame]
  exact .of_registers rfl

theorem dstepData_decodes (n : Nat) (s : State) : Decodes s (dstepData n s) :=
  (dictGet_decodes s.cur s).bind fun current t =>
    (emitString_decodes current t).bind fun _ u =>
      (completingByte_decodes n current u).bind fun b v =>
        (nextString_decodes n (current ++ [b]) v).bind fun nxt x =>
          (dstepArm_decodes n nxt _ _).after (decPolicy_decoded (current ++ [b]) x)

theorem dstepSentinel_decodes (s : State) : Decodes s (dstepSentinel s) :=
  (dictGet_decodes s.cur s).bind fun current t =>
    (emitString_decodes current t).bind fun _ u => (boundary_decodes u).bind fun _ _ => .of_registers rfl

theorem currentCode_decodes (c : Nat) (s : State) : Decodes s (currentCode c s) := by
  unfold currentCode
  split
  · exact boundary_decodes s
  · split
    · exact .raised _ _ s
    · exact .of_registers rfl

theorem nextCode_decodes (n : Nat) (s : State) : Decodes s (nextCode n s) := by
  unfold nextCode
  split
  · exact dstepSentinel_decodes s
  · exact dstepData_decodes n s

theorem useCode_decodes (d : DState) (code : Option Nat) (s : State) : Decodes s (useCode d code s) := by
  cases code with
  | none => exact .of_registers rfl
  | some c =>
    cases d with
    | prime => exact currentCode_decodes c s
    | run => exact nextCode_decodes c s

/-! ### DSTEP -/

/-- `t` comes from `s` by a read of the stream, in whatever phase, and the use of what was read. -/
def DstepFrame (s t : State) : Prop := ∃ p u, Fetched { s with phase := p } u ∧ Decoded u t

theorem FaultOnly.dstepFrame (h : FaultOnly s t) : DstepFrame s t := ⟨s.phase, s, Fetched.refl s, h.decoded⟩

theorem dstepBody_dstepFrame (s : State) : Res.Post (fun _ => DstepFrame s) (DstepFrame s) True (dstepBody s) := by
  rw [dstepBody_eq rfl]
  refine Res.Post.bind (rdCode_frame s.w { s with phase := .dBody }) (fun code t ⟨ht, _⟩ => ?_)
    (fun _ ⟨u, hu, ht⟩ => ⟨_, u, hu, ht ▸ (FaultOnly.raise _ _ u).decoded⟩) False.elim
  exact (useCode_decodes s.dstate code t).mono (fun _ u hu => ⟨_, t, ht, hu⟩) (fun u hu => ⟨_, t, ht, hu⟩) id

theorem DstepFrame.frame (h : DstepFrame s t) :
    t = { s with rbuf := t.rbuf, srcPos := t.srcPos, eos := t.eos, prng := t.prng, w := t.w, dsize := t.dsize,
                 dict := t.dict, dstate := t.dstate, cur := t.cur, out := t.out, outLen := t.outLen,
                 phase := t.phase, err := t.err, errinfo := t.errinfo } ∧
      s.outLen ≤ t.outLen ∧
      ∀ a, a < s.outLen ∨ t.outLen ≤ a → Store.read t.out a = Store.read s.out a := by
  obtain ⟨p, u, hu, ht⟩ := h
  have hlen : u.outLen = s.outLen := hu.outLen
  have hout : u.out = s.out := hu.out
  refine ⟨?_, hlen ▸ ht.grows, fun a ha => hout ▸ ht.kept a (hlen ▸ ha)⟩
  rw [ht.frame, hu.frame]

/-- Settles O27: HDRRD reads and sets RESULT; DSTEP reads a code and then stays within the decoder's frame. -/
theorem frameDecompress : Obligations.FrameDecompress := by
  unfold Obligations.FrameDecompress
  refine fun s t => ⟨fun h => ?_, fun h => DstepFrame.frame ?_⟩
  · exact exec_ends (P := HeaderFrame s) (by simp) h (fun _ => FaultOnly.headerFrame) (hdrrdBody_headerFrame s)
  · exact exec_ends (by simp) h (fun _ => FaultOnly.dstepFrame) (dstepBody_dstepFrame s)

/-! ### How much of the stream a DSTEP takes (46_decompress R179) -/

theorem bitsBefore_mono (text : TextMode) {i j : Nat} (h : i ≤ j) : bitsBefore text i ≤ bitsBefore text j := by
  unfold bitsBefore
  cases text <;> simp only <;> omega

/-- A read takes symbols only, or it meets a first byte that is none. -/
theorem readable_or_firstBad (n : Nat) (s : State) : readable n s ∨ ∃ i, firstBad n i s := by
  classical
  by_cases h : ∃ i, reaches n i s ∧ symbolLegal s.cfg.text (srcByte (s.srcPos + i) s) = false
  · obtain ⟨hreach, hbad⟩ := Nat.find_spec h
    refine .inr ⟨Nat.find h, hreach, hbad, fun j hj => ?_⟩
    have hmono := bitsBefore_mono s.cfg.text hj.le
    have hreachj : reaches n j s := ⟨hj.trans hreach.1, by have := hreach.2; omega⟩
    have hgood := Nat.find_min h hj
    simpa [hreachj] using hgood
  · refine .inl fun i hi => ?_
    have hgood := not_exists.1 h i
    simpa [hi] using hgood

theorem le_unread_of_codeAhead (h : codeAhead s = some c) : s.w ≤ (unread s).length := by
  by_contra hlt
  simp [codeAhead, bitsAhead, hlt] at h

theorem unread_stepRead (h : codeAhead s = some c) : unread (stepRead s) = (unread s).drop s.w :=
  unread_pullBits (le_unread_of_codeAhead h)

/-- A DSTEP ends the pass in DONE or in ERR, or takes the bits of one code. -/
theorem exec_dstep_consumes (hp : decompressing s.phase) (h : exec .dstep s = .next t) :
    (t.phase = .done ∨ t.phase = .err) ∨ (unread t).length + s.w = (unread s).length := by
  rcases readable_or_firstBad s.w s with hl | ⟨i, hbad⟩
  · cases hcode : codeAhead s with
    | none =>
      cases (exec_dstep_end hp hl hcode).symm.trans h
      exact .inl (.inl rfl)
    | some c =>
      rw [exec_dstep_code hp rfl hl hcode] at h
      have hdec : Decoded (stepRead s) t := ((useCode_decodes _ _ _).of_next h).elim (fun ⟨_, k⟩ => k) id
      have hle := le_unread_of_codeAhead hcode
      rw [hdec.unread, unread_stepRead hcode, List.length_drop]
      exact .inr (Nat.sub_add_cancel hle)
  · cases (exec_dstep_bad hp hbad).symm.trans h
    exact .inl (.inr rfl)

/-- Settles O55: a DSTEP that goes on has read a code of W bits, and the invariant bounds W. -/
theorem dstepConsumes : Obligations.DstepConsumes := by
  unfold Obligations.DstepConsumes
  intro s t h hp ht hdone herr
  refine ⟨(exec_dstep_consumes hp ht).resolve_left ?_, h.width.1⟩
  exact not_or.2 ⟨hdone, herr⟩

/-! ### A decompress pass ends (46_decompress R179) -/

theorem drun_of_ended (h : s.phase = .done ∨ s.phase = .err) (k : Nat) : drun k s = .next s := by
  cases k with
  | zero => rfl
  | succ k => exact if_pos h

theorem drun_succ (hp : decompressing s.phase) (h : exec .dstep s = .next t) : drun (k + 1) s = drun k t := by
  have hgo : ¬ (s.phase = .done ∨ s.phase = .err) := by rcases hp with hp | hp <;> simp [hp]
  rw [drun, if_neg hgo, h]

/-- From a state of a pass a DSTEP ends the pass, or goes on with at least 9 bits fewer ahead. -/
theorem exec_dstep_ends_or_goes_on (h : Inv s) (hp : decompressing s.phase) :
    ∃ t, exec .dstep s = .next t ∧ Inv t ∧ ((t.phase = .done ∨ t.phase = .err) ∨
      (decompressing t.phase ∧ (unread t).length + 9 ≤ (unread s).length)) := by
  have hne : s.phase ≠ .err := by rcases hp with hp | hp <;> simp [hp]
  obtain ⟨t, ht, hi⟩ := exec_keeps h .dstep
  refine ⟨t, ht, hi, ?_⟩
  rcases exec_phase hne ht with hfault | ⟨_, _, hbody | ⟨hdone, _⟩⟩
  · exact .inl (.inr hfault.1)
  · refine (exec_dstep_consumes hp ht).imp_right fun hbits => ⟨.inr hbody, ?_⟩
    have hw := h.width.1
    omega
  · exact .inl (.inl hdone)

/-- DSTEP repeated ends the pass before the bits run out at 9 a code. -/
theorem drun_ends (h : Inv s) (hp : decompressing s.phase) (hk : (unread s).length < 9 * k) :
    ∃ t, drun k s = .next t ∧ (t.phase = .done ∨ t.phase = .err) := by
  induction k generalizing s with
  | zero => omega
  | succ k ih =>
    obtain ⟨t, ht, hi, hend | ⟨hgo, hbits⟩⟩ := exec_dstep_ends_or_goes_on h hp
    · exact ⟨t, by rw [drun_succ hp ht, drun_of_ended hend], hend⟩
    · rw [drun_succ hp ht]
      exact ih hi hgo (by omega)

theorem exec_begin_dHdr (h : exec .beginOp s = .next t) (ht : t.phase = .dHdr) : t = beginState s := by
  have hb : Res.Post (fun _ u => u = beginState s) (fun _ => False) False (commandBody .beginOp s) := rfl
  exact exec_accepted (by simp) h (by simp [ht]) hb fun _ hf => hf.elim

theorem unread_beginState_length (s : State) : (unread (beginState s)).length = srcBits (beginState s) := by
  have hlen := symbolBits_length s.cfg
  have hbits : (unread (beginState s)).length = srcAvail (beginState s) * (groupSize s.cfg / groupCost s.cfg) := by
    simp [unread, srcAhead, List.length_flatMap, hlen]
  rw [hbits]
  unfold srcAvail srcBits groupSize groupCost
  simp only [beginState_cfg, beginState_srcLen, beginState_srcPos, Nat.sub_zero]
  cases s.cfg.text <;> simp only <;> omega

/-- Settles O56: the bits ahead run out, and right after BEGIN they are the bits of SRC. -/
theorem drunTerminates : Obligations.DrunTerminates := by
  unfold Obligations.DrunTerminates
  refine ⟨fun s h hp => drun_ends h hp (by omega), fun s t h ht => ?_⟩
  rw [exec_begin_dHdr h ht]
  exact unread_beginState_length s

end Sys2Proof.Machine
end

section
/-!
SUPPORT. The decoder's table behind the encoder's (44_dictionary R147 to R150, R154): after a data code the encoder has
at most one entry more, which the decoder completes when it reads the next code, and by then the two policies decide
alike.
-/

namespace Sys2Proof.Machine

variable {e d : State} {x : Option Str} {y : Str} {c : Nat}

/-- The encoder `e` and the decoder `d` are at the same width, and the table of `e` is that of `d` with the entry `x`,
if there is one, at the decoder's DSIZE. -/
structure TableAhead (x : Option Str) (e d : State) : Prop where
  w : e.w = d.w
  dsize : e.dsize = d.dsize + (if x.isSome then 1 else 0)
  entry : ∀ c, dictRead c e = if c = d.dsize then x else dictRead c d

namespace TableAhead

theorem dictRead_eq (h : TableAhead none e d) (c : Nat) : dictRead c e = dictRead c d := by
  rw [h.entry]
  split
  · rw [dictRead_eq_none (by omega)]
  · rfl

theorem of_dictRead_eq (hw : e.w = d.w) (hn : e.dsize = d.dsize) (h : ∀ c, dictRead c e = dictRead c d) :
    TableAhead none e d where
  w := hw
  dsize := hn
  entry c := by
    rw [h]
    split
    · rw [dictRead_eq_none (by omega)]
    · rfl

/-- An insertion by the encoder puts it ahead. -/
theorem insertOpt (h : TableAhead none e d) (he : 256 ≤ e.dsize) (x : Option Str) :
    TableAhead x (insertOpt x e) d where
  w := (insertOpt_w x e).trans h.w
  dsize := by
    rw [insertOpt_dsize, h.dsize]
    rfl
  entry c := by
    rw [dictRead_insertOpt x he, h.dictRead_eq, h.dsize]
    rfl

/-- The decoder catches up by inserting the entry it lacks. -/
theorem dictInsert (h : TableAhead (some y) e d) (hd : 256 ≤ d.dsize) : TableAhead none e (dictInsert y d) :=
  of_dictRead_eq h.w h.dsize fun c => by rw [h.entry, dictRead_insert y d hd]

theorem growWidth (h : TableAhead x e d) : TableAhead x (growWidth e) (growWidth d) :=
  ⟨congrArg (· + 1) h.w, h.dsize, h.entry⟩

theorem dictRestart (h : wmin e.cfg = wmin d.cfg) : TableAhead none (dictRestart e) (dictRestart d) :=
  of_dictRead_eq h rfl fun c => by rw [dictRead_restart, dictRead_restart]

/-- With equal tables and room for the decoder the encoder inserts at the same width. -/
theorem encPolicy (h : TableAhead none e d) (he : 256 ≤ e.dsize) (hroom : d.dsize < 2 ^ d.w - 1) (x : Option Str) :
    TableAhead x (encPolicy x e) d := by
  have hdsize : e.dsize = d.dsize := h.dsize
  rw [encPolicy_of_room x (by rwa [hdsize, h.w])]
  exact h.insertOpt he x

/-- With the encoder one entry ahead both policies take the same arm, the decoder's test being for one entry fewer: in
the two arms that insert, the decoder catches up with the table that the encoder had and is then behind by what the
encoder has inserted; in the reset arm the decoder still has to restart its table (44_dictionary R150, R154). -/
theorem policies (h : TableAhead (some y) e d) (hd : 256 ≤ d.dsize) (hmin : wmin e.cfg = wmin d.cfg)
    (hmax : wmax e.cfg = wmax d.cfg) (x : Option Str) :
    ((decPolicy y d).1 ≠ .reset ∧ (∀ c, dictRead c (decPolicy y d).2 = dictRead c e) ∧
        TableAhead x (Machine.encPolicy x e) (decPolicy y d).2) ∨
      (decPolicy y d = (.reset, d) ∧ TableAhead none (Machine.encPolicy x e) (Machine.dictRestart d)) := by
  have hdsize : e.dsize = d.dsize + 1 := h.dsize
  have hcaught := h.dictInsert hd
  by_cases hfull : 2 ^ d.w - 2 ≤ d.dsize
  · have hfullEnc : 2 ^ e.w - 1 ≤ e.dsize := by rw [h.w]; omega
    by_cases hw : d.w < wmax d.cfg
    · rw [decPolicy_of_grow y hfull hw, encPolicy_of_grow x hfullEnc (by rwa [h.w, hmax])]
      exact .inl ⟨by simp, fun c => (hcaught.growWidth.dictRead_eq c).symm,
        hcaught.growWidth.insertOpt (by rw [growWidth_dsize]; omega) x⟩
    · rw [decPolicy_of_reset y hfull (by omega), encPolicy_of_restart x hfullEnc (by rw [h.w, hmax]; omega)]
      exact .inr ⟨rfl, .dictRestart hmin⟩
  · rw [decPolicy_of_room y (by omega), encPolicy_of_room x (by rw [h.w]; omega)]
    exact .inl ⟨by simp, fun c => (hcaught.dictRead_eq c).symm, hcaught.insertOpt (by omega) x⟩

end TableAhead

end Sys2Proof.Machine
end

section
/-!
SUPPORT. A decoder that follows an encoder (46_decompress R178): it has read every unit that the encoder has written,
and its OUT with the string it holds and the candidate of the encoder are what the encoder was fed. One code written and
read keeps this.
-/

namespace Sys2Proof.Machine

variable {e e' d d' : State} {more : Bits} {c p : Nat} {held : Str} {fed : List Token}

/-! ### The stream between them -/

/-- The decoder `d` stands in the stream where the encoder `e` does: same configuration but DIR, same cipher state. -/
structure Linked (e d : State) : Prop where
  inv : Inv d
  phase : decompressing d.phase
  cfg : d.cfg = { e.cfg with dir := .decompress }
  cipher : SameCipher e d
  symbols : SrcSymbols d

/-- What writing a code does to the encoder's part of that. -/
structure CodeSent (e e' : State) : Prop where
  cfg : e'.cfg = e.cfg
  params : e'.params = e.params
  prng : e'.prng = prngAfterCode e

theorem codeWritten_sent (c w : Nat) (e : State) : CodeSent e (codeWritten c w e) := ⟨rfl, rfl, rfl⟩

theorem Linked.of_eq (h : Linked e d) (hcfg : e'.cfg = e.cfg) (hparams : e'.params = e.params)
    (hprng : e'.prng = e.prng) : Linked e' d where
  inv := h.inv
  phase := h.phase
  cfg := hcfg ▸ h.cfg
  cipher := ⟨hcfg ▸ h.cipher.ciph, hparams ▸ h.cipher.gen, hparams ▸ h.cipher.hdr, h.cipher.prng.trans hprng.symm⟩
  symbols := h.symbols

theorem codeAhead_of_unread (hc : c < 2 ^ d.w) (hu : unread d = bitsMSB (storedCode c d.w d) d.w ++ more) :
    codeAhead d = some c := by
  rw [codeAhead, bitsAhead_of_unread hu (storedCode_lt hc), Option.map_some, storedCode_decipher hc]

/-- The code that the encoder has put into the stream is the one ahead of the decoder. -/
theorem Linked.codeAhead (h : Linked e d) (hw : e.w = d.w) (hc : c < 2 ^ e.w)
    (hu : unread d = bitsMSB (storedCode c e.w e) e.w ++ more) : codeAhead d = some c := by
  refine codeAhead_of_unread (more := more) (hw ▸ hc) ?_
  have hstored : storedCode c d.w d = storedCode c d.w e := h.cipher.storedUnit_eq (.code c d.w)
  rw [hu, hw, hstored]

/-- A DSTEP that reads the code just written and goes on keeps the decoder where the encoder is. -/
theorem Linked.step (h : Linked e d) (hcode : Machine.codeAhead d = some c) (hsent : CodeSent e e')
    (ht : exec .dstep d = .next d') (hgo : decompressing d'.phase) :
    Linked e' d' ∧ unread d' = (unread d).drop d.w := by
  have hrun := ht
  rw [exec_dstep_code h.phase rfl (h.symbols.readable _) hcode] at hrun
  have hdec : Decoded (stepRead d) d' := ((useCode_decodes _ _ _).of_next hrun).elim (fun ⟨_, k⟩ => k) id
  obtain ⟨u, hu, hi⟩ := exec_keeps h.inv .dstep
  cases ht.symm.trans hu
  have hprng : prngAfterCode d = prngAfterCode e := h.cipher.prngAfterUnit_eq (.code 0 0)
  refine ⟨⟨hi, hgo, ?_, ⟨?_, ?_, ?_, ?_⟩, ?_⟩, hdec.unread.trans (unread_stepRead hcode)⟩
  · rw [hdec.frame, hsent.cfg]
    exact h.cfg
  · rw [hdec.frame, hsent.cfg]
    exact h.cipher.ciph
  · rw [hdec.frame, hsent.params]
    exact h.cipher.gen
  · rw [hdec.frame, hsent.params]
    exact h.cipher.hdr
  · rw [hdec.frame, hsent.prng]
    exact hprng
  · rw [hdec.frame]
    exact h.symbols

theorem drop_of_unread {v n : Nat} (hu : unread d = bitsMSB v n ++ more) : (unread d).drop n = more := by
  rw [hu, List.drop_left' (bitsMSB_length v n)]

/-! ### The table and the strings held back -/

/-- The string that the decoder holds back, and its table: equal to the encoder's in PRIME; in RUN behind it by the
entry that the held string and the first byte of the encoder's candidate make. -/
inductive Sync (e d : State) : Str → Prop
  | prime (hd : d.dstate = .prime) (ht : TableAhead none e d) : Sync e d []
  | run {held : Str} (hd : d.dstate = .run) (hcur : dictRead d.cur d = some held)
      (ht : TableAhead (e.cand.head?.map fun b => held ++ [b]) e d) : Sync e d held

/-- The decoder has followed the encoder through everything it was fed. -/
structure Replay (fed : List Token) (e d : State) : Prop where
  link : Linked e d
  holds : ∃ held, Sync e d held ∧ outTokens d ++ tokensOf (held ++ e.cand) = fed

theorem Sync.w (h : Sync e d held) : e.w = d.w := by cases h with
  | prime hd ht => exact ht.w
  | run hd hcur ht => exact ht.w

theorem Sync.of_tables (h : Sync e d held) (hd : d'.dstate = d.dstate) (hcur : d'.cur = d.cur) (hs : e'.cand = e.cand)
    (hread : ∀ c, dictRead c d' = dictRead c d) (ht : ∀ x, TableAhead x e d → TableAhead x e' d') : Sync e' d' held := by
  cases h with
  | prime hprime htable => exact .prime (hd.trans hprime) (ht _ htable)
  | run hrun hheld htable =>
    refine .run (hd.trans hrun) ?_ (hs ▸ ht _ htable)
    rw [hcur, hread, hheld]

theorem outTokens_outExtend (tokens : List Token) (s : State) : outTokens (outExtend tokens s) = outTokens s ++ tokens :=
  Store.range_writeAll s.out s.outLen tokens 0

theorem outTokens_length (s : State) : (outTokens s).length = s.outLen := by simp [outTokens]

/-! ### A data code -/

/-- The encoder after the code `p` of its candidate: the policy has run with the entry that the next byte completes, and
the candidate starts again from that byte; at the end of a file there is none (45_compress R161, R162). -/
def candidateSent (next : Option Byte) (p : Nat) (e : State) : State :=
  { encPolicy (next.map fun b => e.cand ++ [b]) (codeWritten p e.w e) with cand := next.toList }

theorem candidateSent_sent (next : Option Byte) (p : Nat) (e : State) : CodeSent e (candidateSent next p e) := by
  unfold candidateSent
  rw [encPolicy_frame]
  exact ⟨rfl, rfl, rfl⟩

theorem candidateSent_head? (next : Option Byte) (p : Nat) (e : State) : (candidateSent next p e).cand.head? = next := by
  cases next <;> rfl

/-- In RUN with `held` the decoder is behind by what the candidate's first byte completes; the candidate's own code is
one of its entries, or the one it lacks (46_decompress R177). -/
theorem nextIs_of_tableAhead {b : Byte} {str : Str} (hheld : held ≠ []) (hb : str.head? = some b)
    (ht : TableAhead (some (held ++ [b])) e d) (hp : dictRead p e = some str) : NextIs d held p str b := by
  rw [ht.entry] at hp
  split at hp
  · cases hp
    rw [List.head?_append_of_ne_nil _ hheld] at hb
    exact .inr ⟨‹_›, hb, rfl⟩
  · exact .inl ⟨dictRead_lt hp, hp, hb⟩

theorem dstepArm_of_ne_reset {n : Nat} {nxt : Str} {arm : PolicyArm} (h : arm ≠ .reset) (s : State) :
    dstepArm n nxt arm s = .done () { s with cur := n } := by
  cases arm with
  | inserted => rfl
  | grown => rfl
  | reset => exact absurd rfl h

/-- The decoder after a code that the encoder sent for its candidate: it goes on in step, and has put out or holds back
all that it held and the candidate. -/
def Taken (next : Option Byte) (p : Nat) (e d d' : State) (held : Str) : Prop :=
  exec .dstep d = .next d' ∧ decompressing d'.phase ∧
    ∃ held', Sync (candidateSent next p e) d' held' ∧
      outTokens d' ++ tokensOf held' = outTokens d ++ tokensOf (held ++ e.cand)

/-- In PRIME the code becomes CURRENT. -/
theorem takes_prime (next : Option Byte) (hlink : Linked e d) (he : BaseInv e) (hd : d.dstate = .prime)
    (ht : TableAhead none e d) (hp : dictRead p e = some e.cand) (hcode : codeAhead d = some p) :
    ∃ d', Taken next p e d d' [] := by
  have hpow := pow_bounds hlink.inv.width.1
  have hdsize := hlink.inv.dsizeDecode hlink.phase
  have hpd : dictRead p d = some e.cand := (ht.dictRead_eq p).symm.trans hp
  have hlt : p < d.dsize := dictRead_lt hpd
  have hne : p ≠ 2 ^ d.w - 1 := by omega
  have htable : TableAhead none (codeWritten p e.w e) d := ⟨ht.w, ht.dsize, ht.entry⟩
  have hsent := htable.encPolicy he.dsize.1 (by omega) (next.map fun b => e.cand ++ [b])
  refine ⟨{ stepRead d with cur := p, dstate := .run }, ?_, .inr rfl, e.cand, .run rfl hpd ?_, ?_⟩
  · rw [exec_dstep_code hlink.phase hd (hlink.symbols.readable _) hcode]
    exact congrArg Res.outcome (currentCode_known (s := stepRead d) hne hlt)
  · rw [candidateSent_head?]
    exact ⟨hsent.w, hsent.dsize, hsent.entry⟩
  · rfl

/-- In RUN the held string goes out; the code becomes CURRENT, or its string goes out as well and the tables restart. -/
theorem takes_run (next : Option Byte) (hlink : Linked e d) (he : BaseInv e) (hs : e.cand ≠ [])
    (hd : d.dstate = .run) (hcur : dictRead d.cur d = some held)
    (ht : TableAhead (e.cand.head?.map fun b => held ++ [b]) e d) (hp : dictRead p e = some e.cand)
    (hcode : codeAhead d = some p) (hroom : outRoom (held ++ e.cand).length d) :
    ∃ d', Taken next p e d d' held := by
  have hsize := he.dsize.2
  have hlt : p < e.dsize := dictRead_lt hp
  obtain ⟨b, hb⟩ : ∃ b, e.cand.head? = some b := Option.isSome_iff_exists.1 (by simpa using hs)
  rw [hb, Option.map_some] at ht
  have hnext : NextIs d held p e.cand b := nextIs_of_tableAhead (hlink.inv.dictRead_ne_nil hcur) hb ht hp
  have hne : p ≠ 2 ^ d.w - 1 := by rw [← ht.w]; omega
  rw [List.length_append] at hroom
  have hfirst : outRoom held.length (stepRead d) := (Nat.add_le_add_left (Nat.le_add_right _ _) _).trans hroom
  have hstep := exec_dstep_data hlink.phase hd (hlink.symbols.readable _) hcode hne
  rw [dstepData_next (s := stepRead d) hcur hfirst hnext] at hstep
  set q := outExtend (tokensOf held) (stepRead d) with hq
  have hout : outTokens q = outTokens d ++ tokensOf held := outTokens_outExtend _ (stepRead d)
  have htable : TableAhead (some (held ++ [b])) (codeWritten p e.w e) q := ⟨ht.w, ht.dsize, ht.entry⟩
  have hmin : wmin e.cfg = wmin d.cfg := by rw [hlink.cfg]; rfl
  have hmax : wmax e.cfg = wmax d.cfg := by rw [hlink.cfg]; rfl
  rcases htable.policies hlink.inv.dsize.1 hmin hmax (next.map fun c => e.cand ++ [c]) with
    ⟨harm, hread, hsent⟩ | ⟨harm, hsent⟩
  · rw [dstepArm_of_ne_reset harm] at hstep
    have hframe := decPolicy_frame (held ++ [b]) q
    set q' := (decPolicy (held ++ [b]) q).2
    refine ⟨{ q' with cur := p }, hstep, ?_, e.cand, .run ?_ ((hread p).trans hp) ?_, ?_⟩
    · rw [hframe]
      exact .inr rfl
    · rw [hframe]
      exact hd
    · rw [candidateSent_head?]
      exact ⟨hsent.w, hsent.dsize, hsent.entry⟩
    · have hout' : outTokens { q' with cur := p } = outTokens q := by rw [hframe]; rfl
      rw [hout', hout, tokensOf_append, List.append_assoc]
  · have hrest : outRoom e.cand.length q := outRoom_outExtend.2 (by rwa [tokensOf_length])
    rw [harm] at hstep
    simp only [dstepArm] at hstep
    rw [emitString_room hrest, Res.bind_done] at hstep
    refine ⟨_, hstep, .inr rfl, [], .prime rfl ⟨hsent.w, hsent.dsize, hsent.entry⟩, ?_⟩
    have hout' := outTokens_outExtend (tokensOf e.cand) q
    rw [hout, List.append_assoc, ← tokensOf_append] at hout'
    exact (List.append_nil _).trans hout'

end Sys2Proof.Machine
end

section
/-!
SUPPORT. The compress commands and the DSTEPs that undo them (46_decompress R178): whatever a command puts into the
stream, a decoder in step reads it and is in step again, with what the command fed to the encoder accounted for.
-/

namespace Sys2Proof.Machine

variable {e e' u d d' : State} {bits more : Bits} {b c : Byte} {p : Nat} {fed tokens tokens' : List Token} {i : Instr}

/-! ### DSTEPs in a row -/

/-- One DSTEP of a decompress pass. -/
def DecodeStep (d d' : State) : Prop := decompressing d.phase ∧ exec .dstep d = .next d'

abbrev DecodeSteps : State → State → Prop := Relation.ReflTransGen DecodeStep

theorem DecodeSteps.params (h : DecodeSteps d d') : d'.params = d.params := by
  induction h with
  | refl => rfl
  | tail _ hstep ih => exact (exec_own hstep.2).params.trans ih

theorem drun_of_decodeSteps (h : DecodeSteps d d') : ∃ k, drun k d = .next d' := by
  induction h using Relation.ReflTransGen.head_induction_on with
  | refl => exact ⟨0, rfl⟩
  | head hstep _ ih =>
    obtain ⟨k, hk⟩ := ih
    exact ⟨k + 1, (drun_succ hstep.1 hstep.2).trans hk⟩

/-! ### One code, written and read -/

theorem Replay.setPhase (h : Replay fed e d) (ph : Phase) : Replay fed { e with phase := ph } d := by
  obtain ⟨held, hsync, htokens⟩ := h.holds
  have hsync' := hsync.of_tables (e' := { e with phase := ph }) (d' := d) rfl rfl rfl (fun _ => rfl)
    fun _ ht => ⟨ht.w, ht.dsize, ht.entry⟩
  exact ⟨h.link.of_eq rfl rfl rfl, held, hsync', htokens⟩

/-- The decoder reads the code of the candidate. -/
theorem Replay.code (h : Replay fed e d) (hinv : Inv e) (hs : e.cand ≠ []) (hcode : codeOf e.cand e = some p)
    (hfit : fed.length ≤ d.params.outCap.toNat) (next : Option Byte)
    (hu : unread d = bitsMSB (storedCode p e.w e) e.w ++ more) :
    ∃ d', DecodeStep d d' ∧ Replay (fed ++ tokensOf next.toList) (candidateSent next p e) d' ∧ unread d' = more := by
  obtain ⟨held, hsync, rfl⟩ := h.holds
  have hp := hinv.codeOf_some hcode
  have hlt : p < 2 ^ e.w := by
    have := hinv.dsize.2
    have := dictRead_lt hp
    omega
  have hahead := h.link.codeAhead hsync.w hlt hu
  have hroom : outRoom (held ++ e.cand).length d := by
    rwa [List.length_append, outTokens_length, tokensOf_length] at hfit
  obtain ⟨d', hstep, hgo, held', hsync', htokens⟩ : ∃ d', Taken next p e d d' held := by
    cases hsync with
    | prime hd ht => exact takes_prime next h.link hinv.toBaseInv hd ht hp hahead
    | run hd hcur ht => exact takes_run next h.link hinv.toBaseInv hs hd hcur ht hp hahead hroom
  obtain ⟨hlink', hrest⟩ := h.link.step hahead (candidateSent_sent next p e) hstep hgo
  refine ⟨d', ⟨h.link.phase, hstep⟩, ⟨hlink', held', hsync', ?_⟩, ?_⟩
  · rw [← htokens, List.append_assoc, ← tokensOf_append]
    rfl
  · rw [hrest, ← hsync.w, drop_of_unread hu]

/-- The decoder reads the sentinel of a file whose candidate is closed. -/
theorem Replay.sentinel (h : Replay fed e d) (hs : e.cand = []) (hfit : fed.length + 1 ≤ d.params.outCap.toNat)
    (hu : unread d = bitsMSB (storedCode (2 ^ e.w - 1) e.w e) e.w ++ more) :
    ∃ d', DecodeStep d d' ∧ Replay (fed ++ [boundaryToken]) (codeWritten (2 ^ e.w - 1) e.w e) d' ∧
      d'.dstate = .prime ∧ unread d' = more := by
  obtain ⟨held, hsync, rfl⟩ := h.holds
  have hlt : 2 ^ e.w - 1 < 2 ^ e.w := Nat.sub_lt (by positivity) (by decide)
  have hahead := h.link.codeAhead hsync.w hlt hu
  have hahead' : codeAhead d = some (2 ^ d.w - 1) := hsync.w ▸ hahead
  rw [hs, List.append_nil] at hfit ⊢
  have hroom : outRoom (held.length + 1) d := by
    rwa [List.length_append, outTokens_length, tokensOf_length, Nat.add_assoc] at hfit
  obtain ⟨d', hstep, hgo, hprime, htable, htokens⟩ : ∃ d', exec .dstep d = .next d' ∧ decompressing d'.phase ∧
      d'.dstate = .prime ∧ TableAhead none e d' ∧
      outTokens d' = outTokens d ++ (tokensOf held ++ [boundaryToken]) := by
    cases hsync with
    | prime hd ht =>
      refine ⟨outExtend [boundaryToken] (stepRead d), ?_, .inr rfl, hd, ⟨ht.w, ht.dsize, ht.entry⟩,
        outTokens_outExtend _ (stepRead d)⟩
      rw [exec_dstep_code h.link.phase hd (h.link.symbols.readable _) hahead']
      exact congrArg Res.outcome (currentCode_sentinel_room (s := stepRead d) hroom)
    | run hd hcur ht =>
      rw [hs] at ht
      refine ⟨{ outExtend (tokensOf held ++ [boundaryToken]) (stepRead d) with cur := 0, dstate := .prime }, ?_,
        .inr rfl, rfl, ⟨ht.w, ht.dsize, ht.entry⟩, outTokens_outExtend _ (stepRead d)⟩
      rw [exec_dstep_sentinel h.link.phase hd (h.link.symbols.readable _) hahead']
      exact congrArg Res.outcome (dstepSentinel_room (s := stepRead d) hcur hroom)
  obtain ⟨hlink', hrest⟩ := h.link.step hahead (codeWritten_sent (2 ^ e.w - 1) e.w e) hstep hgo
  refine ⟨d', ⟨h.link.phase, hstep⟩, ⟨hlink', [], .prime hprime ⟨htable.w, htable.dsize, htable.entry⟩, ?_⟩, hprime, ?_⟩
  · rw [codeWritten_cand, hs, List.append_assoc, ← htokens]
    exact List.append_nil _
  · rw [hrest, ← hsync.w, drop_of_unread hu]

/-! ### Between two commands -/

/-- A decoder in step between two compress commands: with no file open it is in PRIME. -/
structure InStep (fed : List Token) (e d : State) : Prop extends Replay fed e d where
  closed : e.cand = [] → d.dstate = .prime

/-- The encoder takes a byte into its candidate and writes nothing. -/
theorem InStep.feed (h : InStep fed e d) (c : Byte) :
    InStep (fed ++ tokensOf [c]) { e with phase := .cBody, cand := e.cand ++ [c] } d := by
  obtain ⟨held, hsync, rfl⟩ := h.holds
  refine ⟨⟨h.link.of_eq rfl rfl rfl, held, ?_, ?_⟩, fun hnil => ?_⟩
  · cases hsync with
    | prime hd ht => exact .prime hd ⟨ht.w, ht.dsize, ht.entry⟩
    | run hd hcur ht =>
      have hs : e.cand ≠ [] := fun hs => by rw [h.closed hs] at hd; cases hd
      refine .run hd hcur ?_
      rw [List.head?_append_of_ne_nil _ hs]
      exact ⟨ht.w, ht.dsize, ht.entry⟩
  · rw [← List.append_assoc, tokensOf_append, List.append_assoc]
  · simp at hnil

/-- From `e` to `e'` the encoder was fed `tokens` and has written bits which a decoder in step reads. -/
structure Covers (tokens : List Token) (e e' : State) : Prop where
  cfg : e'.cfg = e.cfg
  stream : ∃ bits, (∀ before, Packed before e → Packed (before ++ bits) e') ∧
    ∀ fed d more, InStep fed e d → (fed ++ tokens).length ≤ d.params.outCap.toNat → unread d = bits ++ more →
      ∃ d', DecodeSteps d d' ∧ InStep (fed ++ tokens) e' d' ∧ unread d' = more

theorem Covers.refl (e : State) : Covers [] e e :=
  ⟨rfl, [], fun _ h => by rwa [List.append_nil],
    fun fed d more h _ hu => ⟨d, .refl, by rwa [List.append_nil], hu⟩⟩

theorem Covers.trans (h : Covers tokens e u) (k : Covers tokens' u e') : Covers (tokens ++ tokens') e e' := by
  obtain ⟨bits, hpack, hread⟩ := h.stream
  obtain ⟨bits', hpack', hread'⟩ := k.stream
  refine ⟨k.cfg.trans h.cfg, bits ++ bits', fun before hb => ?_, fun fed d more hin hfit hu => ?_⟩
  · rw [← List.append_assoc]
    exact hpack' _ (hpack _ hb)
  · rw [← List.append_assoc] at hfit
    rw [List.append_assoc] at hu
    obtain ⟨d1, hsteps, hin1, hu1⟩ := hread fed d _ hin (by rw [List.length_append] at hfit; omega) hu
    obtain ⟨d2, hsteps2, hin2, hu2⟩ := hread' _ d1 more hin1 (by rwa [hsteps.params]) hu1
    refine ⟨d2, hsteps.trans hsteps2, ?_, hu2⟩
    rwa [← List.append_assoc]

/-! ### SYM (45_compress R161) -/

theorem Packed.code {w n : Nat} (h : Packed bits e) (hroom : snkRoom (unitCost w e) e) :
    Packed (bits ++ bitsMSB (storedCode n w e) w) (codeWritten n w e) :=
  (h.setPrng (prngAfterCode e)).push (by rw [bitsMSB_length]; exact hroom)

theorem Packed.candidateSent (h : Packed bits e) (hroom : snkRoom (unitCost e.w e) e) (next : Option Byte) :
    Packed (bits ++ bitsMSB (storedCode p e.w e) e.w) (candidateSent next p e) := by
  have hcode := h.code (n := p) hroom
  unfold Machine.candidateSent
  rw [encPolicy_frame]
  exact ⟨hcode.text, hcode.rest, hcode.cap⟩

theorem feed_covers (e : State) (c : Byte) :
    Covers (tokensOf [c]) e { e with phase := .cBody, cand := e.cand ++ [c] } :=
  ⟨rfl, [], fun _ h => by rw [List.append_nil]; exact ⟨h.text, h.rest, h.cap⟩,
    fun _ d _ h _ hu => ⟨d, .refl, h.feed c, hu⟩⟩

/-- A miss whose code goes out. -/
theorem miss_covers (hinv : Inv e) (hs : e.cand ≠ []) (hcode : codeOf e.cand e = some p)
    (hroom : snkRoom (unitCost e.w e) e) (c : Byte) : Covers (tokensOf [c]) e (candidateSent (some c) p e) := by
  refine ⟨(candidateSent_sent _ _ _).cfg, bitsMSB (storedCode p e.w e) e.w,
    fun _ h => h.candidateSent hroom (some c), fun fed d more h hfit hu => ?_⟩
  rw [List.length_append] at hfit
  obtain ⟨d', hstep, hreplay, hmore⟩ := h.code hinv hs hcode (by omega) (some c) hu
  exact ⟨d', .single hstep, ⟨hreplay, nofun⟩, hmore⟩

/-- Entering the body writes nothing. -/
theorem enterBody_covers (e : State) : Covers [] e { e with phase := .cBody } :=
  ⟨rfl, [], fun _ h => by rw [List.append_nil]; exact ⟨h.text, h.rest, h.cap⟩,
    fun fed d _ h _ hu => ⟨d, .refl, by rw [List.append_nil]; exact ⟨h.setPhase .cBody, h.closed⟩, hu⟩⟩

theorem sym_covers (hinv : Inv e) (hc : compressing e.phase) (ht : exec (.sym c) e = .next e')
    (hne : e'.phase ≠ .err) : Covers (tokensOf [c]) e e' := by
  rw [exec_sym hc] at ht
  by_cases hs : e.cand = []
  · rw [symBody_seed hs] at ht
    cases ht
    simpa only [hs, List.nil_append] using feed_covers e c
  · cases hk : codeOf (e.cand ++ [c]) e with
    | some k =>
      rw [symBody_hit hs hk] at ht
      cases ht
      exact feed_covers e c
    | none =>
      obtain ⟨p, hp⟩ := Option.isSome_iff_exists.1 ((hinv.candKey hc).resolve_left hs)
      rw [symBody_miss hs hk] at ht
      by_cases hroom : snkRoom (unitCost e.w e) e
      · rw [symMiss_room (s := { e with phase := .cBody }) hp hroom] at ht
        cases ht
        exact (enterBody_covers e).trans (miss_covers (hinv.enterBody hc) hs hp hroom c)
      · rw [symMiss_full (s := { e with phase := .cBody }) hp hinv.snkLen hroom] at ht
        cases ht
        exact absurd rfl hne

/-! ### EOFILE (45_compress R162) -/

/-- The sentinel after a candidate that was empty already. -/
theorem emptyFile_covers (hs : e.cand = []) (hroom : snkRoom (unitCost e.w e) e) :
    Covers [boundaryToken] e (codeWritten (2 ^ e.w - 1) e.w e) := by
  refine ⟨rfl, bitsMSB (storedCode (2 ^ e.w - 1) e.w e) e.w, fun _ h => h.code hroom, fun fed d more h hfit hu => ?_⟩
  rw [List.length_append] at hfit
  obtain ⟨d', hstep, hreplay, hprime, hmore⟩ := h.sentinel hs hfit hu
  exact ⟨d', .single hstep, ⟨hreplay, fun _ => hprime⟩, hmore⟩

/-- The candidate's code, the policy with nothing to insert, and the sentinel of the width then in force. -/
theorem closeFile_covers (hinv : Inv e) (hs : e.cand ≠ []) (hcode : codeOf e.cand e = some p)
    (hroom : snkRoom (unitCost e.w e) e) (hu : u = candidateSent none p e) (hroom' : snkRoom (unitCost u.w u) u) :
    Covers [boundaryToken] e (codeWritten (2 ^ u.w - 1) u.w u) := by
  subst hu
  set u := candidateSent none p e with hdef
  have hcfg : u.cfg = e.cfg := (candidateSent_sent none p e).cfg
  refine ⟨hcfg, bitsMSB (storedCode p e.w e) e.w ++ bitsMSB (storedCode (2 ^ u.w - 1) u.w u) u.w,
    fun before h => ?_, fun fed d more h hfit hu => ?_⟩
  · rw [← List.append_assoc]
    exact (h.candidateSent hroom none).code hroom'
  · rw [List.length_append] at hfit
    rw [List.append_assoc] at hu
    obtain ⟨d1, hstep, hreplay, hmore⟩ := h.code hinv hs hcode (by omega) none hu
    have hparams := (exec_own hstep.2).params
    have hnone : fed ++ tokensOf (none : Option Byte).toList = fed := List.append_nil fed
    rw [hnone, ← hdef] at hreplay
    obtain ⟨d2, hstep2, hreplay2, hprime, hmore2⟩ := hreplay.sentinel rfl (by rw [hparams]; exact hfit) hmore
    exact ⟨d2, .tail (.single hstep) hstep2, ⟨hreplay2, fun _ => hprime⟩, hmore2⟩

theorem eofile_covers (hinv : Inv e) (hc : compressing e.phase) (ht : exec .eofile e = .next e')
    (hne : e'.phase ≠ .err) : Covers [boundaryToken] e e' := by
  rw [exec_eofile hc] at ht
  have hbody := hinv.enterBody hc
  set e0 : State := { e with phase := .cBody }
  refine (enterBody_covers e).trans (u := e0) ?_
  by_cases hs : e.cand = []
  · have hclose := closeCandidate_nil (s := e0) hs
    by_cases hroom : snkRoom (unitCost e0.w e0) e0
    · rw [eofileBody_room hclose hroom] at ht
      cases ht
      exact emptyFile_covers hs hroom
    · rw [eofileBody_full hclose hbody.snkLen hroom] at ht
      cases ht
      exact absurd rfl hne
  · obtain ⟨p, hp⟩ := Option.isSome_iff_exists.1 ((hbody.candKey (.inr rfl)).resolve_left hs)
    by_cases hroom : snkRoom (unitCost e0.w e0) e0
    · have hclose : closeCandidate { e with phase := .cBody } = .done () (candidateClosed p e0) :=
        closeCandidate_room hs hp hroom
      by_cases hroom' : snkRoom (unitCost (candidateClosed p e0).w (candidateClosed p e0)) (candidateClosed p e0)
      · rw [eofileBody_room hclose hroom'] at ht
        cases ht
        exact closeFile_covers hbody hs hp hroom rfl hroom'
      · rw [eofileBody_full hclose (candidateClosed_snkLen_le hroom) hroom'] at ht
        cases ht
        exact absurd rfl hne
    · rw [eofileBody_of_overflow (closeCandidate_full hs hp hbody.snkLen hroom)] at ht
      cases ht
      exact absurd rfl hne

end Sys2Proof.Machine
end

section
/-!
PROOF. The round trip (46_decompress R178): BEGIN leaves the decoder in step with the encoder, HDRRD reads what HDRB
wrote, every compress command of the body keeps the two in step, and the trailing code of FINISH ends the pass.
-/

namespace Sys2Proof.Machine

variable {e e' s t r u d d' : State} {before bits more : Bits} {b : Byte} {header : Str} {fed tokens : List Token}
variable {i : Instr} {cs cs' : List Instr}

/-! ### Commands in a row -/

theorem runCommands_err (hsrst : .srst ∉ cs) (he : s.phase = .err) : runCommands cs s = .next s := by
  induction cs with
  | nil => rfl
  | cons i rest ih =>
    obtain ⟨hi, hrest⟩ := not_or.1 (mt List.mem_cons.2 hsrst)
    rw [runCommands, exec_err (Ne.symm hi) he]
    exact ih hrest

theorem runCommands_append : runCommands (cs ++ cs') s = .next t ↔
    ∃ u, runCommands cs s = .next u ∧ runCommands cs' u = .next t := by
  induction cs generalizing s with
  | nil => simp [runCommands]
  | cons i rest ih =>
    rw [List.cons_append, runCommands, runCommands]
    cases exec i s with
    | next u => exact ih
    | fault f => simp
    | refused f => simp

/-- Commands without SRST that do not end in ERR did not start there. -/
theorem runCommands_append_of_ne_err (hsrst : .srst ∉ cs') (h : runCommands (cs ++ cs') s = .next t)
    (hne : t.phase ≠ .err) :
    ∃ u, runCommands cs s = .next u ∧ u.phase ≠ .err ∧ runCommands cs' u = .next t := by
  obtain ⟨u, hfirst, hrest⟩ := runCommands_append.1 h
  refine ⟨u, hfirst, fun hu => hne ?_, hrest⟩
  cases (runCommands_err hsrst hu).symm.trans hrest
  exact hu

theorem runCommands_singleton : runCommands [i] s = .next t ↔ exec i s = .next t := by
  cases h : exec i s <;> simp [runCommands, h]

theorem runCommands_cons_of_ne_err (hsrst : .srst ∉ cs) (h : runCommands (i :: cs) s = .next t)
    (hne : t.phase ≠ .err) :
    ∃ u, exec i s = .next u ∧ u.phase ≠ .err ∧ runCommands cs u = .next t := by
  obtain ⟨u, hfirst, hrest⟩ := runCommands_append_of_ne_err (cs := [i]) hsrst h hne
  exact ⟨u, runCommands_singleton.1 hfirst, hrest⟩

/-! ### BEGIN -/

theorem beginState_phase_dHdr (hdir : r.cfg.dir = .decompress) : (beginState r).phase = .dHdr :=
  congrArg beginPhase hdir

/-- BEGIN on both sides: the decoder stands at the start of the stream that the encoder starts. -/
theorem inStep_begin (hinv : Inv r) (hp : r.phase = .idle ∨ r.phase = .done)
    (hcfg : r.cfg = { s.cfg with dir := .decompress }) (hkey : r.key = s.key) (hgen : r.params.prng = s.params.prng)
    (hhdr : r.params.hdr = s.params.hdr) (hsymbols : SrcSymbols (beginState r)) :
    InStep [] (beginState s) (beginState r) := by
  have hne : r.phase ≠ .err := by rcases hp with hp | hp <;> simp [hp]
  have hphase := beginState_phase_dHdr (r := r) (by rw [hcfg])
  have hseed : prngSeed r.params r.key = prngSeed s.params s.key := by
    unfold prngSeed
    rw [hgen, hkey]
  have hw : wmin s.cfg = wmin r.cfg := by rw [hcfg]; rfl
  have hciph : r.cfg.ciph = s.cfg.ciph := by rw [hcfg]
  have htable : TableAhead none (beginState s) (beginState r) :=
    .of_dictRead_eq hw rfl fun c => (beginState_baseline s c).trans (beginState_baseline r c).symm
  exact ⟨⟨⟨hinv.begin hne, .inl hphase, hcfg, ⟨hciph, hgen, hhdr, hseed⟩, hsymbols⟩, [], .prime rfl htable, rfl⟩,
    fun _ => rfl⟩

/-! ### The header (45_compress R160, 46_decompress R175) -/

theorem bitsAhead_of_unread_hdr (hu : unread d = bitsMSB (storedHdr b d) 8 ++ more) :
    bitsAhead 8 d = some (storedHdr b d) :=
  bitsAhead_of_unread hu (storedHdr_lt b d)

theorem hdrAhead_of_unread (hu : unread d = bitsMSB (storedHdr b d) 8 ++ more) : hdrAhead d = some b := by
  rw [hdrAhead, bitsAhead_of_unread_hdr hu, Option.map_some, storedHdr_decipher, BitVec.ofNat_toNat, BitVec.setWidth_eq]

theorem prngAfterHdrAhead_of_unread (hu : unread d = bitsMSB (storedHdr b d) 8 ++ more) :
    prngAfterHdrAhead d = prngAfterHdr b.toNat d := by
  rw [prngAfterHdrAhead, bitsAhead_of_unread_hdr hu]
  simp only [prngAfterHdr, hdrDraws_storedHdr]

/-- HDRRD reads the byte that HDRB wrote. -/
theorem InStep.hdr (h : InStep fed e d) (hp : d.phase = .dHdr) (hu : unread d = bitsMSB (storedHdr b e) 8 ++ more) :
    ∃ d', exec .hdrrd d = .next d' ∧ d'.result = resultValid b ∧ d'.phase = .dHdr ∧
      InStep fed (hdrWritten b e) d' ∧ unread d' = more := by
  obtain ⟨held, hsync, htokens⟩ := h.holds
  obtain ⟨-, -, hcfg, hcipher, hsymbols⟩ := h.link
  have hstored : storedHdr b d = storedHdr b e := hcipher.storedUnit_eq (.hdr b)
  have hprng : prngAfterHdr b.toNat d = prngAfterHdr b.toNat e := hcipher.prngAfterUnit_eq (.hdr b)
  have hud : unread d = bitsMSB (storedHdr b d) 8 ++ more := hstored ▸ hu
  have hstep := exec_hdrrd hp
  rw [hdrrdBody_byte (hsymbols.readable 8) (hdrAhead_of_unread hud), Res.outcome_done] at hstep
  obtain ⟨_, hnext, hinv⟩ := exec_keeps h.link.inv .hdrrd
  cases hstep.symm.trans hnext
  have hlink : Linked (hdrWritten b e) { hdrRead d with result := resultValid b } :=
    ⟨hinv, .inl hp, hcfg, ⟨hcipher.ciph, hcipher.gen, hcipher.hdr, (prngAfterHdrAhead_of_unread hud).trans hprng⟩,
      hsymbols⟩
  have hsync' : Sync (hdrWritten b e) { hdrRead d with result := resultValid b } held :=
    hsync.of_tables rfl rfl rfl (fun _ => rfl) fun _ ht => ⟨ht.w, ht.dsize, ht.entry⟩
  exact ⟨_, hstep, rfl, hp, ⟨⟨hlink, held, hsync', htokens⟩, h.closed⟩, unread_pullBits_of_unread hu⟩

/-- From `e` to `e'` the header went into the stream, and a decoder in step reads it back. -/
structure HeaderCovers (header : Str) (e e' : State) : Prop where
  cfg : e'.cfg = e.cfg
  stream : ∃ bits, (∀ before, Packed before e → Packed (before ++ bits) e') ∧
    ∀ fed d more, InStep fed e d → d.phase = .dHdr → unread d = bits ++ more →
      ∃ d', hdrrdEach header d = some (header.map resultValid, d') ∧ InStep fed e' d' ∧ unread d' = more ∧
        d'.params = d.params

theorem HeaderCovers.nil (e : State) : HeaderCovers [] e e :=
  ⟨rfl, [], fun _ h => by rwa [List.append_nil], fun _ d _ h _ hu => ⟨d, rfl, h, hu, rfl⟩⟩

theorem HeaderCovers.cons (hroom : snkRoom (unitCost 8 e) e) (h : HeaderCovers header (hdrWritten b e) e') :
    HeaderCovers (b :: header) e e' := by
  obtain ⟨hcfg, bits, hpack, hread⟩ := h
  refine ⟨hcfg, bitsMSB (storedHdr b e) 8 ++ bits, fun before hb => ?_, fun fed d more hin hp hu => ?_⟩
  · rw [← List.append_assoc]
    exact hpack _ ((hb.setPrng _).push (by rwa [bitsMSB_length]))
  · rw [List.append_assoc] at hu
    obtain ⟨d1, hstep, hresult, hp1, hin1, hu1⟩ := hin.hdr hp hu
    obtain ⟨d', heach, hin', hu', hparams⟩ := hread fed d1 more hin1 hp1 hu1
    refine ⟨d', ?_, hin', hu', hparams.trans (exec_own hstep).params⟩
    rw [hdrrdEach, hstep]
    simp only [heach, Option.map_some, hresult, List.map_cons]

theorem exec_hdrb_of_ne_err (hinv : Inv e) (hp : e.phase = .cHdr) (ht : exec (.hdrb b) e = .next e')
    (hne : e'.phase ≠ .err) : snkRoom (unitCost 8 e) e ∧ e' = hdrWritten b e := by
  rw [exec_hdrb hp] at ht
  by_cases hroom : snkRoom (unitCost 8 e) e
  · rw [wrHdr_room hroom] at ht
    cases ht
    exact ⟨hroom, rfl⟩
  · rw [wrHdr_full hinv.snkLen hroom] at ht
    cases ht
    exact absurd rfl hne

theorem header_covers (hinv : Inv e) (hp : e.phase = .cHdr) (h : runCommands (header.map .hdrb) e = .next e')
    (hne : e'.phase ≠ .err) : HeaderCovers header e e' ∧ Inv e' ∧ e'.phase = .cHdr := by
  induction header generalizing e with
  | nil =>
    cases h
    exact ⟨.nil _, hinv, hp⟩
  | cons b rest ih =>
    obtain ⟨u, hstep, hu, hrest⟩ := runCommands_cons_of_ne_err (by simp) h hne
    obtain ⟨hroom, rfl⟩ := exec_hdrb_of_ne_err hinv hp hstep hu
    obtain ⟨v, hv, hinv'⟩ := exec_keeps hinv (.hdrb b)
    cases hv.symm.trans hstep
    obtain ⟨hcovers, hend⟩ := ih hinv' hp hrest
    exact ⟨hcovers.cons hroom, hend⟩

/-! ### The body -/

/-- What a command of the body feeds to the encoder. -/
def fedBy : Instr → List Token
  | .sym c => tokensOf [c]
  | .eofile => [boundaryToken]
  | _ => []

/-- The commands of the body before FINISH. -/
def feeds (i : Instr) : Prop := (∃ c, i = .sym c) ∨ i = .eofile

theorem feeds_covers (hi : feeds i) (hinv : Inv e) (hc : compressing e.phase) (ht : exec i e = .next e')
    (hne : e'.phase ≠ .err) : Covers (fedBy i) e e' ∧ Inv e' ∧ compressing e'.phase := by
  have herr : e.phase ≠ .err := by rcases hc with hc | hc <;> simp [hc]
  obtain ⟨v, hv, hinv'⟩ := exec_keeps hinv i
  cases hv.symm.trans ht
  obtain ⟨-, -, hafter⟩ := (exec_phase herr ht).resolve_left fun hf => hne hf.1
  obtain ⟨c, rfl⟩ | rfl := hi
  · exact ⟨sym_covers hinv hc ht hne, hinv', .inr hafter⟩
  · exact ⟨eofile_covers hinv hc ht hne, hinv', .inr hafter⟩

theorem not_srst_of_feeds (hcs : ∀ i ∈ cs, feeds i) : .srst ∉ cs := fun hmem => by simpa [feeds] using hcs _ hmem

theorem body_covers (hcs : ∀ i ∈ cs, feeds i) (hinv : Inv e) (hc : compressing e.phase)
    (h : runCommands cs e = .next e') (hne : e'.phase ≠ .err) :
    Covers (cs.flatMap fedBy) e e' ∧ Inv e' ∧ compressing e'.phase := by
  induction cs generalizing e with
  | nil =>
    cases h
    exact ⟨.refl _, hinv, hc⟩
  | cons i rest ih =>
    obtain ⟨hi, hrest⟩ := List.forall_mem_cons.1 hcs
    obtain ⟨u, hstep, hu, hrun⟩ := runCommands_cons_of_ne_err (not_srst_of_feeds hrest) h hne
    obtain ⟨hfirst, hinv', hc'⟩ := feeds_covers hi hinv hc hstep hu
    obtain ⟨hcovers, hend⟩ := ih hrest hinv' hc' hrun
    exact ⟨hfirst.trans hcovers, hend⟩

theorem feeds_of_mem_fileCommands {files : List Str} (h : i ∈ files.flatMap fileCommands) : feeds i := by
  obtain ⟨file, -, hi⟩ := List.mem_flatMap.1 h
  rcases List.mem_append.1 hi with hi | hi
  · obtain ⟨c, -, rfl⟩ := List.mem_map.1 hi
    exact .inl ⟨c, rfl⟩
  · exact .inr (List.mem_singleton.1 hi)

theorem flatMap_fedBy_fileCommands (files : List Str) :
    (files.flatMap fileCommands).flatMap fedBy = fileTokens files := by
  have hfile : ∀ file : Str, (fileCommands file).flatMap fedBy = tokensOf file ++ [boundaryToken] := fun file => by
    rw [fileCommands, List.flatMap_append, List.flatMap_map]
    simp [fedBy, tokensOf, List.map_eq_flatMap]
  rw [List.flatMap_assoc, fileTokens]
  simp only [hfile]

/-! ### FINISH (45_compress R163) and the end of the pass -/

/-- FINISH that ends in DONE had no file open; it adds the trailing code, and SNK holds the text of all that was
written, padded to whole groups. -/
theorem finish_packed (h : Packed before e) (hc : compressing e.phase) (ht : exec .finish e = .next t)
    (hdone : t.phase = .done) (hbits : bits = before ++ bitsMSB (storedCode 0 e.w e) e.w) :
    e.cand = [] ∧ snkBytes t = packText e.cfg (bits ++ padding e.cfg bits) := by
  subst hbits
  have herr : e.phase ≠ .err := by rcases hc with hc | hc <;> simp [hc]
  obtain ⟨-, -, -, hs⟩ := (exec_phase herr ht).resolve_left fun hf => by simp [Faulted, hdone] at hf
  refine ⟨hs, ?_⟩
  rw [exec_finish hc] at ht
  by_cases hroom : snkRoom (unitCost e.w e) e
  · have hcode := h.code (n := 0) hroom
    rw [finishBody_room hs hroom] at ht
    set v := codeWritten 0 e.w e
    by_cases hflush : snkRoom (packText v.cfg (v.wbuf ++ padding v.cfg v.wbuf)).length v
    · have hfin := finalize_room hcode.wbuf_short hflush
      have htext := hcode.finalized hfin
      rw [hfin] at ht
      cases ht
      exact htext
    · rw [finalize_full hcode.wbuf_short hcode.cap hflush] at ht
      cases ht
      cases hdone
  · rw [finishBody_full hs h.cap hroom] at ht
    cases ht
    cases hdone

theorem codeAhead_of_short (h : (unread d).length < d.w) : codeAhead d = none := by
  rw [codeAhead, bitsAhead, if_neg h.not_ge, Option.map_none]

/-- In PRIME the trailing code becomes CURRENT, and the next DSTEP meets END in the padding. -/
theorem InStep.finish (h : InStep fed e d) (hs : e.cand = []) (hpad : more.length < 8)
    (hu : unread d = bitsMSB (storedCode 0 e.w e) e.w ++ more) :
    ∃ u, DecodeSteps d u ∧ u.phase = .done ∧ u.err = 0 ∧ outTokens u = fed := by
  have hd := h.closed hs
  obtain ⟨held, hsync, rfl⟩ := h.holds
  obtain rfl : held = [] := by
    cases hsync with
    | prime _ _ => rfl
    | run hrun _ _ => rw [hd] at hrun; cases hrun
  have hwidth := h.link.inv.width.1
  have hpow := pow_bounds hwidth
  have hdsize := h.link.inv.dsize.1
  have hahead : codeAhead d = some 0 := h.link.codeAhead hsync.w (by positivity) hu
  have hstep := exec_dstep_code h.link.phase hd (h.link.symbols.readable _) hahead
  have hcur : currentCode 0 (stepRead d) = .done () { stepRead d with cur := 0, dstate := .run } :=
    currentCode_known (s := stepRead d) (by change 0 ≠ 2 ^ d.w - 1; omega) (by change 0 < d.dsize; omega)
  rw [useCode, hcur, Res.outcome_done] at hstep
  obtain ⟨hlink, hrest⟩ := h.link.step hahead (codeWritten_sent 0 e.w e) hstep (.inr rfl)
  rw [← hsync.w, drop_of_unread hu] at hrest
  have hwidth' := hlink.inv.width.1
  have hend := exec_dstep_end hlink.phase (hlink.symbols.readable _) (codeAhead_of_short (by rw [hrest]; omega))
  obtain ⟨_, hnext, hinv⟩ := exec_keeps hlink.inv .dstep
  cases hend.symm.trans hnext
  refine ⟨_, .tail (.single ⟨h.link.phase, hstep⟩) ⟨hlink.phase, hend⟩, rfl, ?_, ?_⟩
  · by_contra hne
    cases hinv.errPhase.2 hne
  · rw [hs]
    exact (List.append_nil _).symm

/-- The stream of a pass that ended in DONE, given to a reader as SRC. -/
theorem unread_of_snkBytes (hlen : r.srcLen = t.snkLen) (hsrc : ∀ i < t.snkLen, readSnk i t = some (srcByte i r))
    (htext : r.cfg.text = s.cfg.text) (ht : snkBytes t = packText s.cfg (bits ++ padding s.cfg bits)) :
    SrcSymbols (beginState r) ∧ unread (beginState r) = bits ++ padding s.cfg bits :=
  srcAhead_of_packText (r := beginState r) htext rfl ((srcBytes_eq_snkBytes hlen hsrc).trans ht)
    (groupSize_dvd_padded s.cfg bits)

/-- The parts of a compress pass that does not end in ERR. -/
theorem compressPass_parts {files : List Str} (hp : s.phase = .idle ∨ s.phase = .done)
    (h : runCommands (compressPass header files) s = .next t) (hne : t.phase ≠ .err) :
    ∃ e1 e2, runCommands (header.map .hdrb) (beginState s) = .next e1 ∧ e1.phase ≠ .err ∧
      runCommands (files.flatMap fileCommands) e1 = .next e2 ∧ e2.phase ≠ .err ∧ exec .finish e2 = .next t := by
  have hfiles : .srst ∉ files.flatMap fileCommands := not_srst_of_feeds fun _ => feeds_of_mem_fileCommands
  rw [compressPass, List.append_assoc] at h
  obtain ⟨u, hbegin, -, h⟩ := runCommands_cons_of_ne_err (by simp [hfiles]) h hne
  cases (exec_legal (i := .beginOp) (quiet_iff.2 hp)).symm.trans hbegin
  obtain ⟨e1, hheader, hne1, h⟩ := runCommands_append_of_ne_err (by simp [hfiles]) h hne
  obtain ⟨e2, hbody, hne2, h⟩ := runCommands_append_of_ne_err (by simp) h hne
  exact ⟨e1, e2, hheader, hne1, hbody, hne2, runCommands_singleton.1 h⟩

/-- Settles O57: the decoder starts in step with the encoder, follows it through the header and the body, and ends the
pass at the trailing code. -/
theorem roundTrip : Obligations.RoundTrip := by
  unfold Obligations.RoundTrip
  intro header files s t r hinv hp hdir hrun hdone hinvr hpr hcfg hkey hgen hhdr hlen hsrc hcap
  obtain ⟨e1, e2, hheader, hne1, hbody, hne2, hfinish⟩ := compressPass_parts hp hrun (by simp [hdone])
  have hphase : (beginState s).phase = .cHdr := congrArg beginPhase hdir
  have hne : s.phase ≠ .err := by rcases hp with hp | hp <;> simp [hp]
  obtain ⟨⟨hcfg1, bits1, hpack1, hread1⟩, hinv1, hphase1⟩ := header_covers (hinv.begin hne) hphase hheader hne1
  obtain ⟨⟨hcfg2, bits2, hpack2, hread2⟩, hinv2, hphase2⟩ :=
    body_covers (fun _ => feeds_of_mem_fileCommands) hinv1 (.inl hphase1) hbody hne2
  have hcfge : e2.cfg = s.cfg := hcfg2.trans hcfg1
  rw [flatMap_fedBy_fileCommands] at hread2
  obtain ⟨hclosed, hsnk⟩ := finish_packed (hpack2 _ (hpack1 _ (.empty rfl rfl))) hphase2 hfinish hdone rfl
  rw [hcfge, List.nil_append] at hsnk
  obtain ⟨hsymbols, hunread⟩ := unread_of_snkBytes hlen hsrc (by rw [hcfg]) hsnk
  have hshort := (padding_length_lt s.cfg (bits1 ++ bits2 ++ bitsMSB (storedCode 0 e2.w e2) e2.w)).trans_le
    (groupSize_bounds s.cfg).2
  rw [List.append_assoc, List.append_assoc] at hunread
  have hphaser := beginState_phase_dHdr (r := r) (by rw [hcfg])
  obtain ⟨d1, heach, hin1, hunread1, hparams⟩ :=
    hread1 [] _ _ (inStep_begin hinvr hpr hcfg hkey hgen hhdr hsymbols) hphaser hunread
  obtain ⟨d2, hsteps, hin2, hunread2⟩ := hread2 [] d1 _ hin1 (by rw [hparams]; exact hcap) hunread1
  obtain ⟨u, hlast, hudone, huerr, hout⟩ := hin2.finish hclosed hshort hunread2
  obtain ⟨k, hk⟩ := drun_of_decodeSteps (hsteps.trans hlast)
  exact ⟨_, d1, u, _, k, exec_legal (i := .beginOp) (quiet_iff.2 hpr), heach, rfl, hk, hudone, huerr, hout⟩

end Sys2Proof.Machine
end

section
/-!
PROOF. Command words in ERR (60_exceptions R193, R194): a word that is not SRST's is discarded, SRST's leads out.
-/

namespace Sys2Proof.Machine

variable {s : State} {cmd : Cmd}

/-- The SRST word resets the engine in whatever phase it is presented (40_control R96). -/
theorem acceptWord_srst (h : decode cmd = .ok .srst) : acceptWord cmd s = .next (softReset s) := by
  rw [acceptWord_of_decode h, exec_srst]

/-- Settles O33: the acceptance sequence discards every word but SRST's, and SRST leaves the reset table, where PHASE is
IDLE and ERR and ERRINFO are 0. -/
theorem discardedInErr : Obligations.DiscardedInErr := by
  unfold Obligations.DiscardedInErr
  refine ⟨fun _ _ => acceptWord_discards, fun cmd s _ h => ⟨softReset s, acceptWord_srst h, ?_⟩⟩
  have htable := softReset_table s
  exact ⟨htable.phase, htable.err, htable.errinfo⟩

end Sys2Proof.Machine
end

section
/-!
PROOF. How much SNK grows in one command of a compress pass (70_reset R224): a unit appends at most 4 bytes and the
flush at most 2, and each command writes at most two units and flushes at most once.
-/

namespace Sys2Proof.Machine

variable {α β : Type} {s t : State} {i : Instr} {j k : Nat}

/-- A piece of pseudocode run from `s` appends at most `k` bytes to SNK, however it ends. -/
abbrev Appends (k : Nat) (s : State) (x : Res α) : Prop :=
  Res.Post (fun _ t => t.snkLen ≤ s.snkLen + k) (fun t => t.snkLen ≤ s.snkLen + k) True x

theorem Appends.mono {x : Res α} (h : Appends j s x) (hjk : j ≤ k) : Appends k s x :=
  Res.Post.mono h (fun _ _ ht => ht.trans (by omega)) (fun _ ht => ht.trans (by omega)) id

/-- Sequencing: what the two parts append adds up. `D` is what the second part may use of the states it runs in. -/
theorem Appends.bind_post {D : α → State → Prop} {R : State → Prop} {S : Prop} {x : Res α} {f : α → State → Res β}
    (h : Appends j s x) (hx : Res.Post D R S x) (hf : ∀ a t, D a t → Appends k t (f a t)) :
    Appends (j + k) s (x.bind f) := by
  refine Res.Post.bind (Res.Post.and h hx) (fun a t ⟨ht, hd⟩ => ?_) (fun _ hr => hr.1.trans (by omega))
    fun _ => trivial
  exact Res.Post.mono (hf a t hd) (fun _ _ hu => hu.trans (by omega)) (fun _ hu => hu.trans (by omega)) id

/-- Sequencing before a part that appends its bytes from any state. -/
theorem Appends.bind {x : Res α} {f : α → State → Res β} (h : Appends j s x) (hf : ∀ a t, Appends k t (f a t)) :
    Appends (j + k) s (x.bind f) :=
  h.bind_post h fun a t _ => hf a t

/-- A command appends what its pseudocode appends, and nothing when it is turned away (40_control R90). -/
theorem exec_snkLen_le (hi : i ≠ .srst) (h : exec i s = .next t)
    (hb : s.phase ∈ legalPhases i → Appends k s (commandBody i s)) : t.snkLen ≤ s.snkLen + k := by
  rcases exec_cases h hb with ⟨_, _, rfl⟩ | ⟨_, _, rfl⟩ | ⟨hsrst, _⟩ | ⟨_, _, hd | hr⟩
  · exact Nat.le_add_right _ _
  · exact Nat.le_add_right _ _
  · exact absurd hsrst hi
  · exact hd
  · exact hr

/-! ### Units and the flush (41_bitcodestream R110, R111) -/

@[simp] theorem pushBits_snkLen (bits : Bits) (s : State) :
    (pushBits bits s).snkLen = s.snkLen + unitCost bits.length s := by
  simp [pushBits, unitCost, packText_length]

theorem pushOverflow_snkLen_le (bits : Bits) (s : State) :
    (pushOverflow bits s).snkLen ≤ s.snkLen + unitCost bits.length s := by
  simp [pushOverflow, unitCost, packText_length]

/-- A unit appends the text of whole groups, or the part of it that fits. -/
theorem writeBits_appends {n : Nat} (v : Nat) (hw : s.wbuf.length < groupSize s.cfg)
    (hc : s.snkLen ≤ s.params.snkCap.toNat) (hn : n ≤ 16) : Appends 4 s (writeBits v n s) := by
  have hcost : unitCost (bitsMSB v n).length s ≤ 4 := unitCost_le hw (by simpa using hn)
  by_cases hroom : snkRoom (unitCost n s) s
  · rw [writeBits_room hroom]
    exact (pushBits_snkLen _ s).le.trans (by omega)
  · rw [writeBits_full hc hroom]
    exact (pushOverflow_snkLen_le _ s).trans (by omega)

/-- A code is one unit, at a width of at most 16 (10_state R11). -/
theorem wrCode_appends (h : Inv s) (hc : compressing s.phase) (c : Nat) : Appends 4 s (wrCode c s.w s) := by
  unfold wrCode
  split
  · exact writeBits_appends (s := (draw s).2) _ (h.wbufShort hc) h.snkLen h.width.2
  · exact writeBits_appends c (h.wbufShort hc) h.snkLen h.width.2

/-- A header byte is one unit of 8 bits. -/
theorem wrHdr_appends (h : Inv s) (hc : compressing s.phase) (b : Byte) : Appends 4 s (wrHdr b s) := by
  unfold wrHdr
  split
  · exact writeBits_appends (s := (draw s).2) _ (h.wbufShort hc) h.snkLen (by decide)
  · exact writeBits_appends _ (h.wbufShort hc) h.snkLen (by decide)

theorem snkAppend_appends (b : Byte) (s : State) : Appends 1 s (snkAppend b s) := by
  unfold snkAppend
  split
  · exact Nat.le_add_right _ _
  · exact le_rfl

/-- A group takes one byte, or the two characters of mode hex (20_memory R43). -/
theorem emitGroup_appends (g : Nat) (s : State) : Appends 2 s (emitGroup g s) := by
  unfold emitGroup
  split
  · exact (snkAppend_appends _ s).mono (by decide)
  · exact (snkAppend_appends _ s).bind fun _ t => snkAppend_appends _ t
  · exact (snkAppend_appends _ s).mono (by decide)

/-- The flush emits at most one group. -/
theorem finalize_appends (s : State) : Appends 2 s (finalize s) := by
  unfold finalize
  split
  · exact Appends.bind (s := { s with wbuf := _ }) (k := 0) (emitGroup_appends _ _) fun _ _ => le_rfl
  · exact Nat.le_add_right _ _

/-! ### The commands (45_compress R161 to R163) -/

/-- The policy and the new candidate append nothing. -/
theorem encPolicy_appends (e : Option Str) (cand : Str) (s : State) :
    Appends 0 s (.done () { encPolicy e s with cand := cand }) := by
  rw [encPolicy_frame]
  exact le_rfl

/-- What follows runs from `s` with the candidate's code. -/
theorem candCode_bind_appends {f : Nat → State → Res Unit} (h : ∀ code, Appends k s (f code s)) :
    Appends k s ((candCode s).bind f) := by
  unfold candCode
  split
  · exact h _
  · trivial

theorem symMiss_appends (h : Inv s) (hc : compressing s.phase) (c : Byte) : Appends 4 s (symMiss c s) :=
  candCode_bind_appends fun code =>
    (wrCode_appends h hc code).bind fun _ t => encPolicy_appends (some (t.cand ++ [c])) [c] t

theorem closeCandidate_appends (h : Inv s) (hc : compressing s.phase) : Appends 4 s (closeCandidate s) := by
  unfold closeCandidate
  split
  · exact Nat.le_add_right _ _
  · exact candCode_bind_appends fun code =>
      (wrCode_appends h hc code).bind fun _ t => encPolicy_appends none [] t

/-- SYM writes a code on a miss only. -/
theorem symBody_appends (h : Inv s) (hc : compressing s.phase) (c : Byte) : Appends 4 s (symBody c s) := by
  unfold symBody
  split
  · exact Nat.le_add_right _ _
  · split
    · exact Nat.le_add_right _ _
    · exact symMiss_appends (h.enterBody hc) (.inr rfl) c

/-- EOFILE writes the last code of the file, if one is open, and the sentinel. -/
theorem eofileBody_appends (h : Inv s) (hc : compressing s.phase) : Appends 8 s (eofileBody s) := by
  have hbody : Inv { s with phase := .cBody } := h.enterBody hc
  exact (closeCandidate_appends hbody (.inr rfl)).bind_post (k := 4) (closeCandidate_keeps hbody (.inr rfl))
    fun _ _ ⟨ht, hct⟩ => wrCode_appends ht hct _

/-- FINISH writes the trailing code and flushes. -/
theorem finishBody_appends (h : Inv s) (hc : compressing s.phase) : Appends 6 s (finishBody s) := by
  unfold finishBody
  split
  · exact Nat.le_add_right _ _
  · exact (wrCode_appends h hc 0).bind (k := 2) fun _ t =>
      (finalize_appends t).bind (k := 0) fun _ _ => le_rfl

/-- Settles O35: each command appends what the units it writes and its flush append. -/
theorem snkGrowth : Obligations.SnkGrowth := by
  unfold Obligations.SnkGrowth
  refine fun s t h => ⟨fun b ht => ?_, fun c ht => ?_, fun ht => ?_, fun ht => ?_⟩
  · exact exec_snkLen_le (by simp) ht fun hl => wrHdr_appends h (.inl (List.mem_singleton.1 hl)) b
  · exact exec_snkLen_le (by simp) ht fun hl => symBody_appends h (mem_compressing hl) c
  · exact exec_snkLen_le (by simp) ht fun hl => eofileBody_appends h (mem_compressing hl)
  · exact exec_snkLen_le (by simp) ht fun hl => finishBody_appends h (mem_compressing hl)

end Sys2Proof.Machine
end

section
/-!
PROOF. What an operation starts from (70_reset R216): BEGIN overwrites every element but CFG, KEY, SRC_LEN, SRC and the
record of a fault, and in IDLE and DONE no fault is recorded.
-/

namespace Sys2Proof.Machine

variable {s s' : State}

/-- Outside ERR no fault is recorded (10_state R24, R25). -/
theorem Inv.no_fault (h : Inv s) (hp : s.phase ≠ .err) : s.err = 0 ∧ s.errinfo = 0 := by
  have herr : s.err = 0 := not_not.1 (mt h.errPhase.2 hp)
  exact ⟨herr, h.errInfo herr⟩

/-- All that `beginState` takes from the state before. -/
theorem beginState_congr (hcfg : s'.cfg = s.cfg) (hkey : s'.key = s.key) (hlen : s'.srcLen = s.srcLen)
    (hsrc : s'.src = s.src) (herr : s'.err = s.err) (hinfo : s'.errinfo = s.errinfo)
    (hepoch : s'.srcEpoch = s.srcEpoch) (hparams : s'.params = s.params) (hport : s'.port = s.port) :
    beginState s' = beginState s := by
  simp only [beginState, dictRestart, dictReset, hcfg, hkey, hlen, hsrc, herr, hinfo, hepoch, hparams, hport]

/-- Settles O53: BEGIN is legal in both states, and they agree on all that `beginState` takes over. -/
theorem beginForgets : Obligations.BeginForgets := by
  unfold Obligations.BeginForgets
  intro s s' hp hp' h h' hcfg hkey hlen hsrc hepoch hparams hport
  obtain ⟨herr, hinfo⟩ := h.no_fault (by rcases hp with hp | hp <;> simp [hp])
  obtain ⟨herr', hinfo'⟩ := h'.no_fault (by rcases hp' with hp' | hp' <;> simp [hp'])
  have hbegin : beginState s' = beginState s :=
    beginState_congr hcfg hkey hlen hsrc (herr'.trans herr.symm) (hinfo'.trans hinfo.symm) hepoch hparams hport
  rw [exec_legal (quiet_iff.2 hp'), exec_legal (quiet_iff.2 hp), commandBody, commandBody, hbegin]

end Sys2Proof.Machine
end
